-- ==== Sys2Proof/Word.lean ====
section
/-! DEFINITION. The two word sizes of DMD32R4-CORE: the byte, which is the only access width of the
pixel buffer and of resource memory (20_memory.md R66), and the 32-bit command word (30_encoding.md R90). -/

namespace Sys2Proof

/-- A byte: a cell of the pixel buffer or of resource memory, a character code, an 8-bit register (R66). -/
abbrev Byte := BitVec 8

/-- A word of the command stream, a resource address or a 32-bit register (R73, R70, R41). -/
abbrev Word := BitVec 32

end Sys2Proof
end

