-- ==== Sys2Proof/Config.lean ====
section
/-! DEFINITION. What an implementation fixes (the open parameters of 00_scope.md R9) and the values the
spec leaves free. -/

namespace Sys2Proof

/-- The open parameters of R9, fixed for the life of the block. `PWM_HZ` and `BUS_HZ` are left out: no
rule depends on them (R9, R296). -/
structure Config where
  /-- `T_MAX`: the largest `panelsTotal` the buffer RAM can hold, 1 to 255. -/
  tMax : Byte
  /-- `RESET_W`: panels wide after reset. -/
  resetW : Byte
  /-- `RESET_H`: panels high after reset. -/
  resetH : Byte
  /-- `CHAR_GAP`: blank columns after a character of non-zero width, 0 or 1. -/
  charGap : Fin 2
  /-- Whether DRAWBOX and DRAWFILLEDBOX write the two end points of a box that is a segment once more after
  the edges of R148. The spec contradicts itself there: those edges write them three times, R152 (c), to which
  both commands point for this case (R147, R149), says four. No file rules which holds, so both readings are
  machines of the model (DESIGN CHOICE: notes/assumptions/22.md). -/
  segmentEndsAgain : Bool
  /-- `BRIGHT_RESET`: the brightness after reset, any 8-bit value (R25). -/
  brightReset : Byte
deriving DecidableEq, Repr

/-- The defaults of R9, which every test vector of the spec uses. `BRIGHT_RESET` has no default in the
spec: 0 is the model's (DESIGN CHOICE, unsafe: notes/assumptions/2.md). A box that is a segment
follows R152 (c), as R147 and R149 say for that case (DESIGN CHOICE, unsafe: notes/assumptions/22.md). -/
def Config.standard : Config where
  tMax := 255
  resetW := 1
  resetH := 1
  charGap := 1
  segmentEndsAgain := true
  brightReset := 0

/-- The parameters lie in the ranges of R9 and the grid after reset is a legal one (R23). -/
abbrev Config.wf (c : Config) : Prop :=
  1 ≤ c.resetW.toNat ∧ 1 ≤ c.resetH.toNat ∧ c.resetW.toNat * c.resetH.toNat ≤ c.tMax.toNat

/-- FREE VALUE (safe: notes/assumptions/1.md). The unspecified byte at a buffer address that no command
has stored to since the `epoch`-th time the buffer became unspecified: at reset (R24, R55) and at a
successful CHANGEDMD (R125). -/
opaque Config.freeByte (epoch addr : Nat) : Byte

/-- FREE VALUE (safe: notes/assumptions/3.md). The byte of resource memory at an address for which the
state lists no content: the content is the host's (R52, R70). -/
opaque Config.romByte (addr : Nat) : Byte

end Sys2Proof
end

