-- ==== Sys2Proof/Syntax.lean ====
section
/-! DEFINITION. The seventeen commands of 30_encoding.md R96, one constructor per row of the opcode
table, with the operands R95 assembles from the packet. -/

namespace Sys2Proof

/-- GraphicsMode, in the order of its codes 0 to 4 (30_encoding.md R105, 40_pixelbuffer.md R122). -/
inductive Mode where
  | normal
  | inverse
  | toggle
  | or
  | nor
deriving DecidableEq, Repr

/-- One command of the block. A coordinate, radius, step, row or column is the exact integer of its
signed 16-bit field (R12, R95); every other operand keeps the width of its field. -/
inductive Instr where
  /-- WRITEPIXEL `x, y, mode, value` (R123). -/
  | writePixel (x y : Int) (mode : Mode) (value : Bool)
  /-- CLEARSCREEN `normal` (R124). -/
  | clearScreen (normal : Bool)
  /-- CHANGEDMD `panelsWide, panelsHigh` (R125). -/
  | changeDmd (panelsWide panelsHigh : Byte)
  /-- DRAWLINE `x1, y1, x2, y2, mode` (R141). -/
  | drawLine (x1 y1 x2 y2 : Int) (mode : Mode)
  /-- DRAWCIRCLE `cx, cy, r, mode` (R144). -/
  | drawCircle (cx cy r : Int) (mode : Mode)
  /-- DRAWBOX `x1, y1, x2, y2, mode` (R147). -/
  | drawBox (x1 y1 x2 y2 : Int) (mode : Mode)
  /-- DRAWFILLEDBOX `x1, y1, x2, y2, mode` (R149). -/
  | drawFilledBox (x1 y1 x2 y2 : Int) (mode : Mode)
  /-- DRAWTESTPATTERN `pattern` (R150). -/
  | drawTestPattern (pattern : BitVec 2)
  /-- SELECTFONT `@addr` (R177). -/
  | selectFont (addr : Word)
  /-- CHARWIDTH `letter` (R178). -/
  | charWidth (letter : Byte)
  /-- DRAWCHAR `x, y, letter, mode` (R180). -/
  | drawChar (x y : Int) (letter : Byte) (mode : Mode)
  /-- DRAWSTRING `x, y, @addr, length, mode` (R182). -/
  | drawString (x y : Int) (addr : Word) (length : BitVec 16) (mode : Mode)
  /-- DRAWMARQUEE `@addr, length, left, top` (R201). -/
  | drawMarquee (addr : Word) (length : BitVec 16) (left top : Int)
  /-- STEPMARQUEE `dx, dy` (R205). -/
  | stepMarquee (dx dy : Int)
  /-- STEPSPLITMARQUEE3 `topRow, bottomRow, startColumn` (R208). -/
  | stepSplitMarquee3 (topRow bottomRow startColumn : Int)
  /-- SCAN (R232). -/
  | scan
  /-- SETBRIGHTNESS `value` (R242). -/
  | setBrightness (value : Byte)
deriving DecidableEq, Repr

end Sys2Proof
end

