-- ==== Sys2Proof/Machine/State.lean ====
section
/-! DEFINITION. The state of DMD32R4-CORE (10_state.md R20), the progress of its two engines (R51), its
inputs (R52, R4) and its output trace (44_scan.md R240), all as plain data; why a step can stop; and the
state after reset (R55). -/

namespace Sys2Proof.Machine

/-! ### Why a step can stop -/

/-- A step that the spec calls undefined, or an access to a buffer byte that does not exist. -/
inductive Fault where
  /-- Raised by an access of either engine to a buffer address at or above `BUFSIZE`. R69 says no rule
  forms one; only states in which `T` is not `W * H` can raise it. Safe: the model stops. -/
  | bufferRange (addr : Nat)
  /-- Raised by CHANGEDMD executed while a scan is in progress: undefined (20_memory.md R85, U1). Safe:
  the model stops where the hardware does something unknown. -/
  | reconfigDuringScan
  /-- Raised by a scan that starts while CHANGEDMD executes: undefined (20_memory.md R85, U1). Safe. -/
  | scanDuringReconfig
deriving DecidableEq, Repr

/-- No meaning for the instruction. -/
inductive Refusal where
  /-- Raised by an arm of `exec` for a command that has no meaning in the model. No arm raises it:
  every command is modelled. Safe. -/
  | notModelled (mnemonic : String)
deriving DecidableEq, Repr

/-! ### Outputs -/

/-- An event of the signal-sink trace (44_scan.md R240). -/
inductive Event where
  /-- `OE(l)`: set the output-enable gate. -/
  | oe (level : Bool)
  /-- `SEL(a, b)`: drive the two row-select lines. -/
  | sel (a b : Bool)
  /-- `SHIFT(v)`: shift one byte into the panels' chain. -/
  | shift (v : Byte)
  /-- `LATCH`: copy the shifted bits into the output register. -/
  | latch
deriving DecidableEq, Repr

/-! ### Inputs -/

/-- One thing the outside world does, or one turn of an engine; the list of them in the state decides
the interleaving of the engines (R50, R80, R265). -/
inductive Input where
  /-- The host presents one more word on the command port (R90). -/
  | send (w : Word)
  /-- The host raises a scan request on the scan port (44_scan.md R231). -/
  | scanRequest
  /-- The `bus_busy` input takes this level (44_scan.md R233). -/
  | busBusy (level : Bool)
  /-- A PWM tick (10_state.md R29). -/
  | pwmTick
  /-- The reset input takes this level (70_reset_and_hazards.md R280). -/
  | reset (level : Bool)
  /-- The command port accepts the next packet, without executing any of its micro-steps (R82). -/
  | accept
  /-- The draw engine performs its next micro-step (R80). -/
  | drawStep
  /-- The scan engine performs its next micro-step (R80). -/
  | scanStep
deriving DecidableEq, Repr

/-! ### Progress of the engines (R51) -/

/-- The four sticky bits of `STATUS` (R40). -/
inductive Flag where
  | fault
  | ill
  | noFont
  | mTrunc
deriving DecidableEq, Repr

/-- A write of the draw engine to one register (R51). -/
inductive RegWrite where
  /-- `W <- v` (40_pixelbuffer.md R125). -/
  | width (v : Byte)
  /-- `H <- v` (R125). -/
  | height (v : Byte)
  /-- `T <- v`, with which `BUFSIZE` becomes `64 * v` (R125). -/
  | total (v : Byte)
  /-- `PHASE <- 0` (R125). -/
  | phaseZero
  /-- `CURSOR <- 0` (R125). -/
  | cursorZero
  /-- `BRIGHT <- v` (44_scan.md R242). -/
  | bright (v : Byte)
  /-- `FONT <- a` (42_glyph.md R177). -/
  | font (addr : Word)
  /-- `FONTSEL <- 1` (R177). -/
  | fontSel
  /-- `MTEXT[i] <- c` (43_marquee.md R201). -/
  | mtext (i : Nat) (c : Byte)
  /-- `MLEN <- n` (R201). -/
  | mlen (n : Byte)
  /-- `MW <- v` (R201). -/
  | mwidth (v : Nat)
  /-- `MH <- v` (R201). -/
  | mheight (v : Nat)
  /-- `MACT <- 1` (R201). -/
  | mact
  /-- `MOX <- Canon(x, MW)` (R201, R205, R208). -/
  | offsetX (x : Int)
  /-- `MOY <- Canon(y, MH)` (R201, R205). -/
  | offsetY (y : Int)
  /-- `RES <- v` (R41). -/
  | res (v : Int)
  /-- `STATUS.f <- 1` (60_exceptions.md R263). -/
  | flag (f : Flag)
deriving DecidableEq, Repr

/-- One operation the draw engine has still to perform. The values its local variables have taken are
the arguments (R51). -/
inductive Micro where
  /-- `WritePixel(x, y, mode, v)`, nothing of it done yet (40_pixelbuffer.md R120). -/
  | pixel (x y : Int) (mode : Mode) (v : Bool)
  /-- `WritePixel` after its load: `old` was read from `addr`, the store is still to come (R120). -/
  | merge (addr : Nat) (mask : Byte) (mode : Mode) (v : Bool) (old : Byte)
  /-- `v <- GetPixel(x + 1, y); WritePixel(x, y, NORMAL, v)`, nothing of it done yet (43_marquee.md R208). -/
  | copyLeft (x y : Int)
  /-- `Buf[addr] <- v`, a whole-byte store (R66). -/
  | store (addr : Nat) (v : Byte)
  /-- `Buf[addr] <- unspecified`, the store of CHANGEDMD (R125). -/
  | forget (addr : Nat)
  /-- A register write. -/
  | reg (w : RegWrite)
deriving DecidableEq, Repr

/-- One operation the scan engine has still to perform (44_scan.md R234). -/
inductive ScanMicro where
  /-- Nothing: the one step of a scan that its sample of `bus_busy` or the FAULT condition ends (R238, R245). -/
  | skip
  /-- `Emit(e)`. -/
  | emit (e : Event)
  /-- `OEGATE <- l`. -/
  | oeGate (level : Bool)
  /-- `SELA <- l`. -/
  | selA (level : Bool)
  /-- `SELB <- l`. -/
  | selB (level : Bool)
  /-- `PHASE <- p`. -/
  | phase (p : BitVec 2)
  /-- `CURSOR <- c`. -/
  | cursor (c : Nat)
  /-- `v <- Buf[addr]; Emit(SHIFT(v))`: the load is the micro-step, its event follows at once (R236). -/
  | shift (addr : Nat)
deriving DecidableEq, Repr

/-- What the draw engine is executing and what is left of it (R50, R51). -/
structure DrawProgress where
  /-- The command; `none` for an illegal packet, which is refused (60_exceptions.md R266 step 2). -/
  cmd : Option Instr
  rest : List Micro
deriving DecidableEq, Repr

/-! ### Registers -/

/-- A byte memory: the bytes whose content is listed, addresses strictly rising. -/
abbrev Memory := List Host.Cell

/-- The canonical form: addresses strictly rising, so that equal memories are equal data. An address
that is not listed has no listed content (it reads as a free value), so no entry can equal it. -/
abbrev Memory.wf (m : Memory) : Prop := m.Pairwise (fun c d => c.1 < d.1)

/-- `W`, `H`, `T` (R23). -/
structure Geometry where
  w : Byte
  h : Byte
  t : Byte
deriving DecidableEq, Repr

/-- `Buf` (R24). -/
structure Buffer where
  /-- The model's own counter: how many times the whole buffer has become unspecified. -/
  epoch : Nat
  /-- The bytes stored since then. -/
  cells : Memory
deriving DecidableEq, Repr

/-- The scan state and the held output lines (R26, R27, R28). -/
structure ScanRegs where
  phase : BitVec 2
  cursor : BitVec 16
  oeGate : Bool
  selA : Bool
  selB : Bool
deriving DecidableEq, Repr

/-- `FONT` and `FONTSEL` (R30). -/
structure FontRegs where
  addr : Word
  sel : Bool
deriving DecidableEq, Repr

/-- The marquee state (R31). -/
structure MarqueeRegs where
  act : Bool
  len : Byte
  text : Vector Byte 255
  mw : BitVec 32
  mh : BitVec 32
  ox : BitVec 32
  oy : BitVec 32
deriving DecidableEq, Repr

/-- The sticky bits of `STATUS` (R40); the live bits are computed from what they copy. -/
structure Sticky where
  fault : Bool
  ill : Bool
  noFont : Bool
  mTrunc : Bool
deriving DecidableEq, Repr

/-- What stands outside the block (R52): the parameters, the content of resource memory, the words on
the command port, the inputs to come and the levels of the two input lines. -/
structure Env where
  cfg : Config
  rom : Memory
  port : List Word
  sched : List Input
  busBusy : Bool
  resetHeld : Bool
deriving DecidableEq, Repr

/-- The block and its surroundings (R20, R52). -/
structure State where
  env : Env
  geom : Geometry
  buf : Buffer
  bright : Byte
  regs : ScanRegs
  pwmCnt : Byte
  font : FontRegs
  marq : MarqueeRegs
  sticky : Sticky
  res : BitVec 32
  /-- The draw engine's command in progress; `none` when it is idle (R50). -/
  draw : Option DrawProgress
  /-- What is left of the scan in progress; empty when the scan engine is idle (R50). -/
  scan : List ScanMicro
  /-- The scan in progress came as a packet, so the command port accepts nothing until it ends (R82). -/
  scanOnPort : Bool
  /-- The signal-sink trace since reset, oldest event first (R240). -/
  trace : List Event
deriving DecidableEq, Repr

/-! ### Reset -/

/-- The value of every element right after reset (R55, R281), for the surroundings `env`. `FONT` and
`MTEXT`, which R55 leaves unspecified, are 0 (DESIGN CHOICE, unsafe: notes/assumptions/2.md). -/
def State.resetWith (env : Env) (epoch : Nat) : State where
  env := env
  geom := { w := env.cfg.resetW, h := env.cfg.resetH, t := env.cfg.resetW * env.cfg.resetH }
  buf := { epoch := epoch, cells := [] }
  bright := env.cfg.brightReset
  regs := { phase := 0, cursor := 0, oeGate := false, selA := false, selB := false }
  pwmCnt := 0
  font := { addr := 0, sel := false }
  marq := { act := false, len := 0, text := Vector.replicate 255 0, mw := 0, mh := 0, ox := 0, oy := 0 }
  sticky := { fault := false, ill := false, noFont := false, mTrunc := false }
  res := 0
  draw := none
  scan := []
  scanOnPort := false
  trace := []

/-- The surroundings of `State.reset`: default parameters, nothing on any input. -/
def Env.initial : Env where
  cfg := Config.standard
  rom := []
  port := []
  sched := []
  busBusy := false
  resetHeld := false

/-- The block right after reset, with the default parameters (R55, R280). -/
def State.reset : State := State.resetWith Env.initial 0

end Sys2Proof.Machine
end

