-- ==== Sys2Proof/Machine/Flags.lean ====
section
/-! DEFINITION. The status register (10_state.md R40), the one way a sticky bit is set (60_exceptions.md
R262, R263), and the levels of the block's outputs. -/

namespace Sys2Proof.Machine

/-- Sets one sticky bit; setting a bit that is 1 changes nothing (R263). -/
def Sticky.set (b : Sticky) : Flag → Sticky
  | .fault => { b with fault := true }
  | .ill => { b with ill := true }
  | .noFont => { b with noFont := true }
  | .mTrunc => { b with mTrunc := true }

/-- Reads one sticky bit (R40). -/
def Sticky.get (b : Sticky) : Flag → Bool
  | .fault => b.fault
  | .ill => b.ill
  | .noFont => b.noFont
  | .mTrunc => b.mTrunc

/-- `STATUS.f <- 1` and nothing else: what is left of a refused command (R262, R263). -/
def State.refuse (f : Flag) (s : State) : State := { s with sticky := s.sticky.set f }

/-- `STATUS.DBUSY`: the draw engine is executing a command (R40). -/
def State.dBusy (s : State) : Bool := s.draw.isSome

/-- `STATUS.SBUSY`: the scan engine is executing a scan (R40). -/
def State.sBusy (s : State) : Bool := !s.scan.isEmpty

/-- The `STATUS` output: sticky bits 3:0, live bits 11:8, reserved bits read 0 (R40). -/
def State.status (s : State) : BitVec 16 :=
  0#4 ++ (BitVec.ofBool s.font.sel ++ (BitVec.ofBool s.marq.act ++ (BitVec.ofBool s.sBusy ++
    (BitVec.ofBool s.dBusy ++ (0#4 ++ (BitVec.ofBool s.sticky.mTrunc ++ (BitVec.ofBool s.sticky.noFont ++
      (BitVec.ofBool s.sticky.ill ++ BitVec.ofBool s.sticky.fault))))))))

/-- The gated `oe` output: `OEGATE = 1` and `PWMCNT < BRIGHT` (44_scan.md R243). -/
def State.oeOut (s : State) : Bool := s.regs.oeGate && decide (s.pwmCnt < s.bright)

/-- The bits `SHIFT(v)` puts on `sdata`, in order of time, most significant first (44_scan.md R241). -/
def serialBits (v : Byte) : List Bool :=
  [v.getLsbD 7, v.getLsbD 6, v.getLsbD 5, v.getLsbD 4, v.getLsbD 3, v.getLsbD 2, v.getLsbD 1, v.getLsbD 0]

end Sys2Proof.Machine
end

