-- ==== Sys2Proof/Machine/Operands.lean ====
section
/-! DEFINITION. The addressing forms: derived geometry (00_scope.md R10), the panel translation and the
byte address and mask of a pixel (20_memory.md R61 to R65), resource addresses (R70), the graphics modes
(40_pixelbuffer.md R122) and the canonical marquee offset (43_marquee.md R203). -/

namespace Sys2Proof.Machine

/-- A pixel coordinate, of any size and sign (R120). -/
abbrev Point := Int × Int

/-! ### Derived geometry (R10) -/

/-- `DW = 32 * W`. -/
def Geometry.dw (g : Geometry) : Nat := 32 * g.w.toNat
/-- `DH = 16 * H`. -/
def Geometry.dh (g : Geometry) : Nat := 16 * g.h.toNat
/-- `ROWLEN = 4 * T`. -/
def Geometry.rowLen (g : Geometry) : Nat := 4 * g.t.toNat
/-- `BUFSIZE = 64 * T`. -/
def Geometry.bufSize (g : Geometry) : Nat := 64 * g.t.toNat

/-- The pixel lies in the virtual display (R121). -/
abbrev Geometry.inDisplay (g : Geometry) (x y : Int) : Prop :=
  0 ≤ x ∧ 0 ≤ y ∧ x < (g.dw : Int) ∧ y < (g.dh : Int)

/-! ### Pixel addressing (R62 to R65) -/

/-- The panel of a pixel: left to right, then top to bottom (R62). -/
def Geometry.panelOf (g : Geometry) (x y : Nat) : Nat := x / 32 + g.w.toNat * (y / 16)

/-- The byte address of a pixel of the display (R63). -/
def Geometry.pixelByte (g : Geometry) (x y : Int) : Nat :=
  y.toNat % 16 * g.rowLen + (4 * g.panelOf x.toNat y.toNat + x.toNat % 32 / 8)

/-- The 8-entry table from the column within a byte to its bit mask (R64). -/
def maskOf (column : Nat) : Byte :=
  match column with
  | 0 => 0x80
  | 1 => 0x40
  | 2 => 0x20
  | 3 => 0x10
  | 4 => 0x08
  | 5 => 0x04
  | 6 => 0x02
  | _ => 0x01

/-- The bit mask of a pixel of the display (R63). -/
def pixelMask (x : Int) : Byte := maskOf (x.toNat % 8)

/-- The pixel stored at bit `b` (7 = most significant) of byte `a` (R65). -/
def Geometry.pixelAt (g : Geometry) (a b : Nat) : Nat × Nat :=
  let cb := a % g.rowLen
  let panel := cb / 4
  (32 * (panel % g.w.toNat) + (8 * (cb % 4) + (7 - b)), 16 * (panel / g.w.toNat) + a / g.rowLen)

/-! ### Bits of a byte -/

/-- The bit a mask selects (R63). -/
def bitOf (v mask : Byte) : Bool := (v &&& mask) != 0

/-- The byte with the masked bit set to `n` and the seven others kept (R120). -/
def withBit (v mask : Byte) (n : Bool) : Byte := (v &&& ~~~mask) ||| (if n then mask else 0)

/-- `Combine(mode, e, v)`: the new bit from the existing bit `e` and the requested bit `v` (R122). -/
def combine : Mode → Bool → Bool → Bool
  | .normal, _, v => v
  | .inverse, _, v => !v
  | .toggle, e, _ => !e
  | .or, e, v => e || v
  | .nor, e, v => !(e || v)

/-! ### Other forms -/

/-- A resource address, modulo 2^32 (R70). -/
def resourceAddr (a : Nat) : Nat := a % 2 ^ 32

/-- `Canon(v, m)`: `v mod m` for `m > 0`, and 0 otherwise (R203). -/
def canon (v m : Int) : Int := if 0 < m then v % m else 0

/-- The integers from `lo` to `hi` in order, none when `lo > hi` (R15). -/
def intRange (lo hi : Int) : List Int := (List.range (hi + 1 - lo).toNat).map fun n => lo + (n : Int)

end Sys2Proof.Machine
end

