-- ==== Sys2Proof/Machine/Ops.lean ====
section
/-! DEFINITION. The named operations every command is made of: memory, register writes, `WritePixel`
(40_pixelbuffer.md R120), the micro-steps of both engines (10_state.md R51, 20_memory.md R80), refusal and
the FAULT condition, which take the place of exceptions on this hardware (60_exceptions.md R260 to R264),
and reset (70_reset_and_hazards.md R280). -/

namespace Sys2Proof.Machine

/-! ### Memory -/

/-- The listed byte at an address, if there is one. -/
def memFind : Memory → Nat → Option Byte
  | [], _ => none
  | c :: m, a => if c.1 = a then some c.2 else memFind m a

/-- Lists a byte at an address, keeping the canonical form. -/
def memPut : Memory → Nat → Byte → Memory
  | [], a, v => [(a, v)]
  | c :: m, a, v =>
    if a < c.1 then (a, v) :: c :: m
    else if a = c.1 then (a, v) :: m
    else c :: memPut m a v

/-- Unlists the byte at an address, keeping the canonical form. -/
def memErase (m : Memory) (a : Nat) : Memory := m.filter fun c => c.1 != a

/-- The listed bytes below a bound. -/
def memBelow (m : Memory) (n : Nat) : Memory := m.filter fun c => decide (c.1 < n)

/-- What a buffer byte that nothing has stored to reads as: unspecified (R24, R125). -/
def unwrittenByte (epoch addr : Nat) : Byte := Config.freeByte epoch addr

/-- What resource memory reads as where the state lists no content: the host's, unknown (R52). -/
def unlistedRomByte (addr : Nat) : Byte := Config.romByte addr

/-- The content of the buffer byte at an address (R24). -/
def State.byteAt (s : State) (a : Nat) : Byte := (memFind s.buf.cells a).getD (unwrittenByte s.buf.epoch a)

/-- `RomRead(a)`: always a byte (R70). -/
def State.romRead (s : State) (a : Nat) : Byte :=
  (memFind s.env.rom (resourceAddr a)).getD (unlistedRomByte (resourceAddr a))

/-- `GetPixel(x, y)` for a pixel of the display (R127). -/
def State.getPixel (s : State) (x y : Int) : Bool := bitOf (s.byteAt (s.geom.pixelByte x y)) (pixelMask x)

/-- The buffer with one byte replaced. -/
def State.putByte (s : State) (a : Nat) (v : Byte) : State :=
  { s with buf := { s.buf with cells := memPut s.buf.cells a v } }

/-- One byte load from `Buf` (R66); an address that does not exist faults (R24, R69). -/
def State.load (s : State) (a : Nat) : Except Fault Byte :=
  if a < s.geom.bufSize then .ok (s.byteAt a) else .error (.bufferRange a)

/-- One byte store to `Buf` (R66); an address that does not exist faults (R24, R69). -/
def State.store (s : State) (a : Nat) (v : Byte) : Except Fault State :=
  if a < s.geom.bufSize then .ok (s.putByte a v) else .error (.bufferRange a)

/-- The buffer with one byte unspecified: it is listed no more, so it reads as the free value. -/
def State.dropByte (s : State) (a : Nat) : State :=
  { s with buf := { s.buf with cells := memErase s.buf.cells a } }

/-- `Buf[a] <- unspecified` (R125); an address that does not exist faults (R24, R69). -/
def State.forget (s : State) (a : Nat) : Except Fault State :=
  if a < s.geom.bufSize then .ok (s.dropByte a) else .error (.bufferRange a)

/-- `Emit(e)` (R14). -/
def State.emit (s : State) (e : Event) : State := { s with trace := s.trace ++ [e] }

/-- The same stop, as the host's outcome. -/
def toOutcome : Except Fault State → Host.Outcome State Fault Refusal
  | .ok s => .next s
  | .error e => .fault e

/-! ### Register writes -/

/-- `T <- v` (R125). `BUFSIZE` becomes `64 * v`: a byte at or above it is no state (R24). The bytes CHANGEDMD
goes on to make unspecified read as free values of a new epoch from here on (notes/assumptions/1.md). -/
def State.withTotal (s : State) (v : Byte) : State :=
  { s with
    geom := { s.geom with t := v }
    buf := { epoch := s.buf.epoch + 1, cells := memBelow s.buf.cells (64 * v.toNat) } }

/-- `MOX <- Canon(x, MW)` (R203). -/
def MarqueeRegs.withOx (m : MarqueeRegs) (x : Int) : MarqueeRegs :=
  { m with ox := BitVec.ofInt 32 (canon x m.mw.toInt) }

/-- `MOY <- Canon(y, MH)` (R203). -/
def MarqueeRegs.withOy (m : MarqueeRegs) (y : Int) : MarqueeRegs :=
  { m with oy := BitVec.ofInt 32 (canon y m.mh.toInt) }

/-- Performs one register write of the draw engine. -/
def applyReg (w : RegWrite) (s : State) : State :=
  match w with
  | .width v => { s with geom := { s.geom with w := v } }
  | .height v => { s with geom := { s.geom with h := v } }
  | .total v => s.withTotal v
  | .phaseZero => { s with regs := { s.regs with phase := 0 } }
  | .cursorZero => { s with regs := { s.regs with cursor := 0 } }
  | .bright v => { s with bright := v }
  | .font a => { s with font := { s.font with addr := a } }
  | .fontSel => { s with font := { s.font with sel := true } }
  | .mtext i c => { s with marq := { s.marq with text := s.marq.text.setIfInBounds i c } }
  | .mlen n => { s with marq := { s.marq with len := n } }
  | .mwidth v => { s with marq := { s.marq with mw := BitVec.ofNat 32 v } }
  | .mheight v => { s with marq := { s.marq with mh := BitVec.ofNat 32 v } }
  | .mact => { s with marq := { s.marq with act := true } }
  | .offsetX x => { s with marq := s.marq.withOx x }
  | .offsetY y => { s with marq := s.marq.withOy y }
  | .res v => { s with res := BitVec.ofInt 32 v }
  | .flag f => s.refuse f

/-! ### The draw engine -/

/-- `WritePixel(x, y, mode, v)` (R120, R121): nothing at all off the display, else one load and one
store of the same byte. -/
def State.writePixel (s : State) (x y : Int) (mode : Mode) (v : Bool) : Except Fault State :=
  if s.geom.inDisplay x y then
    let a := s.geom.pixelByte x y
    let mask := pixelMask x
    match s.load a with
    | .ok old => s.store a (withBit old mask (combine mode (bitOf old mask) v))
    | .error e => .error e
  else .ok s

/-- Performs one operation of the draw engine to its end. -/
def runMicro (m : Micro) (s : State) : Except Fault State :=
  match m with
  | .pixel x y mode v => s.writePixel x y mode v
  | .merge a mask mode v old => s.store a (withBit old mask (combine mode (bitOf old mask) v))
  | .copyLeft x y =>
    match s.load (s.geom.pixelByte (x + 1) y) with
    | .ok b => s.writePixel x y .normal (bitOf b (pixelMask (x + 1)))
    | .error e => .error e
  | .store a v => s.store a v
  | .forget a => s.forget a
  | .reg w => .ok (applyReg w s)

/-- Performs a list of operations in order (R15). -/
def runMicros : List Micro → State → Except Fault State
  | [], s => .ok s
  | m :: ms, s =>
    match runMicro m s with
    | .ok s' => runMicros ms s'
    | .error e => .error e

/-- Performs ONE micro-step of an operation: one load, one store or one register write (R80). What is
left of the operation afterwards, if anything, and the state. A pixel off the display has no access, so
its micro-step only drops it (R121). -/
def stepMicro (m : Micro) (s : State) : Except Fault (Option Micro × State) :=
  match m with
  | .pixel x y mode v =>
    if s.geom.inDisplay x y then
      match s.load (s.geom.pixelByte x y) with
      | .ok old => .ok (some (.merge (s.geom.pixelByte x y) (pixelMask x) mode v old), s)
      | .error e => .error e
    else .ok (none, s)
  | .merge a mask mode v old =>
    match s.store a (withBit old mask (combine mode (bitOf old mask) v)) with
    | .ok s' => .ok (none, s')
    | .error e => .error e
  | .copyLeft x y =>
    match s.load (s.geom.pixelByte (x + 1) y) with
    | .ok b => .ok (some (.pixel x y .normal (bitOf b (pixelMask (x + 1)))), s)
    | .error e => .error e
  | .store a v =>
    match s.store a v with
    | .ok s' => .ok (none, s')
    | .error e => .error e
  | .forget a =>
    match s.forget a with
    | .ok s' => .ok (none, s')
    | .error e => .error e
  | .reg w => .ok (none, applyReg w s)

/-- The draw engine's progress after a micro-step that leaves this much: with nothing left the command has
ended (R50). -/
def progressOf (cmd : Option Instr) (rest : List Micro) : Option DrawProgress :=
  if rest.isEmpty then none else some { cmd := cmd, rest := rest }

/-- One micro-step of the draw engine; nothing when it is idle (R80). A command that had no micro-step to
perform, refused in the FAULT condition or without effect, ends here: `DBUSY` was 1 meanwhile (R264). -/
def drawAdvance (s : State) : Except Fault State :=
  match s.draw with
  | none => .ok s
  | some ⟨cmd, ms⟩ =>
    match ms with
    | [] => .ok { s with draw := none }
    | m :: rest =>
      match stepMicro m s with
      | .error e => .error e
      | .ok (some m', s') => .ok { s' with draw := some { cmd := cmd, rest := m' :: rest } }
      | .ok (none, s') => .ok { s' with draw := progressOf cmd rest }

/-- The order of checks of a command that has been decoded (60_exceptions.md R266): in the FAULT
condition it ends with no state change (R264), else its operations are performed. -/
def State.runCommand (s : State) (program : List Micro) : Host.Outcome State Fault Refusal :=
  if s.sticky.fault then .next s else toOutcome (runMicros program s)

/-- The operations of a command that needs a selected font: without one it is refused with `NOFONT`,
and nothing else happens (42_glyph.md R183). -/
def needFont (s : State) (program : List Micro) : List Micro :=
  if s.font.sel then program else [.reg (.flag .noFont)]

/-- `WritePixel(p, mode, 1)` for each point in order (41_shapes.md R140, 42_glyph.md R179). -/
def plotAll (mode : Mode) (ps : List Point) : List Micro := ps.map fun p => .pixel p.1 p.2 mode true

/-- `Buf[a] <- v` for every address of the buffer, ascending (R124, R205). -/
def fillAll (g : Geometry) (v : Byte) : List Micro := (List.range g.bufSize).map fun a => .store a v

/-! ### The scan engine -/

/-- Performs one register write of the scan engine; its other operations leave its registers (R230). `CURSOR`
holds a byte address, 16 bits (R27). -/
def applyScanReg (m : ScanMicro) (r : ScanRegs) : ScanRegs :=
  match m with
  | .oeGate l => { r with oeGate := l }
  | .selA l => { r with selA := l }
  | .selB l => { r with selB := l }
  | .phase p => { r with phase := p }
  | .cursor c => { r with cursor := BitVec.ofNat 16 c }
  | .skip | .emit _ | .shift _ => r

/-- Performs one operation of the scan engine (R234). -/
def runScanMicro (m : ScanMicro) (s : State) : Except Fault State :=
  match m with
  | .emit e => .ok (s.emit e)
  | .shift a =>
    match s.load a with
    | .ok v => .ok (s.emit (.shift v))
    | .error e => .error e
  | .skip | .oeGate _ | .selA _ | .selB _ | .phase _ | .cursor _ => .ok { s with regs := applyScanReg m s.regs }

/-- One micro-step of the scan engine; nothing when it is idle. With its last one the scan ends and the
command port is free again (R80, R82). -/
def scanAdvance (s : State) : Except Fault State :=
  match s.scan with
  | [] => .ok { s with scanOnPort := false }
  | m :: rest =>
    match runScanMicro m s with
    | .ok s' => .ok { s' with scan := rest, scanOnPort := s'.scanOnPort && !rest.isEmpty }
    | .error e => .error e

/-- Performs a list of operations of the scan engine in order. -/
def runScanMicros : List ScanMicro → State → Except Fault State
  | [], s => .ok s
  | m :: ms, s =>
    match runScanMicro m s with
    | .ok s' => runScanMicros ms s'
    | .error e => .error e

/-- Runs the scan in progress to its end; nothing when the scan engine is idle. -/
def State.finishScan (s : State) : Except Fault State :=
  match runScanMicros s.scan s with
  | .ok s' => .ok { s' with scan := [], scanOnPort := false }
  | .error e => .error e

/-! ### Reset -/

/-- Reset is asserted: every element takes its reset value, whatever was in progress is abandoned, the
buffer is unspecified afresh; the surroundings stay (R280, R281). -/
def State.assertReset (s : State) : State :=
  State.resetWith { s.env with resetHeld := true } (s.buf.epoch + 1)

end Sys2Proof.Machine
end

