-- ==== Sys2Proof/Machine/Glyph.lean ====
section
/-! DEFINITION. The GlyphRenderer commands (42_glyph.md): SELECTFONT, CHARWIDTH, DRAWCHAR, DRAWSTRING. A
font is read through `F`, the byte at an offset from its address (R170). -/

namespace Sys2Proof.Machine

/-- `F(k) = RomRead(FONT + k)`, as a number (R170). -/
def State.fontByte (s : State) (k : Nat) : Nat := (s.romRead (s.font.addr.toNat + k)).toNat

/-- The total length is 0: a fixed-width font (R172). -/
def fontFixed (F : Nat → Nat) : Bool := decide (F 0 = 0 ∧ F 1 = 0)

/-- `CharWidth(c)` (R173): 0 out of the font's range, which is not reduced modulo 256. -/
def charWidth (F : Nat → Nat) (c : Nat) : Nat :=
  if c < F 4 ∨ F 4 + F 5 ≤ c then 0
  else if fontFixed F then F 2
  else F (6 + (c - F 4))

/-- `Advance(c)` with `gap = CHAR_GAP` (R175). -/
def advance (gap : Nat) (F : Nat → Nat) (c : Nat) : Nat :=
  if charWidth F c = 0 then 0 else charWidth F c + gap

/-- The pages of a glyph, `(h + 7) div 8` (R174). -/
def glyphPages (F : Nat → Nat) : Nat := (F 3 + 7) / 8

/-- The offset of the data of the glyph with index `g` (R174). -/
def glyphBase (F : Nat → Nat) (g : Nat) : Nat :=
  if fontFixed F then 6 + g * glyphPages F * F 2
  else 6 + F 5 + glyphPages F * ((List.range g).map fun j => F (6 + j)).sum

/-- `GlyphBit(base, w, h, col, row)`: with more than one page the last is aligned to the bottom of the
glyph (R176). -/
def glyphBit (F : Nat → Nat) (base w col row : Nat) : Bool :=
  let page := row / 8
  let k := if 1 < glyphPages F ∧ page = glyphPages F - 1 then row - (F 3 - 8) else row % 8
  (F (base + col + page * w)).testBit k

/-- The points `DrawChar` writes, column by column: the set bits of the glyph (R179). -/
def charPoints (F : Nat → Nat) (x y : Int) (c : Nat) : List Point :=
  let w := charWidth F c
  let base := glyphBase F (c - F 4)
  (List.range w).flatMap fun col =>
    (List.range (F 3)).filterMap fun row =>
      if glyphBit F base w col row then some (x + (col : Int), y + (row : Int)) else none

/-- The points `DrawString` writes with the pen at `pen`: each character at the pen, which then moves by
its advance (R181). -/
def stringPoints (gap : Nat) (F : Nat → Nat) (y : Int) : Int → List Nat → List Point
  | _, [] => []
  | pen, c :: cs => charPoints F pen y c ++ stringPoints gap F y (pen + (advance gap F c : Int)) cs

/-- The `n` characters of resource memory at `addr` (R182, R201). -/
def State.textAt (s : State) (addr : Word) (n : Nat) : List Byte :=
  (List.range n).map fun i => s.romRead (addr.toNat + i)

/-- `CHAR_GAP` (R9). -/
def State.charGap (s : State) : Nat := s.env.cfg.charGap.val

/-- SELECTFONT stores the reference and reads no byte of the table (R177). -/
def selectFontProgram (addr : Word) (_s : State) : List Micro := [.reg (.font addr), .reg .fontSel]

/-- SELECTFONT (R177). -/
def execSelectFont (addr : Word) (s : State) : Host.Outcome State Fault Refusal :=
  s.runCommand (selectFontProgram addr s)

/-- CHARWIDTH puts the width, without `CHAR_GAP`, in `RES` (R178). -/
def charWidthProgram (letter : Byte) (s : State) : List Micro :=
  needFont s [.reg (.res (charWidth s.fontByte letter.toNat : Int))]

/-- CHARWIDTH (R178). -/
def execCharWidth (letter : Byte) (s : State) : Host.Outcome State Fault Refusal :=
  s.runCommand (charWidthProgram letter s)

/-- DRAWCHAR blits the glyph, then puts the advance in `RES` (R179, R180). -/
def drawCharProgram (x y : Int) (letter : Byte) (mode : Mode) (s : State) : List Micro :=
  needFont s (plotAll mode (charPoints s.fontByte x y letter.toNat) ++
    [.reg (.res (advance s.charGap s.fontByte letter.toNat : Int))])

/-- DRAWCHAR (R180). -/
def execDrawChar (x y : Int) (letter : Byte) (mode : Mode) (s : State) : Host.Outcome State Fault Refusal :=
  s.runCommand (drawCharProgram x y letter mode s)

/-- DRAWSTRING blits `length` characters of resource memory (R181, R182). -/
def drawStringProgram (x y : Int) (addr : Word) (length : BitVec 16) (mode : Mode) (s : State) : List Micro :=
  needFont s (plotAll mode
    (stringPoints s.charGap s.fontByte y x ((s.textAt addr length.toNat).map BitVec.toNat)))

/-- DRAWSTRING (R182). -/
def execDrawString (x y : Int) (addr : Word) (length : BitVec 16) (mode : Mode) (s : State) :
    Host.Outcome State Fault Refusal :=
  s.runCommand (drawStringProgram x y addr length mode s)

end Sys2Proof.Machine
end

