-- ==== Sys2Proof/Machine/Marquee.lean ====
section
/-! DEFINITION. The MarqueeEngine commands (43_marquee.md): DRAWMARQUEE, STEPMARQUEE, STEPSPLITMARQUEE3. -/

namespace Sys2Proof.Machine

/-- `MARQUEE_CAP` (R210). -/
def marqueeCap : Nat := 255

/-- The total pixel width of a text: the sum of its advances (R202). -/
def textWidth (gap : Nat) (F : Nat → Nat) (text : List Nat) : Nat := (text.map (advance gap F)).sum

/-- A rectangle of the display, both corners included (R204). -/
structure Window where
  x0 : Int
  y0 : Int
  x1 : Int
  y1 : Int
deriving DecidableEq, Repr

/-- The point lies in the window (R204). -/
def Window.has (w : Window) (p : Point) : Bool := decide (w.x0 ≤ p.1 ∧ p.1 ≤ w.x1 ∧ w.y0 ≤ p.2 ∧ p.2 ≤ w.y1)

/-- The whole display (R204). -/
def Geometry.window (g : Geometry) : Window := { x0 := 0, y0 := 0, x1 := (g.dw : Int) - 1, y1 := (g.dh : Int) - 1 }

/-- The text, extent and offset of a marquee. -/
structure MarqueeView where
  text : List Nat
  mw : Int
  mh : Int
  ox : Int
  oy : Int
deriving DecidableEq, Repr

/-- There is something to draw: text, and an extent in both directions (R204, R205, R208). -/
def MarqueeView.visible (v : MarqueeView) : Bool := decide (v.text ≠ [] ∧ 0 < v.mw ∧ 0 < v.mh)

/-- The points `RenderMarquee` writes: every copy that can reach the display, each a `DrawString`, and of
those the points inside the window (R204). -/
def renderPoints (gap : Nat) (F : Nat → Nat) (g : Geometry) (v : MarqueeView) (win : Window) : List Point :=
  if v.visible then
    let kx0 : Int := if 0 < v.ox then -1 else 0
    let kx1 := ((g.dw : Int) - 1 - v.ox) / v.mw
    let ky0 : Int := if 0 < v.oy then -1 else 0
    let ky1 := ((g.dh : Int) - 1 - v.oy) / v.mh
    (intRange ky0 ky1).flatMap fun ky =>
      (intRange kx0 kx1).flatMap fun kx =>
        (stringPoints gap F (v.oy + ky * v.mh) (v.ox + kx * v.mw) v.text).filter win.has
  else []

/-- The marquee the registers hold: the first `MLEN` characters of `MTEXT` (R31). -/
def MarqueeRegs.view (m : MarqueeRegs) : MarqueeView where
  text := (m.text.toList.take m.len.toNat).map BitVec.toNat
  mw := m.mw.toInt
  mh := m.mh.toInt
  ox := m.ox.toInt
  oy := m.oy.toInt

/-- `RenderMarquee` of the marquee `v` with the font selected now, in NORMAL mode (R204). -/
def State.render (s : State) (v : MarqueeView) (win : Window) : List Micro :=
  plotAll .normal (renderPoints s.charGap s.fontByte s.geom v win)

/-- The number of characters DRAWMARQUEE keeps (R210). -/
def marqueeLen (length : BitVec 16) : Nat := min length.toNat marqueeCap

/-- The marquee DRAWMARQUEE sets up (R201). -/
def State.newMarquee (s : State) (addr : Word) (length : BitVec 16) (left top : Int) : MarqueeView :=
  let text := (s.textAt addr (marqueeLen length)).map BitVec.toNat
  let mw := textWidth s.charGap s.fontByte text
  let mh := s.fontByte 3
  { text := text, mw := mw, mh := mh, ox := canon left mw, oy := canon top mh }

/-- DRAWMARQUEE: the capped copy, the extent, the offset, then one rendering; nothing is erased (R201). -/
def drawMarqueeProgram (addr : Word) (length : BitVec 16) (left top : Int) (s : State) : List Micro :=
  let n := marqueeLen length
  let text := s.textAt addr n
  needFont s
    ((if marqueeCap < length.toNat then [.reg (.flag .mTrunc)] else []) ++
      ((List.range n).map (fun i => .reg (.mtext i (text.getD i 0))) ++
        ([.reg (.mlen (BitVec.ofNat 8 n)), .reg (.mwidth (textWidth s.charGap s.fontByte (text.map BitVec.toNat))),
            .reg (.mheight (s.fontByte 3)), .reg (.offsetX left), .reg (.offsetY top), .reg .mact] ++
          s.render (s.newMarquee addr length left top) s.geom.window)))

/-- DRAWMARQUEE (R201). -/
def execDrawMarquee (addr : Word) (length : BitVec 16) (left top : Int) (s : State) :
    Host.Outcome State Fault Refusal :=
  s.runCommand (drawMarqueeProgram addr length left top s)

/-- The marquee moved by `(dx, dy)`, offsets reduced (R205). -/
def MarqueeView.moved (v : MarqueeView) (dx dy : Int) : MarqueeView :=
  { v with ox := canon (v.ox + dx) v.mw, oy := canon (v.oy + dy) v.mh }

/-- Whether a step redraws: there is something to draw and an offset changes (R205). -/
def MarqueeView.stepChanges (v : MarqueeView) (dx dy : Int) : Bool :=
  v.visible && decide ((v.moved dx dy).ox ≠ v.ox ∨ (v.moved dx dy).oy ≠ v.oy)

/-- STEPMARQUEE: in Idle only `RES <- 0`; else the offset moves, and if that changes it the whole buffer
is erased and the marquee rendered (R205). -/
def stepMarqueeProgram (dx dy : Int) (s : State) : List Micro :=
  if s.marq.act then
    let v := s.marq.view
    .reg (.offsetX (v.ox + dx)) :: .reg (.offsetY (v.oy + dy)) ::
      (if v.stepChanges dx dy then
        fillAll s.geom 0 ++ (s.render (v.moved dx dy) s.geom.window ++ [.reg (.res 1)])
      else [.reg (.res 0)])
  else [.reg (.res 0)]

/-- STEPMARQUEE (R205). -/
def execStepMarquee (dx dy : Int) (s : State) : Host.Outcome State Fault Refusal :=
  s.runCommand (stepMarqueeProgram dx dy s)

/-- The marquee one column further left; the vertical offset is not touched (R208). -/
def MarqueeView.oneLeft (v : MarqueeView) : MarqueeView := { v with ox := canon (v.ox - 1) v.mw }

/-- One row of the shift of R208: the columns `s` to `DW - 2` take the pixel to their right, and the last
column is blanked. -/
def shiftRow (g : Geometry) (startCol y : Int) : List Micro :=
  (intRange startCol ((g.dw : Int) - 2)).map (fun x => .copyLeft x y) ++
    [.pixel ((g.dw : Int) - 1) y .normal false]

/-- The band of R208 after clipping: the first row, the last row, the first column. -/
def splitBand (g : Geometry) (topRow bottomRow startColumn : Int) : Int × Int × Int :=
  (max topRow 0, min bottomRow ((g.dh : Int) - 1), max startColumn 0)

/-- STEPSPLITMARQUEE3: no effect at all with nothing to draw or an empty band; else the offset moves one
column left, the band is shifted and its last column drawn (R208). -/
def stepSplitMarquee3Program (topRow bottomRow startColumn : Int) (s : State) : List Micro :=
  let v := s.marq.view
  let (t, b, c) := splitBand s.geom topRow bottomRow startColumn
  let last := (s.geom.dw : Int) - 1
  if s.marq.act ∧ v.visible ∧ t ≤ b ∧ c ≤ last then
    .reg (.offsetX (v.ox - 1)) ::
      ((intRange t b).flatMap (shiftRow s.geom c) ++
        s.render v.oneLeft { x0 := last, y0 := t, x1 := last, y1 := b })
  else []

/-- STEPSPLITMARQUEE3 (R208). -/
def execStepSplitMarquee3 (topRow bottomRow startColumn : Int) (s : State) :
    Host.Outcome State Fault Refusal :=
  s.runCommand (stepSplitMarquee3Program topRow bottomRow startColumn s)

end Sys2Proof.Machine
end

