-- ==== Sys2Proof/Machine/PixelBuffer.lean ====
section
/-! DEFINITION. The PixelBuffer commands (40_pixelbuffer.md): WRITEPIXEL, CLEARSCREEN, CHANGEDMD. For
each command its program, the operations the draw engine performs in order, and its meaning. -/

namespace Sys2Proof.Machine

/-- WRITEPIXEL performs one `WritePixel` (R123). -/
def writePixelProgram (x y : Int) (mode : Mode) (value : Bool) (_s : State) : List Micro :=
  [.pixel x y mode value]

/-- WRITEPIXEL (R123). -/
def execWritePixel (x y : Int) (mode : Mode) (value : Bool) (s : State) : Host.Outcome State Fault Refusal :=
  s.runCommand (writePixelProgram x y mode value s)

/-- The byte CLEARSCREEN stores: 0x00 for normal, 0xFF otherwise (R124). -/
def clearByte (normal : Bool) : Byte := if normal then 0x00 else 0xFF

/-- CLEARSCREEN stores every byte of the buffer in ascending order (R124). -/
def clearScreenProgram (normal : Bool) (s : State) : List Micro := fillAll s.geom (clearByte normal)

/-- CLEARSCREEN (R124). -/
def execClearScreen (normal : Bool) (s : State) : Host.Outcome State Fault Refusal :=
  s.runCommand (clearScreenProgram normal s)

/-- The grid a CHANGEDMD asks for fits the RAM and is not empty (R125, R126). -/
abbrev reconfigFits (cfg : Config) (w h : Byte) : Prop :=
  w.toNat ≠ 0 ∧ h.toNat ≠ 0 ∧ w.toNat * h.toNat ≤ cfg.tMax.toNat

/-- CHANGEDMD: for a grid that fits the new geometry, the scan position reset and every byte of the new
buffer made unspecified (R125); else `STATUS.FAULT` and nothing else (R126). -/
def changeDmdProgram (w h : Byte) (s : State) : List Micro :=
  if reconfigFits s.env.cfg w h then
    [.reg (.width w), .reg (.height h), .reg (.total (BitVec.ofNat 8 (w.toNat * h.toNat))), .reg .phaseZero,
      .reg .cursorZero] ++ (List.range (64 * (w.toNat * h.toNat))).map .forget
  else [.reg (.flag .fault)]

/-- CHANGEDMD (R125); executed while a scan is in progress it is undefined (20_memory.md R85, U1). In
the FAULT condition it is refused before that (60_exceptions.md R266). -/
def execChangeDmd (w h : Byte) (s : State) : Host.Outcome State Fault Refusal :=
  if s.sticky.fault = false ∧ s.scan ≠ [] then .fault .reconfigDuringScan
  else s.runCommand (changeDmdProgram w h s)

end Sys2Proof.Machine
end

