-- ==== Sys2Proof/Machine/Scan.lean ====
section
/-! DEFINITION. The ScanEngine commands (44_scan.md): SCAN and SETBRIGHTNESS, and the operations of one
scan (R234). -/

namespace Sys2Proof.Machine

/-- The four loads of column byte `i` in phase `p`, the lowest row of the group first (R236). -/
def scanColumn (rowLen p i : Nat) : List ScanMicro :=
  [.cursor (p * rowLen + i), .shift ((p + 12) * rowLen + i), .shift ((p + 8) * rowLen + i),
    .shift ((p + 4) * rowLen + i), .shift (p * rowLen + i)]

/-- The procedure `Scan()` after its sample of `bus_busy` found the bus free: disable the output, select
the row group, clock out the bytes, latch, enable the output, advance (R234, R235, R236). -/
def scanProgram (g : Geometry) (phase : BitVec 2) : List ScanMicro :=
  [.emit (.oe false), .oeGate false, .emit (.sel (phase.getLsbD 0) (phase.getLsbD 1)), .selA (phase.getLsbD 0),
    .selB (phase.getLsbD 1)] ++
    ((List.range g.rowLen).flatMap (scanColumn g.rowLen phase.toNat) ++
      [.emit .latch, .emit (.oe true), .oeGate true, .phase (phase + 1), .cursor ((phase + 1).toNat * g.rowLen)])

/-- The operations of a scan that starts now. In the FAULT condition (R245) and when `bus_busy` is 1 (R233,
R234) it does nothing, in one micro-step during which `SBUSY` is 1 (R232, R264; how long that lasts is the
model's choice: notes/assumptions/23.md). -/
def State.scanOps (s : State) : List ScanMicro :=
  if s.sticky.fault || s.env.busBusy then [.skip] else scanProgram s.geom s.regs.phase

/-- SCAN (R232): refused in the FAULT condition (R245). A scan still in progress ends first, since the
scan engine executes one at a time (R50; notes/assumptions/6.md). Then `bus_busy` is sampled, once, and the scan runs
to its end or is skipped (R234). -/
def execScan (s : State) : Host.Outcome State Fault Refusal :=
  if s.sticky.fault then .next s
  else match s.finishScan with
    | .ok s' => toOutcome (runScanMicros s'.scanOps s')
    | .error e => .fault e

/-- SETBRIGHTNESS stores the duty cycle (R242). -/
def setBrightnessProgram (value : Byte) (_s : State) : List Micro := [.reg (.bright value)]

/-- SETBRIGHTNESS (R242). -/
def execSetBrightness (value : Byte) (s : State) : Host.Outcome State Fault Refusal :=
  s.runCommand (setBrightnessProgram value s)

end Sys2Proof.Machine
end

