-- ==== Sys2Proof/Machine/Shapes.lean ====
section
/-! DEFINITION. The ShapeRasterizer commands (41_shapes.md): DRAWLINE, DRAWCIRCLE, DRAWBOX, DRAWFILLEDBOX,
DRAWTESTPATTERN. Each shape is the ordered list of points it passes to `WritePixel` with requested bit 1
(R140), computed in exact integers (R151). -/

namespace Sys2Proof.Machine

/-! ### Lines (R142) -/

/-- The loop of R142 with x as the major axis, for the `n` iterations that remain. -/
def lineAlongX (dx dy sy : Int) : Nat → Int → Int → Int → List Point
  | 0, _, _, _ => []
  | n + 1, x, y, f =>
    let y' := if 0 ≤ f then y + sy else y
    let f' := (if 0 ≤ f then f - 2 * dx else f) + 2 * dy
    (x + 1, y') :: lineAlongX dx dy sy n (x + 1) y' f'

/-- The loop of R142 with y as the major axis, for the `n` iterations that remain. -/
def lineAlongY (dx dy sy : Int) : Nat → Int → Int → Int → List Point
  | 0, _, _, _ => []
  | n + 1, x, y, f =>
    let x' := if 0 ≤ f then x + 1 else x
    let f' := (if 0 ≤ f then f - 2 * dy else f) + 2 * dx
    (x', y + sy) :: lineAlongY dx dy sy n x' (y + sy) f'

/-- The points of a line whose end points stand in canonical order (R142). The x loop runs from `x1` to
`x2` and so `dx` times, the y loop `|dy|` times. -/
def lineOrdered (x1 y1 x2 y2 : Int) : List Point :=
  let dx := x2 - x1
  let dy := |y2 - y1|
  let sy := if y2 - y1 < 0 then -1 else 1
  if dy < dx then (x1, y1) :: lineAlongX dx dy sy dx.toNat x1 y1 (2 * dy - dx)
  else (x1, y1) :: lineAlongY dx dy sy dy.toNat x1 y1 (2 * dx - dy)

/-- `DrawLine`: smaller x first, on equal x smaller y first (R142). -/
def linePoints (x1 y1 x2 y2 : Int) : List Point :=
  if x2 < x1 ∨ (x1 = x2 ∧ y2 < y1) then lineOrdered x2 y2 x1 y1 else lineOrdered x1 y1 x2 y2

/-- DRAWLINE (R141). -/
def drawLineProgram (x1 y1 x2 y2 : Int) (mode : Mode) (_s : State) : List Micro :=
  plotAll mode (linePoints x1 y1 x2 y2)

/-- DRAWLINE (R141). -/
def execDrawLine (x1 y1 x2 y2 : Int) (mode : Mode) (s : State) : Host.Outcome State Fault Refusal :=
  s.runCommand (drawLineProgram x1 y1 x2 y2 mode s)

/-! ### Circles (R145) -/

/-- `Plot8`: each distinct image of `(x, y)` once (R145). -/
def plot8 (cx cy x y : Int) : List Point :=
  if y < x then []
  else if y = 0 then [(cx, cy)]
  else if x = 0 then [(cx, cy + y), (cx - y, cy), (cx, cy - y), (cx + y, cy)]
  else if x = y then [(cx + x, cy + y), (cx - x, cy + y), (cx + x, cy - y), (cx - x, cy - y)]
  else [(cx + x, cy + y), (cx - x, cy + y), (cx + x, cy - y), (cx - x, cy - y),
        (cx + y, cy + x), (cx - y, cy + x), (cx + y, cy - x), (cx - y, cy - x)]

/-- The loop of R145. Its `x` rises by 1 a turn and its `y` never rises, so `r` turns are enough. -/
def circleLoop (cx cy : Int) : Nat → Int → Int → Int → List Point
  | 0, _, _, _ => []
  | n + 1, x, y, p =>
    if x < y then
      let x' := x + 1
      let y' := if p < 0 then y else y - 1
      let p' := if p < 0 then p + 2 * x' + 1 else p + 2 * (x' - y') + 1
      plot8 cx cy x' y' ++ circleLoop cx cy n x' y' p'
    else []

/-- `DrawCircle` (R145): nothing for a negative radius. -/
def circlePoints (cx cy r : Int) : List Point :=
  if r < 0 then [] else plot8 cx cy 0 r ++ circleLoop cx cy r.toNat 0 r (1 - r)

/-- DRAWCIRCLE (R144). -/
def drawCircleProgram (cx cy r : Int) (mode : Mode) (_s : State) : List Micro :=
  plotAll mode (circlePoints cx cy r)

/-- DRAWCIRCLE (R144). -/
def execDrawCircle (cx cy r : Int) (mode : Mode) (s : State) : Host.Outcome State Fault Refusal :=
  s.runCommand (drawCircleProgram cx cy r mode s)

/-! ### Boxes (R148, R153) -/

/-- `DrawBox`: top, right, bottom and left edge, from the normalised corners (R148). -/
def boxPoints (x1 y1 x2 y2 : Int) : List Point :=
  let xa := min x1 x2
  let xb := max x1 x2
  let ya := min y1 y2
  let yb := max y1 y2
  linePoints xa ya xb ya ++ (linePoints xb ya xb yb ++ (linePoints xb yb xa yb ++ linePoints xa yb xa ya))

/-- What the box commands write besides the points of their procedure: with `again` the two end points of a box
that is a segment, which R148's edges write three times and which R152 (c), the corner case R147 and R149 give
for it, says are written four times. The spec does not rule which of the two holds: `again` is a parameter of
the model (DESIGN CHOICE: notes/assumptions/22.md). -/
def segmentEnds (again : Bool) (x1 y1 x2 y2 : Int) : List Point :=
  if again ∧ ((x1 = x2 ∧ y1 ≠ y2) ∨ (x1 ≠ x2 ∧ y1 = y2)) then
    [(min x1 x2, min y1 y2), (max x1 x2, max y1 y2)]
  else []

/-- The points DRAWBOX writes (R147). -/
def drawBoxPoints (again : Bool) (x1 y1 x2 y2 : Int) : List Point :=
  boxPoints x1 y1 x2 y2 ++ segmentEnds again x1 y1 x2 y2

/-- DRAWBOX (R147). -/
def drawBoxProgram (x1 y1 x2 y2 : Int) (mode : Mode) (s : State) : List Micro :=
  plotAll mode (drawBoxPoints s.env.cfg.segmentEndsAgain x1 y1 x2 y2)

/-- DRAWBOX (R147). -/
def execDrawBox (x1 y1 x2 y2 : Int) (mode : Mode) (s : State) : Host.Outcome State Fault Refusal :=
  s.runCommand (drawBoxProgram x1 y1 x2 y2 mode s)

/-- The interior of a filled box, column by column, cut to the display (R153). -/
def interiorPoints (g : Geometry) (x1 y1 x2 y2 : Int) : List Point :=
  (intRange (max (min x1 x2 + 1) 0) (min (max x1 x2 - 1) ((g.dw : Int) - 1))).flatMap fun x =>
    (intRange (max (min y1 y2 + 1) 0) (min (max y1 y2 - 1) ((g.dh : Int) - 1))).map fun y => (x, y)

/-- `DrawFilledBox`: the outline, then the interior (R153). -/
def filledBoxPoints (g : Geometry) (x1 y1 x2 y2 : Int) : List Point :=
  boxPoints x1 y1 x2 y2 ++ interiorPoints g x1 y1 x2 y2

/-- The points DRAWFILLEDBOX writes (R149). -/
def drawFilledBoxPoints (again : Bool) (g : Geometry) (x1 y1 x2 y2 : Int) : List Point :=
  filledBoxPoints g x1 y1 x2 y2 ++ segmentEnds again x1 y1 x2 y2

/-- DRAWFILLEDBOX (R149). -/
def drawFilledBoxProgram (x1 y1 x2 y2 : Int) (mode : Mode) (s : State) : List Micro :=
  plotAll mode (drawFilledBoxPoints s.env.cfg.segmentEndsAgain s.geom x1 y1 x2 y2)

/-- DRAWFILLEDBOX (R149). -/
def execDrawFilledBox (x1 y1 x2 y2 : Int) (mode : Mode) (s : State) : Host.Outcome State Fault Refusal :=
  s.runCommand (drawFilledBoxProgram x1 y1 x2 y2 mode s)

/-! ### Test patterns (R150) -/

/-- The bit of a test pattern at a pixel (R150). -/
def patternBit (pattern : BitVec 2) (x y : Nat) : Bool :=
  match pattern.toNat with
  | 0 => decide ((x + y) % 2 = 1)
  | 1 => decide ((x + y) % 2 = 0)
  | 2 => decide (x % 2 = 1)
  | _ => decide (x % 2 = 0)

/-- DRAWTESTPATTERN writes every pixel of the display once, row by row, in NORMAL mode (R150). -/
def drawTestPatternProgram (pattern : BitVec 2) (s : State) : List Micro :=
  (List.range s.geom.dh).flatMap fun (y : Nat) =>
    (List.range s.geom.dw).map fun (x : Nat) => .pixel (x : Int) (y : Int) .normal (patternBit pattern x y)

/-- DRAWTESTPATTERN (R150). -/
def execDrawTestPattern (pattern : BitVec 2) (s : State) : Host.Outcome State Fault Refusal :=
  s.runCommand (drawTestPatternProgram pattern s)

end Sys2Proof.Machine
end

