-- ==== Sys2Proof/Machine/Dispatch.lean ====
section
/-! DEFINITION. The meaning of each command, one arm per constructor of `Instr` (30_encoding.md R96). -/

namespace Sys2Proof.Machine

def exec (i : Instr) (s : State) : Host.Outcome State Fault Refusal :=
  match i with
  | .writePixel x y mode value => Sys2Proof.Machine.execWritePixel x y mode value s
  | .clearScreen normal => Sys2Proof.Machine.execClearScreen normal s
  | .changeDmd w h => Sys2Proof.Machine.execChangeDmd w h s
  | .drawLine xa ya xb yb mode => Sys2Proof.Machine.execDrawLine xa ya xb yb mode s
  | .drawCircle cx cy r mode => Sys2Proof.Machine.execDrawCircle cx cy r mode s
  | .drawBox xa ya xb yb mode => Sys2Proof.Machine.execDrawBox xa ya xb yb mode s
  | .drawFilledBox xa ya xb yb mode => Sys2Proof.Machine.execDrawFilledBox xa ya xb yb mode s
  | .drawTestPattern pattern => Sys2Proof.Machine.execDrawTestPattern pattern s
  | .selectFont addr => Sys2Proof.Machine.execSelectFont addr s
  | .charWidth letter => Sys2Proof.Machine.execCharWidth letter s
  | .drawChar x y letter mode => Sys2Proof.Machine.execDrawChar x y letter mode s
  | .drawString x y addr length mode => Sys2Proof.Machine.execDrawString x y addr length mode s
  | .drawMarquee addr length left top => Sys2Proof.Machine.execDrawMarquee addr length left top s
  | .stepMarquee dx dy => Sys2Proof.Machine.execStepMarquee dx dy s
  | .stepSplitMarquee3 topRow bottomRow startColumn => Sys2Proof.Machine.execStepSplitMarquee3 topRow bottomRow startColumn s
  | .scan => Sys2Proof.Machine.execScan s
  | .setBrightness value => Sys2Proof.Machine.execSetBrightness value s

end Sys2Proof.Machine
end

