-- ==== Sys2Proof/WellFormed.lean ====
section
/-! DEFINITION. Which terms of `Instr` are commands a packet can carry: every signed operand lies in
the range of its 16-bit field (00_scope.md R9 `XLEN`, 30_encoding.md R95). The other operands have the
exact width of their field, so their type is the whole check. -/

namespace Sys2Proof

/-- The range of a signed 16-bit operand (R12: `sext_16` gives -32768 to 32767). -/
def inS16 (v : Int) : Bool := decide (-32768 ≤ v ∧ v ≤ 32767)

/-- The operands of the command are values of their packet fields (R95). -/
def Instr.wellFormed : Instr → Bool
  | .writePixel x y _ _ => inS16 x && inS16 y
  | .clearScreen _ => true
  | .changeDmd _ _ => true
  | .drawLine x1 y1 x2 y2 _ => inS16 x1 && inS16 y1 && inS16 x2 && inS16 y2
  | .drawCircle cx cy r _ => inS16 cx && inS16 cy && inS16 r
  | .drawBox x1 y1 x2 y2 _ => inS16 x1 && inS16 y1 && inS16 x2 && inS16 y2
  | .drawFilledBox x1 y1 x2 y2 _ => inS16 x1 && inS16 y1 && inS16 x2 && inS16 y2
  | .drawTestPattern _ => true
  | .selectFont _ => true
  | .charWidth _ => true
  | .drawChar x y _ _ => inS16 x && inS16 y
  | .drawString x y _ _ _ => inS16 x && inS16 y
  | .drawMarquee _ _ left top => inS16 left && inS16 top
  | .stepMarquee dx dy => inS16 dx && inS16 dy
  | .stepSplitMarquee3 topRow bottomRow startColumn =>
      inS16 topRow && inS16 bottomRow && inS16 startColumn
  | .scan => true
  | .setBrightness _ => true

end Sys2Proof
end

