-- ==== Sys2Proof/Decode.lean ====
section
/-! DEFINITION. Command packets (30_encoding.md R90 to R105): the decoder, total on every sequence of
words, and the encoder written from the same field tables. -/

namespace Sys2Proof

/-! ### Fields of a word (R91, R93) -/

/-- `OP`, bits 31:24 of word 0 (R91). -/
def opBits (w : Word) : Byte := w.extractLsb' 24 8
/-- `RSV`, bits 23:19 of word 0 (R91). -/
def rsvBits (w : Word) : BitVec 5 := w.extractLsb' 19 5
/-- `MODE`, bits 18:16 of word 0 (R91). -/
def modeBits (w : Word) : BitVec 3 := w.extractLsb' 16 3
/-- `IMM`, bits 15:0 of word 0 (R91). -/
def immBits (w : Word) : BitVec 16 := w.extractLsb' 0 16
/-- The low half of an operand word in the pair form (R93). -/
def loHalf (w : Word) : BitVec 16 := w.extractLsb' 0 16
/-- The high half of an operand word in the pair form (R93). -/
def hiHalf (w : Word) : BitVec 16 := w.extractLsb' 16 16
/-- `sext_16`: a 16-bit field read as two's complement (R12). -/
def sext16 (v : BitVec 16) : Int := v.toInt
/-- The 16-bit field that holds a signed operand. -/
def field16 (v : Int) : BitVec 16 := BitVec.ofInt 16 v

/-! ### The opcode map (R96) -/

/-- The seventeen defined opcodes (R96). -/
inductive Opcode where
  | writePixel | clearScreen | changeDmd
  | drawLine | drawCircle | drawBox | drawFilledBox | drawTestPattern
  | selectFont | charWidth | drawChar | drawString
  | drawMarquee | stepMarquee | stepSplitMarquee3
  | scan | setBrightness
deriving DecidableEq, Repr

/-- The packet formats: one, two or three words (R90). -/
inductive Format where
  | n
  | p
  | q
deriving DecidableEq, Repr

/-- The number of words of a format (R90). -/
def Format.words : Format → Nat
  | .n => 1
  | .p => 2
  | .q => 3

/-- The `OP` value of each command (R96). -/
def Opcode.byte : Opcode → Byte
  | .writePixel => 0x01
  | .clearScreen => 0x02
  | .changeDmd => 0x03
  | .drawLine => 0x10
  | .drawCircle => 0x11
  | .drawBox => 0x12
  | .drawFilledBox => 0x13
  | .drawTestPattern => 0x14
  | .selectFont => 0x20
  | .charWidth => 0x21
  | .drawChar => 0x22
  | .drawString => 0x23
  | .drawMarquee => 0x30
  | .stepMarquee => 0x31
  | .stepSplitMarquee3 => 0x32
  | .scan => 0x40
  | .setBrightness => 0x41

/-- The format of each command (R96). -/
def Opcode.format : Opcode → Format
  | .writePixel => .p
  | .clearScreen => .n
  | .changeDmd => .n
  | .drawLine => .q
  | .drawCircle => .q
  | .drawBox => .q
  | .drawFilledBox => .q
  | .drawTestPattern => .n
  | .selectFont => .p
  | .charWidth => .n
  | .drawChar => .p
  | .drawString => .q
  | .drawMarquee => .q
  | .stepMarquee => .p
  | .stepSplitMarquee3 => .p
  | .scan => .n
  | .setBrightness => .n

/-- The command an `OP` byte selects; every other value is undefined (R96, R100). -/
def Opcode.ofByte (b : Byte) : Option Opcode :=
  match b.toNat with
  | 0x01 => some .writePixel
  | 0x02 => some .clearScreen
  | 0x03 => some .changeDmd
  | 0x10 => some .drawLine
  | 0x11 => some .drawCircle
  | 0x12 => some .drawBox
  | 0x13 => some .drawFilledBox
  | 0x14 => some .drawTestPattern
  | 0x20 => some .selectFont
  | 0x21 => some .charWidth
  | 0x22 => some .drawChar
  | 0x23 => some .drawString
  | 0x30 => some .drawMarquee
  | 0x31 => some .stepMarquee
  | 0x32 => some .stepSplitMarquee3
  | 0x40 => some .scan
  | 0x41 => some .setBrightness
  | _ => none

/-- The number of words of the packet that begins with `w0`: its format's, and one when `OP` is
undefined (R90, R99). -/
def packetWords (w0 : Word) : Nat :=
  match Opcode.ofByte (opBits w0) with
  | some op => op.format.words
  | none => 1

/-- The code of a mode (R105). -/
def Mode.code : Mode → BitVec 3
  | .normal => 0
  | .inverse => 1
  | .toggle => 2
  | .or => 3
  | .nor => 4

/-- The mode a `MODE` field selects; 5, 6 and 7 are reserved (R105). -/
def Mode.ofCode (c : BitVec 3) : Option Mode :=
  match c.toNat with
  | 0 => some .normal
  | 1 => some .inverse
  | 2 => some .toggle
  | 3 => some .or
  | 4 => some .nor
  | _ => none

/-! ### Illegal packets (R98) -/

/-- Why a packet is illegal: the cases (a) to (f) of R98. -/
inductive Illegal where
  /-- (a) `OP` is not one of the seventeen values. -/
  | undefinedOp (op : Byte)
  /-- (b) `RSV` is not 0. -/
  | reservedBits
  /-- (c) the command takes no mode and `MODE` is not 0. -/
  | modeNotZero
  /-- (d) the command takes a mode and `MODE` is 5, 6 or 7. -/
  | modeReserved
  /-- (e) a bit range of `IMM` that must be 0 is not 0. -/
  | immNotZero
  /-- (f) DRAWCIRCLE with word 2 bits 31:16 not 0. -/
  | highHalfNotZero
deriving DecidableEq, Repr

/-- The command takes a mode: R98 (d). -/
def withMode (w0 : Word) (k : Mode → Except Illegal Instr) : Except Illegal Instr :=
  match Mode.ofCode (modeBits w0) with
  | some m => k m
  | none => .error .modeReserved

/-- The command takes no mode: R98 (c). -/
def withoutMode (w0 : Word) (k : Except Illegal Instr) : Except Illegal Instr :=
  if modeBits w0 = 0 then k else .error .modeNotZero

/-- Only the low `n` bits of `IMM` may be set: R98 (e) with the ranges of R97. -/
def immWithin (w0 : Word) (n : Nat) (k : Except Illegal Instr) : Except Illegal Instr :=
  if (immBits w0).toNat < 2 ^ n then k else .error .immNotZero

/-- The operands of a packet whose opcode is `op` and whose `RSV` is 0 (R95, R97). -/
def decodeOperands (op : Opcode) (w0 w1 w2 : Word) : Except Illegal Instr :=
  let imm := immBits w0
  match op with
  | .writePixel => withMode w0 fun m => immWithin w0 1 <|
      .ok (.writePixel (sext16 (loHalf w1)) (sext16 (hiHalf w1)) m (imm.getLsbD 0))
  | .clearScreen => withoutMode w0 <| immWithin w0 1 <| .ok (.clearScreen (imm.getLsbD 0))
  | .changeDmd => withoutMode w0 <| .ok (.changeDmd (imm.extractLsb' 8 8) (imm.extractLsb' 0 8))
  | .drawLine => withMode w0 fun m => immWithin w0 0 <|
      .ok (.drawLine (sext16 (loHalf w1)) (sext16 (hiHalf w1)) (sext16 (loHalf w2)) (sext16 (hiHalf w2)) m)
  | .drawCircle => withMode w0 fun m => immWithin w0 0 <|
      if hiHalf w2 = 0 then
        .ok (.drawCircle (sext16 (loHalf w1)) (sext16 (hiHalf w1)) (sext16 (loHalf w2)) m)
      else .error .highHalfNotZero
  | .drawBox => withMode w0 fun m => immWithin w0 0 <|
      .ok (.drawBox (sext16 (loHalf w1)) (sext16 (hiHalf w1)) (sext16 (loHalf w2)) (sext16 (hiHalf w2)) m)
  | .drawFilledBox => withMode w0 fun m => immWithin w0 0 <|
      .ok (.drawFilledBox (sext16 (loHalf w1)) (sext16 (hiHalf w1)) (sext16 (loHalf w2)) (sext16 (hiHalf w2)) m)
  | .drawTestPattern => withoutMode w0 <| immWithin w0 2 <| .ok (.drawTestPattern (imm.extractLsb' 0 2))
  | .selectFont => withoutMode w0 <| immWithin w0 0 <| .ok (.selectFont w1)
  | .charWidth => withoutMode w0 <| immWithin w0 8 <| .ok (.charWidth (imm.extractLsb' 0 8))
  | .drawChar => withMode w0 fun m => immWithin w0 8 <|
      .ok (.drawChar (sext16 (loHalf w1)) (sext16 (hiHalf w1)) (imm.extractLsb' 0 8) m)
  | .drawString => withMode w0 fun m =>
      .ok (.drawString (sext16 (loHalf w1)) (sext16 (hiHalf w1)) w2 imm m)
  | .drawMarquee => withoutMode w0 <|
      .ok (.drawMarquee w2 imm (sext16 (loHalf w1)) (sext16 (hiHalf w1)))
  | .stepMarquee => withoutMode w0 <| immWithin w0 0 <|
      .ok (.stepMarquee (sext16 (loHalf w1)) (sext16 (hiHalf w1)))
  | .stepSplitMarquee3 => withoutMode w0 <|
      .ok (.stepSplitMarquee3 (sext16 (loHalf w1)) (sext16 (hiHalf w1)) (sext16 imm))
  | .scan => withoutMode w0 <| immWithin w0 0 <| .ok .scan
  | .setBrightness => withoutMode w0 <| immWithin w0 8 <| .ok (.setBrightness (imm.extractLsb' 0 8))

/-- The command of a packet, or the first of the cases of R98 that makes it illegal. Operand words the
format does not have are not looked at. -/
def decodeWords (w0 w1 w2 : Word) : Except Illegal Instr :=
  match Opcode.ofByte (opBits w0) with
  | none => .error (.undefinedOp (opBits w0))
  | some op => if rsvBits w0 = 0 then decodeOperands op w0 w1 w2 else .error .reservedBits

/-! ### The command stream (R73, R99) -/

/-- What stands at the head of the command stream. -/
inductive Decoded where
  /-- Fewer words than the packet has: it is not complete yet. -/
  | incomplete
  /-- An illegal packet, and the words after it (R98, R99). -/
  | illegal (why : Illegal) (rest : List Word)
  /-- A legal packet, and the words after it. -/
  | packet (i : Instr) (rest : List Word)
deriving DecidableEq, Repr

/-- Reads one packet: word 0 gives the length, that many words are consumed, then the packet is legal
or illegal (R90, R99). -/
def decodePacket : List Word → Decoded
  | [] => .incomplete
  | w0 :: ws =>
    if ws.length + 1 < packetWords w0 then .incomplete
    else match decodeWords w0 (ws.getD 0 0) (ws.getD 1 0) with
      | .ok i => .packet i (ws.drop (packetWords w0 - 1))
      | .error e => .illegal e (ws.drop (packetWords w0 - 1))

/-- The packets of a stream, in order (R99): at most `fuel` of them. -/
def decodeStream : Nat → List Word → List (Option Instr)
  | 0, _ => []
  | fuel + 1, ws =>
    match decodePacket ws with
    | .incomplete => []
    | .illegal _ rest => none :: decodeStream fuel rest
    | .packet i rest => some i :: decodeStream fuel rest

/-! ### The encoder (R91 to R97) -/

/-- Word 0: `OP ++ RSV ++ MODE ++ IMM` with `RSV = 0` (R91). -/
def word0 (op : Opcode) (mode : BitVec 3) (imm : BitVec 16) : Word :=
  op.byte ++ (0#5 ++ (mode ++ imm))

/-- An operand word in the pair form, `HI ++ LO` (R93). -/
def pairWord (lo hi : Int) : Word := field16 hi ++ field16 lo

/-- A one-bit operand in the low bit of `IMM` (R97). -/
def immBit (b : Bool) : BitVec 16 := (BitVec.ofBool b).setWidth 16

/-- The opcode of a command. -/
def Instr.opcode : Instr → Opcode
  | .writePixel _ _ _ _ => .writePixel
  | .clearScreen _ => .clearScreen
  | .changeDmd _ _ => .changeDmd
  | .drawLine _ _ _ _ _ => .drawLine
  | .drawCircle _ _ _ _ => .drawCircle
  | .drawBox _ _ _ _ _ => .drawBox
  | .drawFilledBox _ _ _ _ _ => .drawFilledBox
  | .drawTestPattern _ => .drawTestPattern
  | .selectFont _ => .selectFont
  | .charWidth _ => .charWidth
  | .drawChar _ _ _ _ => .drawChar
  | .drawString _ _ _ _ _ => .drawString
  | .drawMarquee _ _ _ _ => .drawMarquee
  | .stepMarquee _ _ => .stepMarquee
  | .stepSplitMarquee3 _ _ _ => .stepSplitMarquee3
  | .scan => .scan
  | .setBrightness _ => .setBrightness

/-- The words of a command (R97). -/
def encode : Instr → List Word
  | .writePixel x y m v => [word0 .writePixel m.code (immBit v), pairWord x y]
  | .clearScreen b => [word0 .clearScreen 0 (immBit b)]
  | .changeDmd w h => [word0 .changeDmd 0 (w ++ h)]
  | .drawLine x1 y1 x2 y2 m => [word0 .drawLine m.code 0, pairWord x1 y1, pairWord x2 y2]
  | .drawCircle cx cy r m => [word0 .drawCircle m.code 0, pairWord cx cy, 0#16 ++ field16 r]
  | .drawBox x1 y1 x2 y2 m => [word0 .drawBox m.code 0, pairWord x1 y1, pairWord x2 y2]
  | .drawFilledBox x1 y1 x2 y2 m => [word0 .drawFilledBox m.code 0, pairWord x1 y1, pairWord x2 y2]
  | .drawTestPattern n => [word0 .drawTestPattern 0 (n.setWidth 16)]
  | .selectFont a => [word0 .selectFont 0 0, a]
  | .charWidth c => [word0 .charWidth 0 (c.setWidth 16)]
  | .drawChar x y c m => [word0 .drawChar m.code (c.setWidth 16), pairWord x y]
  | .drawString x y a n m => [word0 .drawString m.code n, pairWord x y, a]
  | .drawMarquee a n left top => [word0 .drawMarquee 0 n, pairWord left top, a]
  | .stepMarquee dx dy => [word0 .stepMarquee 0 0, pairWord dx dy]
  | .stepSplitMarquee3 t b c => [word0 .stepSplitMarquee3 0 (field16 c), pairWord t b]
  | .scan => [word0 .scan 0 0]
  | .setBrightness v => [word0 .setBrightness 0 (v.setWidth 16)]

/-! ### Serialisation used by tools (R73) -/

/-- The four bytes of a word in a byte-addressed memory of a tool, least significant first (R73). -/
def wordBytes (w : Word) : List Byte :=
  [w.extractLsb' 0 8, w.extractLsb' 8 8, w.extractLsb' 16 8, w.extractLsb' 24 8]

/-- The word whose bytes are `b0` to `b3`, `b0` at the lowest address (R73). -/
def bytesWord (b0 b1 b2 b3 : Byte) : Word := b3 ++ (b2 ++ (b1 ++ b0))

/-- The packet of a command as a tool stores it (R73). -/
def encodeBytes (i : Instr) : List Byte := (encode i).flatMap wordBytes

/-! ### The host's reading of a table row -/

/-- Three command words from a number whose bit 0 is bit 0 of word 0; the bits at and above `nbits`
are 0. -/
def tableWords (nbits w : Nat) : List Word :=
  let v := w % 2 ^ nbits
  [BitVec.ofNat 32 v, BitVec.ofNat 32 (v >>> 32), BitVec.ofNat 32 (v >>> 64)]

/-- The command the decoder reads from an instruction whose bits are `w`, numbered as the opcode table
numbers them. -/
def decodeTableWord (nbits w : Nat) : Option Instr :=
  match decodePacket (tableWords nbits w) with
  | .packet i _ => some i
  | .incomplete => none
  | .illegal _ _ => none

end Sys2Proof
end

