-- ==== Sys2Proof/Machine/Port.lean ====
section
/-! DEFINITION. The ports of the block (00_scope.md R4): taking a packet from the command port
(60_exceptions.md R266 steps 1 and 2), starting a command without performing its micro-steps (20_memory.md
R82), scan requests (44_scan.md R231, R246) and the other inputs. -/

namespace Sys2Proof.Machine

/-- The state with these words left on the command port. -/
def State.withPort (s : State) (ws : List Word) : State := { s with env := { s.env with port := ws } }

/-- The state with these inputs to come. -/
def State.withSched (s : State) (is : List Input) : State := { s with env := { s.env with sched := is } }

/-- What the command port hands over. -/
inductive Fetched where
  /-- No complete packet stands on the port. -/
  | nothing
  /-- An illegal packet: consumed and refused with `ILL` (R98, R266 step 2). -/
  | illegal (s : State)
  /-- A legal packet, consumed. -/
  | packet (i : Instr) (s : State)

/-- Takes the next packet from the command port (R90, R99, R266 steps 1 and 2). An illegal packet sets
`ILL` in the FAULT condition too (R264). -/
def fetchPacket (s : State) : Fetched :=
  match decodePacket s.env.port with
  | .incomplete => .nothing
  | .illegal _ rest => .illegal ((s.withPort rest).refuse .ill)
  | .packet i rest => .packet i (s.withPort rest)

/-- The operations the draw engine performs for a command; SCAN is not the draw engine's (R50). -/
def drawProgram (i : Instr) (s : State) : List Micro :=
  match i with
  | .writePixel x y mode value => writePixelProgram x y mode value s
  | .clearScreen normal => clearScreenProgram normal s
  | .changeDmd w h => changeDmdProgram w h s
  | .drawLine xa ya xb yb mode => drawLineProgram xa ya xb yb mode s
  | .drawCircle cx cy r mode => drawCircleProgram cx cy r mode s
  | .drawBox xa ya xb yb mode => drawBoxProgram xa ya xb yb mode s
  | .drawFilledBox xa ya xb yb mode => drawFilledBoxProgram xa ya xb yb mode s
  | .drawTestPattern pattern => drawTestPatternProgram pattern s
  | .selectFont addr => selectFontProgram addr s
  | .charWidth letter => charWidthProgram letter s
  | .drawChar x y letter mode => drawCharProgram x y letter mode s
  | .drawString x y addr length mode => drawStringProgram x y addr length mode s
  | .drawMarquee addr length left top => drawMarqueeProgram addr length left top s
  | .stepMarquee dx dy => stepMarqueeProgram dx dy s
  | .stepSplitMarquee3 t b c => stepSplitMarquee3Program t b c s
  | .scan => []
  | .setBrightness value => setBrightnessProgram value s

/-- The command is a reconfiguration (R85). -/
def isReconfig : Instr → Bool
  | .changeDmd _ _ => true
  | _ => false

/-- Starts a command. SCAN goes to the scan engine and holds the command port (R82). Every other command
goes to the draw engine: in the FAULT condition with nothing to perform, so that `DBUSY` pulses and nothing
else happens (R264, R266 step 3); else CHANGEDMD during a scan is undefined (R85), and the micro-steps of the
command are left to the engine. -/
def startCommand (i : Instr) (s : State) : Except Fault State :=
  if i = .scan then .ok { s with scan := s.scanOps, scanOnPort := true }
  else if s.sticky.fault then .ok { s with draw := some { cmd := some i, rest := [] } }
  else if isReconfig i ∧ s.scan ≠ [] then .error .reconfigDuringScan
  else .ok { s with draw := some { cmd := some i, rest := drawProgram i s } }

/-- The command port accepts nothing: the draw engine is busy, or a SCAN packet is being executed (R82). -/
def State.portHeld (s : State) : Bool := s.draw.isSome || s.scanOnPort

/-- The command port accepts the next packet if it can. An illegal packet leaves the draw engine its refusal
(R98, R264). A SCAN packet waits on the port while the scan engine is busy (R50, R82;
notes/assumptions/6.md). -/
def acceptPacket (s : State) : Except Fault State :=
  if s.portHeld then .ok s
  else match decodePacket s.env.port with
    | .incomplete => .ok s
    | .illegal _ rest => .ok { s.withPort rest with draw := some { cmd := none, rest := [.reg (.flag .ill)] } }
    | .packet i rest => if i = .scan ∧ s.scan ≠ [] then .ok s else startCommand i (s.withPort rest)

/-- The draw engine is executing CHANGEDMD (R85). -/
def State.reconfiguring (s : State) : Bool :=
  match s.draw with
  | some ⟨some i, _⟩ => isReconfig i
  | _ => false

/-- A scan request on the scan port: refused in the FAULT condition (R245), dropped while a scan is in
progress (R246), undefined while CHANGEDMD executes (R85), else a scan starts with its sample of
`bus_busy` (R231, R233). Of a scan whose sample is 1 one micro-step is left, in which it ends: until then
`SBUSY` is 1 (R232; how long that lasts is the model's choice: notes/assumptions/23.md). -/
def scanRequest (s : State) : Except Fault State :=
  if s.sticky.fault then .ok s
  else if s.scan ≠ [] then .ok s
  else if s.reconfiguring then .error .scanDuringReconfig
  else .ok { s with scan := s.scanOps }

/-- Performs one input. While reset is asserted only the two input lines act (R280). -/
def applyInput (e : Input) (s : State) : Except Fault State :=
  match e with
  | .reset true => .ok s.assertReset
  | .reset false => .ok { s with env := { s.env with resetHeld := false } }
  | .busBusy b => .ok { s with env := { s.env with busBusy := b } }
  | .send w => .ok (if s.env.resetHeld then s else s.withPort (s.env.port ++ [w]))
  | .scanRequest => if s.env.resetHeld then .ok s else scanRequest s
  | .pwmTick => .ok (if s.env.resetHeld then s else { s with pwmCnt := s.pwmCnt + 1 })
  | .accept => if s.env.resetHeld then .ok s else acceptPacket s
  | .drawStep => if s.env.resetHeld then .ok s else drawAdvance s
  | .scanStep => if s.env.resetHeld then .ok s else scanAdvance s

/-- The words of one packet as they stand on the port: the three words of the number, cut to the length
word 0 gives (R99). -/
def packetOf (nbits w : Nat) : List Word :=
  (tableWords nbits w).take (packetWords (BitVec.ofNat 32 (w % 2 ^ nbits)))

end Sys2Proof.Machine
end

