-- ==== Sys2Proof/Machine/Step.lean ====
section
/-! DEFINITION. One step of the block. While inputs are to come, a step performs the first of them: so the
list in the state decides how the engines interleave (20_memory.md R80). With none to come, an engine with
work left performs a micro-step, and an idle block takes the next packet and executes it whole. -/

namespace Sys2Proof.Machine

/-- One step (R80, R82, R266). A packet is executed whole by `exec`, which is the interleaving in which
nothing else happens meanwhile; the inputs `accept`, `drawStep` and `scanStep` give every other one. -/
def step (s : State) : Host.Outcome State Fault Refusal :=
  match s.env.sched with
  | e :: rest => toOutcome (applyInput e (s.withSched rest))
  | [] =>
    if s.env.resetHeld then .next s
    else if s.draw.isSome then toOutcome (drawAdvance s)
    else if s.scanOnPort then toOutcome (scanAdvance s)
    else match fetchPacket s with
      | .nothing => toOutcome (scanAdvance s)
      | .illegal s' => .next s'
      | .packet i s' => exec i s'

/-- The state with the packet whose bits are `w`, numbered as the opcode table numbers them, at the head
of the command port, and nothing that keeps the next step from taking it. -/
def State.withFetchWord (s : State) (nbits w : Nat) : State :=
  { s with
    env := { s.env with port := packetOf nbits w ++ s.env.port, sched := [], resetHeld := false }
    draw := none
    scanOnPort := false }

end Sys2Proof.Machine
end

