-- ==== Sys2Proof/Machine/Assembler.lean ====
section
/-! DEFINITION. The textual form of commands (30_encoding.md R102) and the two pseudo-instructions (R103).
The block never sees text: a tool turns it into packets. -/

namespace Sys2Proof.Machine

/-- An operand as the textual form writes it (R102). -/
inductive AsmOperand where
  /-- A number, decimal or hexadecimal, possibly negative, or a quoted character. -/
  | num (v : Int)
  /-- A resource address, written with a leading at sign. -/
  | addr (a : Nat)
  /-- A mode name. -/
  | mode (m : Mode)
deriving DecidableEq, Repr

/-- The mnemonic of each command (R96). -/
def mnemonicOf : Opcode → String
  | .writePixel => "WRITEPIXEL"
  | .clearScreen => "CLEARSCREEN"
  | .changeDmd => "CHANGEDMD"
  | .drawLine => "DRAWLINE"
  | .drawCircle => "DRAWCIRCLE"
  | .drawBox => "DRAWBOX"
  | .drawFilledBox => "DRAWFILLEDBOX"
  | .drawTestPattern => "DRAWTESTPATTERN"
  | .selectFont => "SELECTFONT"
  | .charWidth => "CHARWIDTH"
  | .drawChar => "DRAWCHAR"
  | .drawString => "DRAWSTRING"
  | .drawMarquee => "DRAWMARQUEE"
  | .stepMarquee => "STEPMARQUEE"
  | .stepSplitMarquee3 => "STEPSPLITMARQUEE3"
  | .scan => "SCAN"
  | .setBrightness => "SETBRIGHTNESS"

/-- The seventeen opcodes, in the table's order (R96). -/
def allOpcodes : List Opcode := [.writePixel, .clearScreen, .changeDmd, .drawLine, .drawCircle, .drawBox,
  .drawFilledBox, .drawTestPattern, .selectFont, .charWidth, .drawChar, .drawString, .drawMarquee,
  .stepMarquee, .stepSplitMarquee3, .scan, .setBrightness]

/-- The operands of a command in the order the textual form writes them (R102). -/
def asmOperands : Instr → List AsmOperand
  | .writePixel x y m v => [.num x, .num y, .mode m, .num v.toNat]
  | .clearScreen n => [.num n.toNat]
  | .changeDmd w h => [.num w.toNat, .num h.toNat]
  | .drawLine x1 y1 x2 y2 m => [.num x1, .num y1, .num x2, .num y2, .mode m]
  | .drawCircle cx cy r m => [.num cx, .num cy, .num r, .mode m]
  | .drawBox x1 y1 x2 y2 m => [.num x1, .num y1, .num x2, .num y2, .mode m]
  | .drawFilledBox x1 y1 x2 y2 m => [.num x1, .num y1, .num x2, .num y2, .mode m]
  | .drawTestPattern p => [.num p.toNat]
  | .selectFont a => [.addr a.toNat]
  | .charWidth c => [.num c.toNat]
  | .drawChar x y c m => [.num x, .num y, .num c.toNat, .mode m]
  | .drawString x y a n m => [.num x, .num y, .addr a.toNat, .num n.toNat, .mode m]
  | .drawMarquee a n left top => [.addr a.toNat, .num n.toNat, .num left, .num top]
  | .stepMarquee dx dy => [.num dx, .num dy]
  | .stepSplitMarquee3 t b c => [.num t, .num b, .num c]
  | .scan => []
  | .setBrightness v => [.num v.toNat]

/-- An unsigned operand that fits its field of `n` bits. -/
def asmField (n : Nat) (v : Int) : Option (BitVec n) :=
  if 0 ≤ v ∧ v < 2 ^ n then some (BitVec.ofInt n v) else none

/-- A one-bit operand. -/
def asmBit (v : Int) : Option Bool := if v = 0 then some false else if v = 1 then some true else none

/-- A resource address that fits 32 bits (R9 `ALEN`). -/
def asmAddr (a : Nat) : Option Word := if a < 2 ^ 32 then some (BitVec.ofNat 32 a) else none

/-- The command of an opcode and its written operands, if there are as many as it takes, each of its kind;
an unsigned operand must fit its field (R102). -/
def assembleOperands (op : Opcode) (ops : List AsmOperand) : Option Instr :=
  match op, ops with
  | .writePixel, [.num x, .num y, .mode m, .num v] => (asmBit v).map fun v => .writePixel x y m v
  | .clearScreen, [.num n] => (asmBit n).map .clearScreen
  | .changeDmd, [.num w, .num h] => (asmField 8 w).bind fun w => (asmField 8 h).map fun h => .changeDmd w h
  | .drawLine, [.num x1, .num y1, .num x2, .num y2, .mode m] => some (.drawLine x1 y1 x2 y2 m)
  | .drawCircle, [.num cx, .num cy, .num r, .mode m] => some (.drawCircle cx cy r m)
  | .drawBox, [.num x1, .num y1, .num x2, .num y2, .mode m] => some (.drawBox x1 y1 x2 y2 m)
  | .drawFilledBox, [.num x1, .num y1, .num x2, .num y2, .mode m] => some (.drawFilledBox x1 y1 x2 y2 m)
  | .drawTestPattern, [.num p] => (asmField 2 p).map .drawTestPattern
  | .selectFont, [.addr a] => (asmAddr a).map .selectFont
  | .charWidth, [.num c] => (asmField 8 c).map .charWidth
  | .drawChar, [.num x, .num y, .num c, .mode m] => (asmField 8 c).map fun c => .drawChar x y c m
  | .drawString, [.num x, .num y, .addr a, .num n, .mode m] =>
      (asmAddr a).bind fun a => (asmField 16 n).map fun n => .drawString x y a n m
  | .drawMarquee, [.addr a, .num n, .num left, .num top] =>
      (asmAddr a).bind fun a => (asmField 16 n).map fun n => .drawMarquee a n left top
  | .stepMarquee, [.num dx, .num dy] => some (.stepMarquee dx dy)
  | .stepSplitMarquee3, [.num t, .num b, .num c] => some (.stepSplitMarquee3 t b c)
  | .scan, [] => some .scan
  | .setBrightness, [.num v] => (asmField 8 v).map .setBrightness
  | _, _ => none

/-- The command of an opcode and its written operands (R102). An operand outside the range of its field, a
signed one too, makes the line no command: the spec is silent there (PRESUMED: notes/assumptions/20.md). -/
def assemble (op : Opcode) (ops : List AsmOperand) : Option Instr :=
  (assembleOperands op ops).filter Instr.wellFormed

/-! ### Lines of text (R102, R103) -/

/-- The value of a digit in the given base. -/
def digitValue (base : Nat) (c : Char) : Option Nat :=
  let n := c.toNat
  let v := if 48 ≤ n ∧ n ≤ 57 then n - 48 else if 65 ≤ n ∧ n ≤ 70 then n - 55
    else if 97 ≤ n ∧ n ≤ 102 then n - 87 else 99
  if v < base then some v else none

/-- The number whose digits follow `acc` in the given base. -/
def digitsValue (base : Nat) : Nat → List Char → Option Nat
  | acc, [] => some acc
  | acc, c :: cs =>
    match digitValue base c with
    | some d => digitsValue base (base * acc + d) cs
    | none => none

/-- A number without sign: hexadecimal after `0x`, else decimal (R102). -/
def unsignedNumber : List Char → Option Nat
  | '0' :: 'x' :: c :: cs => digitsValue 16 0 (c :: cs)
  | c :: cs => digitsValue 10 0 (c :: cs)
  | [] => none

/-- The name of each mode (R102). -/
def modeText : Mode → List Char
  | .normal => "NORMAL".toList
  | .inverse => "INVERSE".toList
  | .toggle => "TOGGLE".toList
  | .or => "OR".toList
  | .nor => "NOR".toList

/-- The mode a name stands for (R102). -/
def modeName (cs : List Char) : Option Mode :=
  [Mode.normal, .inverse, .toggle, .or, .nor].find? fun m => modeText m = cs

/-- The apostrophe that quotes a character. -/
def quoteChar : Char := Char.ofNat 39

/-- One written operand: a mode name, an address, a quoted character or a number (R102). The spec shows a quoted
character for a letter only; the model reads one as a number wherever a number may stand (PRESUMED:
notes/assumptions/20.md). -/
def parseOperand (cs : List Char) : Option AsmOperand :=
  match modeName cs with
  | some m => some (.mode m)
  | none =>
    match cs with
    | '@' :: rest => (unsignedNumber rest).map .addr
    | '-' :: rest => (unsignedNumber rest).map fun n => .num (-(n : Int))
    | [q, c, r] =>
      if q = quoteChar ∧ r = quoteChar then some (.num c.toNat)
      else (unsignedNumber [q, c, r]).map fun n => .num n
    | _ => (unsignedNumber cs).map fun n => .num n

/-- A space or a tab. -/
def isBlank (c : Char) : Bool := c.toNat == 32 || c.toNat == 9

/-- The characters without the blanks before and after them. -/
def trimBlanks (cs : List Char) : List Char :=
  ((cs.dropWhile isBlank).reverse.dropWhile isBlank).reverse

/-- `CLS` is `CLEARSCREEN 1` (R103). -/
def clsExpansion : List Instr := [.clearScreen true]

/-- `SCANCYCLE` is four consecutive `SCAN` (R103). -/
def scanCycleExpansion : List Instr := [.scan, .scan, .scan, .scan]

/-- The commands of one line: a comment begins at a semicolon, the mnemonic comes first, the operands are
separated by commas; an empty line has no command (R102). -/
def assembleLine (line : List Char) : Option (List Instr) :=
  let code := trimBlanks (line.takeWhile fun c => c != ';')
  let name := code.takeWhile fun c => !isBlank c
  let rest := trimBlanks (code.dropWhile fun c => !isBlank c)
  if code.isEmpty then some []
  else if name = "CLS".toList ∧ rest.isEmpty then some clsExpansion
  else if name = "SCANCYCLE".toList ∧ rest.isEmpty then some scanCycleExpansion
  else do
    let op ← allOpcodes.find? fun op => (mnemonicOf op).toList = name
    let fields := if rest.isEmpty then [] else (rest.splitOn ',').map trimBlanks
    let ops ← fields.mapM parseOperand
    return [← assemble op ops]

/-! ### Writing a command as a line (R102) -/

/-- An integer in decimal. -/
def writeInt (v : Int) : List Char :=
  if v < 0 then '-' :: Nat.toDigits 10 v.natAbs else Nat.toDigits 10 v.toNat

/-- An operand as the textual form writes it. -/
def writeOperand : AsmOperand → List Char
  | .num v => writeInt v
  | .addr a => '@' :: Nat.toDigits 10 a
  | .mode m => modeText m

/-- The line of a command: its mnemonic, then its operands separated by commas. -/
def writeLine (i : Instr) : List Char :=
  (mnemonicOf i.opcode).toList ++
    (match (asmOperands i).map writeOperand with
     | [] => []
     | ops => ' ' :: [',', ' '].intercalate ops)

end Sys2Proof.Machine
end

