-- ==== Sys2Proof/Safety.lean ====
section
/-! DEFINITION. The terms statements about the block are made in: the invariant of its states, the states
in which it takes a packet, what it means that a list of points was painted, the marquee frame, the opcode
table of R97, runs over inputs. Nothing here changes what the machine does. -/

namespace Sys2Proof.Machine

/-! ### The invariant -/

/-- The geometry registers agree and fit the RAM (R23). -/
abbrev Geometry.ok (cfg : Config) (g : Geometry) : Prop :=
  1 ≤ g.w.toNat ∧ 1 ≤ g.h.toNat ∧ g.t.toNat = g.w.toNat * g.h.toNat ∧ g.t.toNat ≤ cfg.tMax.toNat

/-- The geometry of a state is legal (R23). -/
abbrev State.geomOk (s : State) : Prop := s.geom.ok s.env.cfg

/-- The listed buffer bytes are in canonical form and exist (R24, R69). -/
abbrev State.bufferOk (s : State) : Prop :=
  s.buf.cells.wf ∧ ∀ c ∈ s.buf.cells, c.1 < s.geom.bufSize

/-- The marquee offsets are canonical (R203). -/
abbrev MarqueeRegs.ok (m : MarqueeRegs) : Prop :=
  m.ox.toInt = canon m.ox.toInt m.mw.toInt ∧ m.oy.toInt = canon m.oy.toInt m.mh.toInt

/-- The state after the register writes among these operations. -/
def settleDraw : List Micro → State → State
  | [], s => s
  | .reg w :: ms, s => settleDraw ms (applyReg w s)
  | _ :: ms, s => settleDraw ms s

/-- What the draw engine has left to do. -/
def State.drawRest (s : State) : List Micro :=
  match s.draw with
  | some d => d.rest
  | none => []

/-- The state as to its registers once the command and the scan in progress have ended; the state itself when
both engines are idle. A rule about several registers holds of this one: each write is a micro-step (R51), so
between two writes of one command it need not hold of the state itself. -/
def State.settled (s : State) : State :=
  let t := settleDraw s.drawRest s
  { t with regs := s.scan.foldl (fun r m => applyScanReg m r) t.regs }

/-- `CURSOR` is the first byte of buffer row `PHASE` (R27). -/
abbrev State.cursorOk (s : State) : Prop := s.regs.cursor.toNat = s.regs.phase.toNat * s.geom.rowLen

/-- A write of CHANGEDMD to the geometry or the scan position (R125). -/
def Micro.resizes : Micro → Bool
  | .reg (.width _) | .reg (.height _) | .reg (.total _) | .reg .phaseZero | .reg .cursorZero => true
  | _ => false

/-- Only CHANGEDMD has such a write left, and then no scan is in progress (R23, R26, R85). -/
abbrev State.resizeOk (s : State) : Prop :=
  s.drawRest.any Micro.resizes = true → s.reconfiguring = true ∧ s.scan = []

/-- The invariant every step keeps. -/
structure State.Inv (s : State) : Prop where
  cfg : s.env.cfg.wf
  rom : s.env.rom.wf
  geom : s.settled.geomOk
  buffer : s.bufferOk
  cursor : s.settled.cursorOk
  marq : s.settled.marq.ok
  port : s.scanOnPort = true → s.scan ≠ []
  resize : s.resizeOk

/-- In the FAULT condition the engines do no more than refuse: the draw engine has nothing or a refusal with
`ILL` to perform, the scan engine nothing or a refused scan (R264). -/
abbrev State.refusing (s : State) : Prop :=
  s.sticky.fault = true ∧ (s.drawRest = [] ∨ s.drawRest = [.reg (.flag .ill)]) ∧
    (s.scan = [] ∨ s.scan = [.skip])

/-! ### Completion -/

/-- The step answers a next state. -/
def State.completes (s : State) : Prop := ∃ t, step s = .next t

/-- The block takes the next packet at its next step: no input to come, reset released, both the draw
engine and the command port free (R82). -/
abbrev State.ready (s : State) : Prop :=
  s.env.sched = [] ∧ s.env.resetHeld = false ∧ s.draw = none ∧ s.scanOnPort = false

/-- The command is executed and not refused for the FAULT condition, on a legal geometry (R266). -/
abbrev State.live (s : State) : Prop := s.sticky.fault = false ∧ s.geomOk

/-! ### Painting -/

/-- The bit after `n` writes of requested bit 1 in this mode (R122, R140). -/
def paintBit (mode : Mode) (n : Nat) (e : Bool) : Bool := (fun b => combine mode b true)^[n] e

/-- `t` is `s` after `WritePixel(p, mode, 1)` for each point of `ps`: only the buffer differs; every pixel
of the display is the old one written once for each time it occurs; every byte that holds no such pixel is
as before (R120, R121). -/
structure Painted (mode : Mode) (ps : List Point) (s t : State) : Prop where
  frame : t = { s with buf := t.buf }
  epoch : t.buf.epoch = s.buf.epoch
  pixels : ∀ x y, s.geom.inDisplay x y →
    t.getPixel x y = paintBit mode (ps.count (x, y)) (s.getPixel x y)
  bytes : ∀ a, (∀ p ∈ ps, s.geom.inDisplay p.1 p.2 → s.geom.pixelByte p.1 p.2 ≠ a) →
    t.byteAt a = s.byteAt a

/-- The two states show the same picture (R127). -/
def samePicture (s t : State) : Prop :=
  s.geom = t.geom ∧ ∀ x y, s.geom.inDisplay x y → s.getPixel x y = t.getPixel x y

/-- The picture is the marquee frame: a pixel is 1 exactly where the rendering of the marquee registers
writes one (R207). -/
def State.showsFrame (s : State) : Prop :=
  ∀ x y, s.geom.inDisplay x y →
    s.getPixel x y = decide ((x, y) ∈ renderPoints s.charGap s.fontByte s.geom s.marq.view s.geom.window)

/-- The bit of the marquee's own bitmap at column `u`, row `v`: the text drawn at (0, 0) (R207). -/
def textBit (gap : Nat) (F : Nat → Nat) (text : List Nat) (u v : Int) : Bool :=
  decide ((u, v) ∈ stringPoints gap F 0 0 text)

/-- STEPMARQUEE executed for each pair in order. -/
def stepMarquees : List (Int × Int) → State → Host.Outcome State Fault Refusal
  | [], s => .next s
  | d :: ds, s =>
    match exec (.stepMarquee d.1 d.2) s with
    | .next s' => stepMarquees ds s'
    | .fault e => .fault e
    | .refused r => .refused r

/-! ### The opcode table (R97) -/

/-- A row of the table of R97. -/
structure OpcodeRow where
  op : Opcode
  mask : Word
  pattern : Word
  takesMode : Bool
deriving DecidableEq, Repr

/-- The table of R97: `mask` and `match` apply to word 0. -/
def opcodeTable : List OpcodeRow := [
  ⟨.writePixel, 0xFFF8FFFE, 0x01000000, true⟩,
  ⟨.clearScreen, 0xFFFFFFFE, 0x02000000, false⟩,
  ⟨.changeDmd, 0xFFFF0000, 0x03000000, false⟩,
  ⟨.drawLine, 0xFFF8FFFF, 0x10000000, true⟩,
  ⟨.drawCircle, 0xFFF8FFFF, 0x11000000, true⟩,
  ⟨.drawBox, 0xFFF8FFFF, 0x12000000, true⟩,
  ⟨.drawFilledBox, 0xFFF8FFFF, 0x13000000, true⟩,
  ⟨.drawTestPattern, 0xFFFFFFFC, 0x14000000, false⟩,
  ⟨.selectFont, 0xFFFFFFFF, 0x20000000, false⟩,
  ⟨.charWidth, 0xFFFFFF00, 0x21000000, false⟩,
  ⟨.drawChar, 0xFFF8FF00, 0x22000000, true⟩,
  ⟨.drawString, 0xFFF80000, 0x23000000, true⟩,
  ⟨.drawMarquee, 0xFFFF0000, 0x30000000, false⟩,
  ⟨.stepMarquee, 0xFFFFFFFF, 0x31000000, false⟩,
  ⟨.stepSplitMarquee3, 0xFFFF0000, 0x32000000, false⟩,
  ⟨.scan, 0xFFFFFFFF, 0x40000000, false⟩,
  ⟨.setBrightness, 0xFFFFFF00, 0x41000000, false⟩]

/-- The packet is one a row of the table selects: R97, and R98 (f) for DRAWCIRCLE. -/
def OpcodeRow.selects (r : OpcodeRow) (w0 w2 : Word) : Prop :=
  w0 &&& r.mask = r.pattern ∧ (r.takesMode = true → (modeBits w0).toNat ≤ 4) ∧
    (r.op = .drawCircle → hiHalf w2 = 0)

/-! ### Scans -/

/-- The addresses a scan in phase `p` loads, in order (R236). -/
def scanAddrs (rowLen p : Nat) : List Nat :=
  (List.range rowLen).flatMap fun i =>
    [(p + 12) * rowLen + i, (p + 8) * rowLen + i, (p + 4) * rowLen + i, p * rowLen + i]

/-- The byte of a `SHIFT` event. -/
def Event.shifted : Event → Option Byte
  | .shift v => some v
  | .oe _ | .sel _ _ | .latch => none

/-- The lines of a `SEL` event. -/
def Event.selected : Event → Option (Bool × Bool)
  | .sel a b => some (a, b)
  | .oe _ | .shift _ | .latch => none

/-- SCAN executed `n` times. -/
def scans : Nat → State → Host.Outcome State Fault Refusal
  | 0, s => .next s
  | n + 1, s =>
    match exec .scan s with
    | .next s' => scans n s'
    | .fault e => .fault e
    | .refused r => .refused r

/-! ### Runs -/

/-- Performs inputs in order. -/
def applyInputs : List Input → State → Except Fault State
  | [], s => .ok s
  | e :: es, s =>
    match applyInput e s with
    | .ok s' => applyInputs es s'
    | .error f => .error f

/-- An input that lets no new command start and does not reset: the engines' turns, scan requests, the
`bus_busy` line, PWM ticks. -/
def Input.duringCommand : Input → Bool
  | .scanRequest | .busBusy _ | .pwmTick | .drawStep | .scanStep => true
  | .send _ | .reset _ | .accept => false

/-- The draw engine performs `n` micro-steps. -/
def drawSteps : Nat → State → Except Fault State
  | 0, s => .ok s
  | n + 1, s =>
    match drawAdvance s with
    | .ok s' => drawSteps n s'
    | .error f => .error f

/-- The scan engine performs `n` micro-steps. -/
def scanSteps : Nat → State → Except Fault State
  | 0, s => .ok s
  | n + 1, s =>
    match scanAdvance s with
    | .ok s' => scanSteps n s'
    | .error f => .error f

end Sys2Proof.Machine
end

