-- ==== Sys2Proof/Certificates/Slice0/Obligations.lean ====
section
/-! DEFINITION. The statements about DMD32R4-CORE for the provers, in the order of the spec's files. -/

open Sys2Proof Sys2Proof.Machine

/-! ### Packets (30_encoding.md) -/

/-- Decode and encode agree: every well-formed command, with every operand at every value its packet
admits, is read back from its words, and the words after it are left alone (R90, R95, R97). -/
def Obligations.DecodeReadsEncodedCommand : Prop :=
  ∀ (i : Instr) (rest : List Word), i.wellFormed = true →
    decodePacket (encode i ++ rest) = .packet i rest

/-- Every legal packet is the encoding of the command it is read as: the decoder drops no bit, and what it
reads is well-formed (R95, R97, R99). -/
def Obligations.LegalPacketIsAnEncoding : Prop :=
  ∀ (ws rest : List Word) (i : Instr), decodePacket ws = .packet i rest →
    i.wellFormed = true ∧ ws = encode i ++ rest

/-- A packet is legal exactly when a row of the table of R97 selects it by its mask and match, with a mode
of at most 4 where the row takes one and a zero high half of word 2 for DRAWCIRCLE; the command is the
row's (R97, R98). -/
def Obligations.TableRowsDecideLegality : Prop :=
  ∀ w0 w1 w2 : Word,
    (∀ i, decodeWords w0 w1 w2 = .ok i → ∃ r ∈ opcodeTable, r.op = i.opcode ∧ r.selects w0 w2) ∧
    ((∃ r ∈ opcodeTable, r.selects w0 w2) → ∃ i, decodeWords w0 w1 w2 = .ok i)

/-- A few words written out from R96 and R97 are read as the commands they stand for. -/
def Obligations.WorkedEncodingsDecode : Prop :=
  decodePacket [0x01020000, 0x0000FFFF] = .packet (.writePixel (-1) 0 .toggle false) [] ∧
  decodePacket [0x03000201] = .packet (.changeDmd 2 1) [] ∧
  decodePacket [0x11030000, 0x0007000F, 0x00000003] = .packet (.drawCircle 15 7 3 .or) [] ∧
  decodePacket [0x23010003, 0x00040001, 0x00002000] = .packet (.drawString 1 4 0x2000 3 .inverse) [] ∧
  decodePacket [0x32008000, 0x00040000] = .packet (.stepSplitMarquee3 0 4 (-32768)) [] ∧
  decodePacket [0x41000080] = .packet (.setBrightness 128) [] ∧
  decodePacket [0x00000000, 0x02000001] = .illegal (.undefinedOp 0) [0x02000001]

/-- An illegal packet is consumed to the length its opcode gives (one word for an undefined opcode), sets
`STATUS.ILL` and changes nothing else, in the FAULT condition too (R98, R99, R264, R266). The last clause is the
model's choice (notes/assumptions/4.md, notes/assumptions/23.md): accepted without being executed, such a packet
makes `DBUSY` 1, outside the FAULT condition too, and one micro-step later the same has happened. -/
def Obligations.IllegalPacketSetsOnlyIll : Prop :=
  ∀ (s : State) (w0 : Word) (ws : List Word), s.ready → s.env.port = w0 :: ws →
    packetWords w0 ≤ ws.length + 1 →
    (∀ i, decodeWords w0 (ws.getD 0 0) (ws.getD 1 0) ≠ .ok i) →
    let after := (s.withPort (ws.drop (packetWords w0 - 1))).refuse .ill
    step s = .next after ∧
    ∃ u, acceptPacket s = .ok u ∧ u.dBusy = true ∧ u.sticky = s.sticky ∧ drawAdvance u = .ok after

/-- A step runs the decoded command: with no input to come and the port free, the words at the head of the
port that decode to `i` are consumed and the step is `exec i` (R82, R266). That a step performs a packet
whole is the model's choice (notes/assumptions/4.md). -/
def Obligations.StepRunsDecodedCommand : Prop :=
  ∀ (s : State) (i : Instr) (rest : List Word), s.ready →
    decodePacket s.env.port = .packet i rest → step s = exec i (s.withPort rest)

/-- The operands of a well-formed command, taken in the order the textual form writes them, assemble back to
it; and an assembled command is always well-formed (R102; that an operand outside its field is no command is
the model's choice, notes/assumptions/20.md). -/
def Obligations.AssembleReadsWrittenOperands : Prop :=
  (∀ i : Instr, i.wellFormed = true → assemble i.opcode (asmOperands i) = some i) ∧
  ∀ (op : Opcode) (ops : List AsmOperand) (i : Instr), assemble op ops = some i →
    i.wellFormed = true ∧ i.opcode = op

/-- The textual form: the line of a well-formed command, its mnemonic followed by its operands in decimal or as
names and separated by commas, is read back as that command, also with a comment after it (R102). -/
def Obligations.WrittenLineAssembles : Prop :=
  ∀ (i : Instr) (comment : List Char), i.wellFormed = true →
    assembleLine (writeLine i) = some [i] ∧ assembleLine (writeLine i ++ [' ', ';'] ++ comment) = some [i]

/-! ### The pixel buffer (20_memory.md, 40_pixelbuffer.md) -/

/-- The pixels of the display and the bits of the buffer correspond one to one: R62 and R63 against the
inverse mapping of R65, and every address lies below `BUFSIZE` (R69). -/
def Obligations.PixelAddressIsBijection : Prop :=
  ∀ (cfg : Config) (g : Geometry), g.ok cfg →
    (∀ x y : Int, g.inDisplay x y → g.pixelByte x y < g.bufSize ∧
      ∃ b, b ≤ 7 ∧ pixelMask x = 1#8 <<< b ∧ g.pixelAt (g.pixelByte x y) b = (x.toNat, y.toNat)) ∧
    (∀ a b : Nat, a < g.bufSize → b ≤ 7 →
      g.inDisplay (g.pixelAt a b).1 (g.pixelAt a b).2 ∧
      g.pixelByte (g.pixelAt a b).1 (g.pixelAt a b).2 = a ∧ pixelMask (g.pixelAt a b).1 = 1#8 <<< b)

/-- The graphics modes: their codes, and the new bit from the existing bit `e` and the requested bit `v`
(R122). -/
def Obligations.ModeTable : Prop :=
  ([Mode.normal, .inverse, .toggle, .or, .nor].map Mode.code = [0, 1, 2, 3, 4]) ∧
  ∀ e v : Bool, combine .normal e v = v ∧ combine .inverse e v = !v ∧ combine .toggle e v = (e ^^ true) ∧
    combine .or e v = (e || v) ∧ combine .nor e v = !(e || v)

/-- WRITEPIXEL on a pixel of the display executes, combines the requested bit into that pixel and changes
no other pixel, no other byte and nothing outside the buffer (R120, R123, R128). -/
def Obligations.WritePixelOnDisplay : Prop :=
  ∀ (s : State) (x y : Int) (m : Mode) (v : Bool), s.live → s.geom.inDisplay x y →
    ∃ t, exec (.writePixel x y m v) s = .next t ∧ t = { s with buf := t.buf } ∧
      t.buf.epoch = s.buf.epoch ∧ t.getPixel x y = combine m (s.getPixel x y) v ∧
      (∀ x' y', s.geom.inDisplay x' y' → (x', y') ≠ (x, y) → t.getPixel x' y' = s.getPixel x' y') ∧
      ∀ a, a ≠ s.geom.pixelByte x y → t.byteAt a = s.byteAt a

/-- WRITEPIXEL off the display executes and changes nothing (R121). -/
def Obligations.WritePixelOffDisplay : Prop :=
  ∀ (s : State) (x y : Int) (m : Mode) (v : Bool), s.sticky.fault = false → ¬ s.geom.inDisplay x y →
    exec (.writePixel x y m v) s = .next s

/-- CLEARSCREEN executes, stores the fill byte at every address below `BUFSIZE` and changes nothing else
(R124). -/
def Obligations.ClearScreenFillsBuffer : Prop :=
  ∀ (s : State) (normal : Bool), s.sticky.fault = false →
    ∃ t, exec (.clearScreen normal) s = .next t ∧ t = { s with buf := t.buf } ∧
      t.buf.epoch = s.buf.epoch ∧
      (∀ a, a < s.geom.bufSize → t.byteAt a = if normal then 0x00 else 0xFF) ∧
      ∀ a, s.geom.bufSize ≤ a → t.byteAt a = s.byteAt a

/-- CHANGEDMD with a grid that fits executes: the geometry is the new one, `PHASE` and `CURSOR` are 0,
every byte of the buffer is unspecified afresh (in the model: it reads as the free value of a new epoch,
notes/assumptions/1.md), and nothing else changes (R125). -/
def Obligations.ChangeDmdResizes : Prop :=
  ∀ (s : State) (w h : Byte), s.sticky.fault = false → s.scan = [] →
    1 ≤ w.toNat → 1 ≤ h.toNat → w.toNat * h.toNat ≤ s.env.cfg.tMax.toNat →
    ∃ t, exec (.changeDmd w h) s = .next t ∧ t.geom.w = w ∧ t.geom.h = h ∧
      t.geom.t.toNat = w.toNat * h.toNat ∧ t.regs = { s.regs with phase := 0, cursor := 0 } ∧
      (∀ a, t.byteAt a = unwrittenByte (s.buf.epoch + 1) a) ∧
      t = { s with geom := t.geom, regs := t.regs, buf := t.buf }

/-- CHANGEDMD with a grid that is empty or does not fit sets `STATUS.FAULT` and changes no other state;
with one that fits it leaves `STATUS.FAULT` 0 (R126). -/
def Obligations.ChangeDmdFailureSetsOnlyFault : Prop :=
  ∀ (s : State) (w h : Byte), s.sticky.fault = false → s.scan = [] →
    ((w.toNat = 0 ∨ h.toNat = 0 ∨ s.env.cfg.tMax.toNat < w.toNat * h.toNat) →
      exec (.changeDmd w h) s = .next (s.refuse .fault)) ∧
    (¬ (w.toNat = 0 ∨ h.toNat = 0 ∨ s.env.cfg.tMax.toNat < w.toNat * h.toNat) →
      ∃ t, exec (.changeDmd w h) s = .next t ∧ t.sticky.fault = false)

/-- Reconfiguration against scan, outside the FAULT condition: CHANGEDMD executed or accepted while a scan
is in progress is a fault, and so is a scan that starts, with the bus free, while CHANGEDMD executes (R85). -/
def Obligations.ReconfigurationAgainstScanFaults : Prop :=
  (∀ (s : State) (w h : Byte), s.sticky.fault = false → s.scan ≠ [] →
    exec (.changeDmd w h) s = .fault .reconfigDuringScan ∧
    startCommand (.changeDmd w h) s = .error .reconfigDuringScan) ∧
  (∀ (s : State) (d : DrawProgress), s.sticky.fault = false → s.env.resetHeld = false →
    s.env.busBusy = false → s.scan = [] → s.draw = some d → (∃ i, d.cmd = some i ∧ isReconfig i = true) →
    applyInput .scanRequest s = .error .scanDuringReconfig)

/-! ### Shapes (41_shapes.md) -/

/-- DRAWLINE, DRAWCIRCLE, DRAWBOX and DRAWFILLEDBOX execute and paint exactly their points, each once for
each time it occurs, with requested bit 1, clipped pixel by pixel; nothing outside the buffer changes (R140,
R141, R144, R147, R149). One part of the two box clauses is the model's choice (notes/assumptions/22.md): where
the parameter `segmentEndsAgain` is set, as it is after reset, a box of one row or one column that is not a
single point has its two end points written once more, after the points of its procedure. The spec gives both
three and four writes of these points; that the model takes four, and where the fourth comes, is its own. -/
def Obligations.ShapesPaintTheirPoints : Prop :=
  ∀ (s : State) (m : Mode), s.live →
    (∀ x1 y1 x2 y2, ∃ t, exec (.drawLine x1 y1 x2 y2 m) s = .next t ∧
      Painted m (linePoints x1 y1 x2 y2) s t) ∧
    (∀ cx cy r, ∃ t, exec (.drawCircle cx cy r m) s = .next t ∧ Painted m (circlePoints cx cy r) s t) ∧
    (∀ x1 y1 x2 y2, ∃ t, exec (.drawBox x1 y1 x2 y2 m) s = .next t ∧
      Painted m (drawBoxPoints s.env.cfg.segmentEndsAgain x1 y1 x2 y2) s t) ∧
    (∀ x1 y1 x2 y2, ∃ t, exec (.drawFilledBox x1 y1 x2 y2 m) s = .next t ∧
      Painted m (drawFilledBoxPoints s.env.cfg.segmentEndsAgain s.geom x1 y1 x2 y2) s t)

/-- A line: as many points as its longer side plus 1, no point twice, from the canonical start point to
the canonical end point, the same sequence for both orders of the end points; and between the ends the
`k`-th point is `k` steps along the longer side and the nearest point across it, on a tie the one nearer the
canonical end point (R142, R143). -/
def Obligations.LinePointSequence : Prop :=
  ∀ x1 y1 x2 y2 : Int,
    (linePoints x1 y1 x2 y2).length = max (x2 - x1).natAbs (y2 - y1).natAbs + 1 ∧
    (linePoints x1 y1 x2 y2).Nodup ∧ linePoints x2 y2 x1 y1 = linePoints x1 y1 x2 y2 ∧
    (x1 < x2 ∨ (x1 = x2 ∧ y1 ≤ y2) →
      (linePoints x1 y1 x2 y2).head? = some (x1, y1) ∧ (linePoints x1 y1 x2 y2).getLast? = some (x2, y2) ∧
      let dx := x2 - x1
      let dy := |y2 - y1|
      let sy : Int := if y2 < y1 then -1 else 1
      ∀ k : Nat, k ≤ max (x2 - x1).natAbs (y2 - y1).natAbs →
        (linePoints x1 y1 x2 y2)[k]? = some
          (if dy < dx then (x1 + k, y1 + sy * ((2 * dy * k + dx) / (2 * dx)))
           else (x1 + (2 * dx * k + dy) / (2 * dy), y1 + sy * k)))

/-- A circle: no point twice; nothing for a negative radius, one point for radius 0; the offsets are closed under
the quarter turn and both reflections in the axes; they contain the four axis points; and in the octant
between an axis and a diagonal they are exactly the midpoint circle, in each column the row nearest the
radius (R145, R146). -/
def Obligations.CirclePointSymmetry : Prop :=
  ∀ cx cy r : Int,
    (circlePoints cx cy r).Nodup ∧
    (r < 0 → circlePoints cx cy r = []) ∧ (r = 0 → circlePoints cx cy r = [(cx, cy)]) ∧
    (∀ u v : Int, (cx + u, cy + v) ∈ circlePoints cx cy r →
      (cx - v, cy + u) ∈ circlePoints cx cy r ∧ (cx - u, cy + v) ∈ circlePoints cx cy r ∧
      (cx + u, cy - v) ∈ circlePoints cx cy r) ∧
    (0 ≤ r → (cx, cy + r) ∈ circlePoints cx cy r ∧ (cx, cy - r) ∈ circlePoints cx cy r ∧
      (cx + r, cy) ∈ circlePoints cx cy r ∧ (cx - r, cy) ∈ circlePoints cx cy r) ∧
    (0 < r → ∀ u v : Int, 0 ≤ u → u ≤ v → ((cx + u, cy + v) ∈ circlePoints cx cy r ↔
      4 * u ^ 2 + (2 * v - 1) ^ 2 ≤ 4 * r ^ 2 ∧ 4 * r ^ 2 < 4 * u ^ 2 + (2 * v + 1) ^ 2))

/-- A box: its points are the outline of the normalised rectangle. Of a box with two different rows and
columns each corner occurs twice and every other outline point once; a single point occurs four times; of a
segment every inner point occurs twice and each end point three times. Any corner order gives the same
sequence (R148, R152). The last clause is the model's choice (notes/assumptions/22.md): DRAWBOX writes these
points and, with the parameter for the contradiction of R148 and R152 (c), each end point of a segment once more,
so four times. -/
def Obligations.BoxPointsAreTheOutline : Prop :=
  ∀ x1 y1 x2 y2 : Int,
    let ps := boxPoints x1 y1 x2 y2
    (∀ x y : Int, (x, y) ∈ ps ↔
      (min x1 x2 ≤ x ∧ x ≤ max x1 x2 ∧ min y1 y2 ≤ y ∧ y ≤ max y1 y2) ∧
        (x = x1 ∨ x = x2 ∨ y = y1 ∨ y = y2)) ∧
    (∀ p ∈ ps, ps.count p =
      if x1 ≠ x2 ∧ y1 ≠ y2 then (if (p.1 = x1 ∨ p.1 = x2) ∧ (p.2 = y1 ∨ p.2 = y2) then 2 else 1)
      else if x1 = x2 ∧ y1 = y2 then 4
      else if p = (x1, y1) ∨ p = (x2, y2) then 3 else 2) ∧
    boxPoints x2 y2 x1 y1 = ps ∧ boxPoints x1 y2 x2 y1 = ps ∧
    ∀ (again : Bool) (p : Point), (drawBoxPoints again x1 y1 x2 y2).count p =
      if again = true ∧ ((x1 = x2 ∧ y1 ≠ y2) ∨ (x1 ≠ x2 ∧ y1 = y2)) ∧ (p = (x1, y1) ∨ p = (x2, y2)) then 4
      else ps.count p

/-- DRAWFILLEDBOX executes, in NORMAL mode sets every pixel of the display inside the rectangle and leaves every
other pixel; in every mode a box with two different rows and columns writes its corners twice, every other
pixel of the outline and every pixel of the interior once and no other, so that in TOGGLE mode the corners end
unchanged; nothing outside the buffer changes (R149, R152, R153). -/
def Obligations.FilledBoxFillsRectangle : Prop :=
  ∀ (s : State) (x1 y1 x2 y2 : Int), s.live →
    let inside := fun x y : Int => min x1 x2 ≤ x ∧ x ≤ max x1 x2 ∧ min y1 y2 ≤ y ∧ y ≤ max y1 y2
    (∃ t, exec (.drawFilledBox x1 y1 x2 y2 .normal) s = .next t ∧ t = { s with buf := t.buf } ∧
      (∀ x y, s.geom.inDisplay x y → t.getPixel x y = (decide (inside x y) || s.getPixel x y)) ∧
      ∀ a, s.geom.bufSize ≤ a → t.byteAt a = s.byteAt a) ∧
    (x1 ≠ x2 → y1 ≠ y2 → ∀ m, ∃ t, exec (.drawFilledBox x1 y1 x2 y2 m) s = .next t ∧
      t = { s with buf := t.buf } ∧
      (∀ x y, s.geom.inDisplay x y → t.getPixel x y =
        if inside x y then
          if (x = x1 ∨ x = x2) ∧ (y = y1 ∨ y = y2) then combine m (combine m (s.getPixel x y) true) true
          else combine m (s.getPixel x y) true
        else s.getPixel x y) ∧
      ∀ a, s.geom.bufSize ≤ a → t.byteAt a = s.byteAt a)

/-- DRAWBOX and DRAWFILLEDBOX of one row or one column in TOGGLE mode execute and leave the picture as it is
(R147, R149, R152), on a machine that takes R152 (c) for a segment, as the one after reset does; that it takes R152
(c) and not the three writes of the four edges is the model's choice (notes/assumptions/22.md). A single point
needs no such choice. -/
def Obligations.DegenerateBoxTogglesNothing : Prop :=
  State.reset.env.cfg.segmentEndsAgain = true ∧
  ∀ (s : State) (x1 y1 x2 y2 : Int), s.live → (x1 = x2 ∨ y1 = y2) →
    (s.env.cfg.segmentEndsAgain = true ∨ (x1 = x2 ∧ y1 = y2)) →
    (∃ t, exec (.drawBox x1 y1 x2 y2 .toggle) s = .next t ∧ t = { s with buf := t.buf } ∧ samePicture s t) ∧
    (∃ t, exec (.drawFilledBox x1 y1 x2 y2 .toggle) s = .next t ∧ t = { s with buf := t.buf } ∧ samePicture s t)

/-- DRAWTESTPATTERN executes, gives every pixel of the display the bit of the pattern whatever it was, and
changes nothing else (R150). -/
def Obligations.TestPatternPicture : Prop :=
  ∀ (s : State) (p : BitVec 2), s.live →
    ∃ t, exec (.drawTestPattern p) s = .next t ∧ t = { s with buf := t.buf } ∧
      (∀ x y : Nat, s.geom.inDisplay x y → t.getPixel x y =
        if p = 0 then decide ((x + y) % 2 = 1) else if p = 1 then decide ((x + y) % 2 = 0)
        else if p = 2 then decide (x % 2 = 1) else decide (x % 2 = 0)) ∧
      ∀ a, s.geom.bufSize ≤ a → t.byteAt a = s.byteAt a

/-! ### Glyphs (42_glyph.md) -/

/-- SELECTFONT executes, stores the reference and the valid bit, and changes nothing else (R177). -/
def Obligations.SelectFontStoresReference : Prop :=
  ∀ (s : State) (addr : Word), s.sticky.fault = false →
    exec (.selectFont addr) s = .next { s with font := { addr := addr, sel := true } }

/-- CHARWIDTH with a font selected executes and puts in `RES` the width: 0 out of the font's range (which
is not reduced modulo 256), byte 2 of a fixed-width font, else the byte of the width table; nothing else
changes (R172, R173, R178). -/
def Obligations.CharWidthPutsWidthInRes : Prop :=
  ∀ (s : State) (c : Byte), s.sticky.fault = false → s.font.sel = true →
    let width := if c.toNat < s.fontByte 4 ∨ s.fontByte 4 + s.fontByte 5 ≤ c.toNat then 0
      else if s.fontByte 0 = 0 ∧ s.fontByte 1 = 0 then s.fontByte 2
      else s.fontByte (6 + (c.toNat - s.fontByte 4))
    exec (.charWidth c) s = .next { s with res := BitVec.ofNat 32 width }

/-- DRAWCHAR with a font selected executes, paints the glyph's points, then puts the advance in `RES`;
nothing else changes (R175, R179, R180). -/
def Obligations.DrawCharPaintsGlyph : Prop :=
  ∀ (s : State) (x y : Int) (c : Byte) (m : Mode), s.live → s.font.sel = true →
    let width := charWidth s.fontByte c.toNat
    ∃ u, Painted m (charPoints s.fontByte x y c.toNat) s u ∧
      exec (.drawChar x y c m) s =
        .next { u with res := BitVec.ofNat 32 (if width = 0 then 0 else width + s.charGap) }

/-- DRAWSTRING with a font selected executes and paints the points of its `length` characters read from
resource memory; `RES` and everything else outside the buffer is unchanged (R181, R182). -/
def Obligations.DrawStringPaintsText : Prop :=
  ∀ (s : State) (x y : Int) (addr : Word) (n : BitVec 16) (m : Mode), s.live → s.font.sel = true →
    ∃ t, exec (.drawString x y addr n m) s = .next t ∧
      Painted m (stringPoints s.charGap s.fontByte y x
        ((List.range n.toNat).map fun i => (s.romRead (addr.toNat + i)).toNat)) s t

/-- A glyph's points, from the bytes of the font: the width of the character, the offset of its data and the
page and bit of each of its pixels are written out; the pixel of column `col`, row `row` is written exactly when
that bit is set, and no pixel is written twice (R172, R173, R174, R176, R179). -/
def Obligations.GlyphPointsAreItsSetBits : Prop :=
  ∀ (F : Nat → Nat) (x y : Int) (c : Nat),
    let h := F 3
    let nb := (h + 7) / 8
    let g := c - F 4
    let fixed := F 0 = 0 ∧ F 1 = 0
    let w := if c < F 4 ∨ F 4 + F 5 ≤ c then 0 else if fixed then F 2 else F (6 + g)
    let base := if fixed then 6 + g * nb * w else 6 + F 5 + nb * ((List.range g).map fun j => F (6 + j)).sum
    (charPoints F x y c).Nodup ∧
    ∀ px py : Int, (px, py) ∈ charPoints F x y c ↔
      ∃ col row : Nat, col < w ∧ row < h ∧ px = x + col ∧ py = y + row ∧
        (F (base + col + row / 8 * w)).testBit
          (if 1 < nb ∧ row / 8 = nb - 1 then row - (h - 8) else row % 8) = true

/-- A text is drawn character by character: one character is its glyph at the pen, and a text is its first part
followed by the rest at the pen moved by the sum of the advances, where the advance of a character is 0 for
width 0 and else its width and the gap (R175, R181). -/
def Obligations.StringPenAccumulatesAdvances : Prop :=
  ∀ (gap : Nat) (F : Nat → Nat) (y pen : Int),
    let width := fun c : Nat => if c < F 4 ∨ F 4 + F 5 ≤ c then 0
      else if F 0 = 0 ∧ F 1 = 0 then F 2 else F (6 + (c - F 4))
    stringPoints gap F y pen [] = [] ∧
    (∀ c, stringPoints gap F y pen [c] = charPoints F pen y c) ∧
    (∀ c, advance gap F c = if width c = 0 then 0 else width c + gap) ∧
    (∀ cs, textWidth gap F cs = (cs.map (advance gap F)).sum) ∧
    ∀ cs ds : List Nat, stringPoints gap F y pen (cs ++ ds) =
      stringPoints gap F y pen cs ++ stringPoints gap F y (pen + textWidth gap F cs) ds

/-- CHARWIDTH, DRAWCHAR, DRAWSTRING and DRAWMARQUEE with no font selected set `STATUS.NOFONT` and change
nothing else (R183). -/
def Obligations.NoFontRefusesGlyphCommands : Prop :=
  ∀ s : State, s.sticky.fault = false → s.font.sel = false →
    (∀ c, exec (.charWidth c) s = .next (s.refuse .noFont)) ∧
    (∀ x y c m, exec (.drawChar x y c m) s = .next (s.refuse .noFont)) ∧
    (∀ x y addr n m, exec (.drawString x y addr n m) s = .next (s.refuse .noFont)) ∧
    (∀ addr n left top, exec (.drawMarquee addr n left top) s = .next (s.refuse .noFont))

/-! ### The marquee (43_marquee.md) -/

/-- DRAWMARQUEE with a font selected executes: the first 255 characters at most are copied, `MW` is the sum
of the advances, `MH` the glyph height, the offsets are reduced, the marquee is Active, `STATUS.MTRUNC` is
set if the text was longer; the rendering is painted over what the buffer holds; nothing else changes (R201,
R202, R203, R210). -/
def Obligations.DrawMarqueeStartsMarquee : Prop :=
  ∀ (s : State) (addr : Word) (n : BitVec 16) (left top : Int), s.live → s.font.sel = true →
    ∃ t, exec (.drawMarquee addr n left top) s = .next t ∧
      t.marq.act = true ∧ t.marq.len.toNat = min n.toNat 255 ∧
      t.marq.view = s.newMarquee addr n left top ∧
      (∀ i, min n.toNat 255 ≤ i → t.marq.text.toList[i]? = s.marq.text.toList[i]?) ∧
      t.sticky = (if 255 < n.toNat then s.sticky.set .mTrunc else s.sticky) ∧
      Painted .normal (renderPoints s.charGap s.fontByte s.geom (s.newMarquee addr n left top) s.geom.window)
        { s with marq := t.marq, sticky := t.sticky } t

/-- STEPMARQUEE executes in each of its cases: in Idle it only writes `RES <- 0`; Active it stores the two
reduced offsets, and, if there is text, both extents are positive and an offset changes, the whole picture
becomes the marquee rendered at the new offset whatever it was and `RES` is 1, else `RES` is 0; nothing else
changes (R203, R205). -/
def Obligations.StepMarqueeCases : Prop :=
  ∀ (s : State) (dx dy : Int), s.live →
    let nx := canon (s.marq.ox.toInt + dx) s.marq.mw.toInt
    let ny := canon (s.marq.oy.toInt + dy) s.marq.mh.toInt
    let moved := { s.marq with ox := BitVec.ofInt 32 nx, oy := BitVec.ofInt 32 ny }
    let changed := s.marq.len ≠ 0 ∧ 0 < s.marq.mw.toInt ∧ 0 < s.marq.mh.toInt ∧
      (nx ≠ s.marq.ox.toInt ∨ ny ≠ s.marq.oy.toInt)
    (s.marq.act = false → exec (.stepMarquee dx dy) s = .next { s with res := 0 }) ∧
    (s.marq.act = true → ¬ changed → exec (.stepMarquee dx dy) s = .next { s with marq := moved, res := 0 }) ∧
    (s.marq.act = true → changed →
      ∃ t, exec (.stepMarquee dx dy) s = .next t ∧ t = { s with marq := moved, res := 1, buf := t.buf } ∧
        t.marq.ox.toInt = nx ∧ t.marq.oy.toInt = ny ∧ t.showsFrame ∧
        ∀ a, s.geom.bufSize ≤ a → t.byteAt a = s.byteAt a)

/-- Wrap idempotence: on a blank picture, a marquee started and then stepped by any sequence of steps whose
sums are multiples of its extent shows the picture it started with (R206). -/
def Obligations.MarqueeWrapIdempotence : Prop :=
  ∀ (s : State) (addr : Word) (n : BitVec 16) (left top : Int), s.live → s.font.sel = true →
    (∀ x y, s.geom.inDisplay x y → s.getPixel x y = false) →
    ∃ u, exec (.drawMarquee addr n left top) s = .next u ∧
      ∀ ds : List (Int × Int), u.marq.mw.toInt ∣ (ds.map Prod.fst).sum → u.marq.mh.toInt ∣ (ds.map Prod.snd).sum →
        ∃ t, stepMarquees ds u = .next t ∧ samePicture u t

/-- The frame is the periodic repetition of the text's own bitmap: with the extent measured by the font that
draws it, a pixel of the display is written exactly when the bit of the text bitmap at the column and row
reduced by the extent is set (R204, R207). -/
def Obligations.FrameRepeatsTextBitmap : Prop :=
  ∀ (gap : Nat) (F : Nat → Nat) (g : Geometry) (v : MarqueeView),
    v.mw = textWidth gap F v.text → v.mh = F 3 → 0 < v.mw → 0 < v.mh →
    v.ox = canon v.ox v.mw → v.oy = canon v.oy v.mh →
    ∀ x y : Int, g.inDisplay x y →
      ((x, y) ∈ renderPoints gap F g v g.window ↔
        textBit gap F v.text ((x - v.ox) % v.mw) ((y - v.oy) % v.mh) = true)

/-- STEPSPLITMARQUEE3 executes in both of its cases: with nothing to draw or an empty band it has no effect
at all; else `MOX` moves one column left, in the band every column from the first to the last but one
takes the pixel to its right, the last column shows the marquee, every pixel outside the band and every
register but `MOX` is unchanged (R208). -/
def Obligations.StepSplitMarqueeMovesBand : Prop :=
  ∀ (s : State) (topRow bottomRow startColumn : Int), s.live →
    let v := s.marq.view
    let t0 := max topRow 0
    let b0 := min bottomRow ((s.geom.dh : Int) - 1)
    let c0 := max startColumn 0
    let last := (s.geom.dw : Int) - 1
    let drawn := s.marq.act = true ∧ s.marq.len ≠ 0 ∧ 0 < v.mw ∧ 0 < v.mh
    (¬ (drawn ∧ t0 ≤ b0 ∧ c0 ≤ last) →
      exec (.stepSplitMarquee3 topRow bottomRow startColumn) s = .next s) ∧
    (drawn → t0 ≤ b0 → c0 ≤ last →
      ∃ t, exec (.stepSplitMarquee3 topRow bottomRow startColumn) s = .next t ∧
        t = { s with marq := s.marq.withOx (s.marq.ox.toInt - 1), buf := t.buf } ∧
        (∀ x y, s.geom.inDisplay x y → t.getPixel x y =
          if t0 ≤ y ∧ y ≤ b0 ∧ c0 ≤ x then
            if x < last then s.getPixel (x + 1) y
            else decide ((x, y) ∈ renderPoints s.charGap s.fontByte s.geom v.oneLeft s.geom.window)
          else s.getPixel x y) ∧
        ∀ a, s.geom.bufSize ≤ a → t.byteAt a = s.byteAt a)

/-- The split step is the step of one column left restricted to the band: if the band shows the marquee and
the font has not changed since it was measured, then afterwards the band shows the marquee one column
further left and every other pixel is unchanged (R209). -/
def Obligations.SplitStepEqualsStepOnBand : Prop :=
  ∀ (s : State) (topRow bottomRow startColumn : Int), s.live →
    let v := s.marq.view
    let t0 := max topRow 0
    let b0 := min bottomRow ((s.geom.dh : Int) - 1)
    let c0 := max startColumn 0
    let frame := fun w : MarqueeView => renderPoints s.charGap s.fontByte s.geom w s.geom.window
    s.marq.act = true → s.marq.ok → 0 < v.mw → 0 < v.mh →
    v.mw = textWidth s.charGap s.fontByte v.text → v.mh = s.fontByte 3 →
    t0 ≤ b0 → c0 ≤ (s.geom.dw : Int) - 1 →
    (∀ x y, s.geom.inDisplay x y → t0 ≤ y ∧ y ≤ b0 ∧ c0 ≤ x → s.getPixel x y = decide ((x, y) ∈ frame v)) →
    ∃ t, exec (.stepSplitMarquee3 topRow bottomRow startColumn) s = .next t ∧
      t.marq = s.marq.withOx (s.marq.ox.toInt - 1) ∧
      ∀ x y, s.geom.inDisplay x y → t.getPixel x y =
        if t0 ≤ y ∧ y ≤ b0 ∧ c0 ≤ x then decide ((x, y) ∈ frame v.oneLeft) else s.getPixel x y

/-! ### Scan and brightness (44_scan.md) -/

/-- SCAN with the bus free and no scan in progress executes: it emits `OE(0)`, `SEL` with the two bits of
the phase, one `SHIFT` for each byte of the row group in the order of R236, `LATCH`, `OE(1)`; the output
lines hold the last levels, `PHASE` advances, `CURSOR` is the first byte of its row; the buffer and everything
else is unchanged (R230, R232, R234, R235, R236). -/
def Obligations.ScanEmitsOneRowGroup : Prop :=
  ∀ s : State, s.sticky.fault = false → s.scan = [] → s.scanOnPort = false → s.env.busBusy = false →
    exec .scan s = .next { s with
      regs :=
        { phase := s.regs.phase + 1
          cursor := BitVec.ofNat 16 ((s.regs.phase + 1).toNat * s.geom.rowLen)
          oeGate := true
          selA := s.regs.phase.getLsbD 0
          selB := s.regs.phase.getLsbD 1 }
      trace := s.trace ++ ([.oe false, .sel (s.regs.phase.getLsbD 0) (s.regs.phase.getLsbD 1)] ++
        ((scanAddrs s.geom.rowLen s.regs.phase.toNat).map (fun a => .shift (s.byteAt a)) ++
          [.latch, .oe true])) }

/-- The byte order of one scan: the `SHIFT` events SCAN emits are `4 * ROWLEN`, and the `n`-th of them carries
the byte of row `p + 4 * (3 - n mod 4)` of the buffer, column byte `n div 4` (R236). -/
def Obligations.ScanByteOrder : Prop :=
  ∀ s : State, s.sticky.fault = false → s.scan = [] → s.scanOnPort = false → s.env.busBusy = false →
    ∃ t es, exec .scan s = .next t ∧ t.trace = s.trace ++ es ∧
      (es.filterMap Event.shifted).length = 4 * s.geom.rowLen ∧
      ∀ n, n < 4 * s.geom.rowLen → (es.filterMap Event.shifted)[n]? =
        some (s.byteAt ((s.regs.phase.toNat + 4 * (3 - n % 4)) * s.geom.rowLen + n / 4))

/-- A scan cycle: four performed scans in a row activate the four phases once each in cyclic order, come
back to the phase they began in, leave the buffer alone and between them load every byte of the buffer
exactly once (R239). -/
def Obligations.FourScansCoverTheBuffer : Prop :=
  (∀ rowLen : Nat, List.Perm ((List.range 4).flatMap (scanAddrs rowLen)) (List.range (16 * rowLen))) ∧
  ∀ s : State, s.sticky.fault = false → s.scan = [] → s.scanOnPort = false → s.env.busBusy = false →
    ∃ t, scans 4 s = .next t ∧ t.regs.phase = s.regs.phase ∧ t.buf = s.buf ∧ ∃ es, t.trace = s.trace ++ es ∧
      es.filterMap Event.selected =
        (List.range 4).map (fun k => ((s.regs.phase + BitVec.ofNat 2 k).getLsbD 0,
          (s.regs.phase + BitVec.ofNat 2 k).getLsbD 1)) ∧
      List.Perm (es.filterMap Event.shifted)
        ((List.range s.geom.bufSize).map s.byteAt)

/-- A SCAN packet that finds the bus busy, a scan in the FAULT condition and a scan request while a scan is in
progress change nothing and emit nothing; a scan request that finds the bus busy makes `SBUSY` 1 and, when
that scan ends at its next micro-step, has changed nothing and emitted nothing (R233, R238, R245, R246; how
long `SBUSY` stays 1 is the model's choice, notes/assumptions/23.md). -/
def Obligations.SkippedScansChangeNothing : Prop :=
  (∀ s : State, s.scan = [] → s.scanOnPort = false → s.env.busBusy = true → exec .scan s = .next s) ∧
  (∀ s : State, s.sticky.fault = true → exec .scan s = .next s ∧ applyInput .scanRequest s = .ok s) ∧
  (∀ s : State, s.scan ≠ [] → applyInput .scanRequest s = .ok s) ∧
  ∀ s : State, s.sticky.fault = false → s.env.resetHeld = false → s.scan = [] → s.scanOnPort = false →
    s.reconfiguring = false → s.env.busBusy = true →
    ∃ u, applyInput .scanRequest s = .ok u ∧ u = { s with scan := u.scan } ∧ u.sBusy = true ∧
      applyInput .scanStep u = .ok s

/-- SCAN as a packet while a scan is still in progress is that scan run to its end and then the packet's own
(the model's choice where the spec is silent: notes/assumptions/6.md). -/
def Obligations.ScanPacketWaitsForScan : Prop :=
  ∀ s u : State, s.sticky.fault = false → s.finishScan = .ok u → exec .scan s = exec .scan u ∧ u.scan = []

/-- SETBRIGHTNESS executes, stores the value and changes nothing else (R242). -/
def Obligations.SetBrightnessStoresValue : Prop :=
  ∀ (s : State) (v : Byte), s.sticky.fault = false → exec (.setBrightness v) s = .next { s with bright := v }

/-- The output-enable gate: with `OEGATE = 0` the output is off; with `OEGATE = 1` it is on exactly while
`PWMCNT < BRIGHT`, so for `BRIGHT` of the 256 counts, whatever the buffer holds (R243, R244). -/
def Obligations.BrightnessIsDutyCycle : Prop :=
  ∀ s : State,
    (s.regs.oeGate = false → s.oeOut = false) ∧
    (s.regs.oeGate = true → (s.oeOut = true ↔ s.pwmCnt.toNat < s.bright.toNat)) ∧
    (s.regs.oeGate = true → (List.range 256).countP
      (fun n => ({ s with pwmCnt := BitVec.ofNat 8 n } : State).oeOut) = s.bright.toNat)

/-- A PWM tick advances the free-running counter modulo 256 and nothing else, in the FAULT condition too
(R29, R264). -/
def Obligations.PwmTickAdvancesCounter : Prop :=
  ∀ (s : State) (rest : List Input), s.env.sched = .pwmTick :: rest → s.env.resetHeld = false →
    ∃ t, step s = .next t ∧ t.pwmCnt.toNat = (s.pwmCnt.toNat + 1) % 256 ∧
      t = { s.withSched rest with pwmCnt := t.pwmCnt }

/-! ### Errors, status, reset (60_exceptions.md, 10_state.md, 70_reset_and_hazards.md) -/

/-- In the FAULT condition every command executes as nothing: no state changes (R264, R266). -/
def Obligations.FaultConditionRefusesCommands : Prop :=
  ∀ (i : Instr) (s : State), s.sticky.fault = true → exec i s = .next s

/-- Only reset leaves the FAULT condition: any other step of a block whose engines have nothing but refusals in
progress keeps `FAULT`, every register, the buffer, the outputs and the trace, and the engines still have
nothing but refusals; only the PWM counter, `ILL`, what is in progress, the words on the port and the inputs
can change (R264). -/
def Obligations.OnlyResetLeavesFault : Prop :=
  ∀ s : State, s.refusing → (∀ rest, s.env.sched ≠ .reset true :: rest) →
    ∃ t, step s = .next t ∧ t.refusing ∧
      t = { s with
        env := t.env, pwmCnt := t.pwmCnt, sticky := { s.sticky with ill := t.sticky.ill },
        draw := t.draw, scan := t.scan, scanOnPort := t.scanOnPort }

/-- In the FAULT condition `DBUSY` and `SBUSY` pulse: accepting a packet makes `DBUSY` 1, or `SBUSY` for SCAN, and
when that ends the packet's words are gone and nothing else has changed (R264); that it ends at the engine's
next micro-step is the model's choice (notes/assumptions/23.md). -/
def Obligations.FaultConditionPulsesBusy : Prop :=
  ∀ (s : State) (i : Instr) (rest : List Word), s.ready → s.sticky.fault = true → s.scan = [] →
    decodePacket s.env.port = .packet i rest →
    ∃ u, acceptPacket s = .ok u ∧
      (i ≠ .scan → u.dBusy = true ∧ drawAdvance u = .ok (s.withPort rest)) ∧
      (i = .scan → u.sBusy = true ∧ scanAdvance u = .ok (s.withPort rest))

/-- The sticky bits are cleared by nothing but reset: any other step keeps each one that is set (R263). -/
def Obligations.StickyBitsStaySet : Prop :=
  ∀ (s t : State) (f : Flag), (∀ rest, s.env.sched ≠ .reset true :: rest) → step s = .next t →
    s.sticky.get f = true → t.sticky.get f = true

/-- The `STATUS` output: each sticky and live bit at its place, the reserved bits 0 (R40). -/
def Obligations.StatusLayout : Prop :=
  ∀ s : State,
    s.status.getLsbD 0 = s.sticky.fault ∧ s.status.getLsbD 1 = s.sticky.ill ∧
    s.status.getLsbD 2 = s.sticky.noFont ∧ s.status.getLsbD 3 = s.sticky.mTrunc ∧
    s.status.getLsbD 8 = s.draw.isSome ∧ s.status.getLsbD 9 = decide (s.scan ≠ []) ∧
    s.status.getLsbD 10 = s.marq.act ∧ s.status.getLsbD 11 = s.font.sel ∧
    (∀ k, 4 ≤ k → k < 8 → s.status.getLsbD k = false) ∧ ∀ k, 12 ≤ k → s.status.getLsbD k = false

/-- Reset, at power-on and as an input at any step: every element that R55 gives a value has it, both
engines are idle whatever was in progress, the trace is empty; and while reset stays asserted, packets and scan
requests are ignored (R55, R280, R281). Of the last clause it is the model's choice (notes/assumptions/11.md) that
a word presented then is dropped and that words already on the port stay there. -/
def Obligations.ResetGivesTableValues : Prop :=
  (State.reset.geom = { w := 1, h := 1, t := 1 }) ∧
  (∀ (s t : State) (rest : List Input),
    (t = State.reset ∨ (s.env.sched = .reset true :: rest ∧ step s = .next t)) →
    t.geom = { w := t.env.cfg.resetW, h := t.env.cfg.resetH, t := t.env.cfg.resetW * t.env.cfg.resetH } ∧
    t.regs = { phase := 0, cursor := 0, oeGate := false, selA := false, selB := false } ∧
    t.pwmCnt = 0 ∧ t.font.sel = false ∧ t.marq.act = false ∧ t.marq.len = 0 ∧ t.marq.mw = 0 ∧
    t.marq.mh = 0 ∧ t.marq.ox = 0 ∧ t.marq.oy = 0 ∧ t.status = 0 ∧ t.res = 0 ∧ t.draw = none ∧
    t.scan = [] ∧ t.scanOnPort = false ∧ t.trace = [] ∧ (t = State.reset ∨ t.env.resetHeld = true)) ∧
  ∀ s : State, s.env.resetHeld = true →
    (∀ w, applyInput (.send w) s = .ok s) ∧ applyInput .accept s = .ok s ∧ applyInput .scanRequest s = .ok s ∧
    (s.env.sched = [] → step s = .next s)

/-- The invariant holds right after reset. -/
def Obligations.ResetMeetsInvariant : Prop := State.reset.Inv

/-- Every step keeps the invariant. The buffer is canonical and holds no byte that does not exist; once the
command and the scan in progress have ended, and so at once when both engines are idle, the geometry
registers agree and fit the RAM, `CURSOR` is the first byte of row `PHASE`, and the marquee offsets are
canonical; a scan that holds the port is in progress; only CHANGEDMD has writes to the geometry left, and
then no scan is in progress (R23, R24, R27, R69, R82, R85, R203). -/
def Obligations.StepKeepsInvariant : Prop :=
  ∀ s t : State, s.Inv → step s = .next t → t.Inv

/-! ### The whole machine -/

/-- Every command completes: on a legal geometry and with no scan in progress, executing any command answers
a next state; so no drawing ever leaves the buffer (R69, R267). -/
def Obligations.EveryCommandCompletes : Prop :=
  ∀ (i : Instr) (s : State), s.geomOk → s.scan = [] → ∃ t, exec i s = .next t

/-- Which command writes which state. No command changes the surroundings, `PWMCNT`, the draw engine or `ILL`;
only CHANGEDMD the geometry, the epoch of the buffer and `FAULT`; only CHANGEDMD and SCAN the scan registers,
and the outputs, the trace and the scan engine only SCAN; `BRIGHT` only SETBRIGHTNESS; the font only
SELECTFONT; the marquee only its three commands; `RES` only CHARWIDTH, DRAWCHAR and STEPMARQUEE; `NOFONT` only the
four commands that need a font, `MTRUNC` only DRAWMARQUEE; and SELECTFONT, CHARWIDTH, SCAN and SETBRIGHTNESS store
nothing in the buffer (R23, R25, R26, R28, R29, R30, R31, R40, R41, R230). -/
def Obligations.CommandsWriteOnlyTheirState : Prop :=
  ∀ (i : Instr) (s t : State), exec i s = .next t →
    t.env = s.env ∧ t.pwmCnt = s.pwmCnt ∧ t.draw = s.draw ∧ t.sticky.ill = s.sticky.ill ∧
    (isReconfig i = false → t.geom = s.geom ∧ t.buf.epoch = s.buf.epoch ∧ t.sticky.fault = s.sticky.fault) ∧
    (isReconfig i = false → i ≠ .scan → t.regs = s.regs) ∧
    (i ≠ .scan → t.trace = s.trace ∧ t.scan = s.scan ∧ t.scanOnPort = s.scanOnPort ∧
      t.regs.oeGate = s.regs.oeGate ∧ t.regs.selA = s.regs.selA ∧ t.regs.selB = s.regs.selB) ∧
    ((∀ v, i ≠ .setBrightness v) → t.bright = s.bright) ∧
    ((∀ a, i ≠ .selectFont a) → t.font = s.font) ∧
    ((∀ a n l p, i ≠ .drawMarquee a n l p) → (∀ dx dy, i ≠ .stepMarquee dx dy) →
      (∀ a b c, i ≠ .stepSplitMarquee3 a b c) → t.marq = s.marq) ∧
    ((∀ c, i ≠ .charWidth c) → (∀ x y c m, i ≠ .drawChar x y c m) →
      (∀ dx dy, i ≠ .stepMarquee dx dy) → t.res = s.res) ∧
    ((∀ c, i ≠ .charWidth c) → (∀ x y c m, i ≠ .drawChar x y c m) → (∀ x y a n m, i ≠ .drawString x y a n m) →
      (∀ a n l p, i ≠ .drawMarquee a n l p) → t.sticky.noFont = s.sticky.noFont) ∧
    ((∀ a n l p, i ≠ .drawMarquee a n l p) → t.sticky.mTrunc = s.sticky.mTrunc) ∧
    ((∃ a, i = .selectFont a) ∨ (∃ c, i = .charWidth c) ∨ i = .scan ∨ (∃ v, i = .setBrightness v) →
      t.buf = s.buf)

/-- The block cannot write resource memory or change its parameters: no step does (R52, R70, R71, R84). -/
def Obligations.StepKeepsResourceMemory : Prop :=
  ∀ s t : State, step s = .next t → t.env.rom = s.env.rom ∧ t.env.cfg = s.env.cfg

/-- Executing a command whole is one of the interleavings: accepting its packet and letting the draw engine
perform its micro-steps one by one ends in the same state, with the draw engine idle (R50, R51, R80). -/
def Obligations.MicroStepsReachCommandResult : Prop :=
  ∀ (s t : State) (i : Instr) (rest : List Word), s.ready → i ≠ .scan →
    decodePacket s.env.port = .packet i rest → exec i (s.withPort rest) = .next t →
    t.draw = none ∧ ∃ u n, acceptPacket s = .ok u ∧ drawSteps n u = .ok t

/-- Executing SCAN whole is one of the interleavings: accepting its packet and letting the scan engine perform
its micro-steps one by one ends in the same state, with the scan engine idle (R50, R51, R82, R234). -/
def Obligations.MicroStepsReachScanResult : Prop :=
  ∀ (s t : State) (rest : List Word), s.ready → s.scan = [] →
    decodePacket s.env.port = .packet .scan rest → exec .scan (s.withPort rest) = .next t →
    t.scan = [] ∧ ∃ u n, acceptPacket s = .ok u ∧ scanSteps n u = .ok t

/-- A scan request on the scan port, with the scan engine idle, the bus free, no FAULT and no CHANGEDMD in
progress, starts a scan, whatever drawing command is in progress: `SBUSY` is 1, nothing else has changed, and the
scan engine's micro-steps reach the state SCAN reaches (R104, R231, R232, R234). -/
def Obligations.ScanRequestReachesScanResult : Prop :=
  ∀ s : State, s.sticky.fault = false → s.env.resetHeld = false → s.env.busBusy = false → s.scan = [] →
    s.scanOnPort = false → s.reconfiguring = false →
    ∃ u t n, applyInput .scanRequest s = .ok u ∧ u = { s with scan := u.scan } ∧ u.sBusy = true ∧
      exec .scan s = .next t ∧ t.trace ≠ s.trace ∧ t.scan = [] ∧ scanSteps n u = .ok t

/-- What a drawing command leaves in the buffer does not depend on the interleaving: with whatever scan
requests, scan micro-steps, `bus_busy` levels and PWM ticks in between, the draw engine's micro-steps alone
reach the same buffer and the same registers of the draw engine (R80, R81). -/
def Obligations.InterleavingKeepsDrawing : Prop :=
  ∀ (s t : State) (es : List Input), s.env.resetHeld = false → (∀ e ∈ es, e.duringCommand = true) →
    applyInputs es s = .ok t →
    ∃ u, applyInputs (es.filter (fun e => decide (e = .drawStep))) s = .ok u ∧
      t.buf = u.buf ∧ t.geom = u.geom ∧ t.marq = u.marq ∧ t.font = u.font ∧ t.bright = u.bright ∧
      t.res = u.res ∧ t.sticky = u.sticky ∧ t.draw = u.draw
end

