-- ==== Sys2Proof/Laws/Decode.lean ====
section
/-! SUPPORT. The fields of the words the encoder writes: what the decoder reads from each (R91, R93). -/

namespace Sys2Proof.Laws

theorem opBits_word0 (op : Opcode) (m : BitVec 3) (imm : BitVec 16) : opBits (word0 op m imm) = op.byte := by
  apply BitVec.eq_of_getLsbD_eq
  intro i hi
  simp only [opBits, word0, BitVec.getLsbD_extractLsb', BitVec.getLsbD_append]
  rw [if_neg (by omega), show 24 + i - (5 + (3 + 16)) = i by omega]
  simp [hi]

theorem rsvBits_word0 (op : Opcode) (m : BitVec 3) (imm : BitVec 16) : rsvBits (word0 op m imm) = 0 := by
  apply BitVec.eq_of_getLsbD_eq
  intro i hi
  simp only [rsvBits, word0, BitVec.getLsbD_extractLsb', BitVec.getLsbD_append]
  rw [if_pos (by omega), if_neg (by omega)]
  simp

theorem modeBits_word0 (op : Opcode) (m : BitVec 3) (imm : BitVec 16) : modeBits (word0 op m imm) = m := by
  apply BitVec.eq_of_getLsbD_eq
  intro i hi
  simp only [modeBits, word0, BitVec.getLsbD_extractLsb', BitVec.getLsbD_append]
  rw [if_pos (by omega), if_pos (by omega), if_neg (by omega)]
  simp [hi]

theorem immBits_word0 (op : Opcode) (m : BitVec 3) (imm : BitVec 16) : immBits (word0 op m imm) = imm := by
  apply BitVec.eq_of_getLsbD_eq
  intro i hi
  simp only [immBits, word0, BitVec.getLsbD_extractLsb', BitVec.getLsbD_append]
  rw [if_pos (by omega), if_pos (by omega), if_pos (by omega)]
  simp [hi]

theorem loHalf_append (a b : BitVec 16) : loHalf (a ++ b) = b := by
  apply BitVec.eq_of_getLsbD_eq
  intro i hi
  simp only [loHalf, BitVec.getLsbD_extractLsb', BitVec.getLsbD_append]
  rw [if_pos (by omega)]
  simp [hi]

theorem hiHalf_append (a b : BitVec 16) : hiHalf (a ++ b) = a := by
  apply BitVec.eq_of_getLsbD_eq
  intro i hi
  simp only [hiHalf, BitVec.getLsbD_extractLsb', BitVec.getLsbD_append]
  rw [if_neg (by omega)]
  simp [hi]

theorem loHalf_pairWord (lo hi : Int) : loHalf (pairWord lo hi) = field16 lo := loHalf_append _ _

theorem hiHalf_pairWord (lo hi : Int) : hiHalf (pairWord lo hi) = field16 hi := hiHalf_append _ _

/-- A signed operand in range survives its field (R12). -/
theorem sext16_field16 {v : Int} (h : inS16 v = true) : sext16 (field16 v) = v := by
  have h : -32768 ≤ v ∧ v ≤ 32767 := by simpa [inS16] using h
  simp only [sext16, field16, BitVec.toInt_ofInt]
  exact Int.bmod_eq_of_le (by omega) (by omega)

/-- What a field reads as is in range (R12). -/
theorem inS16_sext16 (v : BitVec 16) : inS16 (sext16 v) = true := by
  have h1 := BitVec.le_toInt v
  have h2 := BitVec.toInt_lt (x := v)
  norm_num at h1 h2
  exact decide_eq_true ⟨h1, by simp only [sext16]; omega⟩

theorem ofByte_byte (op : Opcode) : Opcode.ofByte op.byte = some op := by cases op <;> decide

theorem ofCode_code (m : Mode) : Mode.ofCode m.code = some m := by cases m <;> decide

/-- A packet written by the encoder has the length its word 0 announces (R90). -/
theorem packetWords_word0 (op : Opcode) (m : BitVec 3) (imm : BitVec 16) :
    packetWords (word0 op m imm) = op.format.words := by
  simp only [packetWords, opBits_word0, ofByte_byte]

/-- The decoder reaches the operands of a word the encoder wrote. -/
theorem decodeWords_word0 (op : Opcode) (m : BitVec 3) (imm : BitVec 16) (w1 w2 : Word) :
    decodeWords (word0 op m imm) w1 w2 = decodeOperands op (word0 op m imm) w1 w2 := by
  simp only [decodeWords, opBits_word0, ofByte_byte, rsvBits_word0, if_true]

end Sys2Proof.Laws
end

