-- ==== Sys2Proof/Laws/State.lean ====
section
/-! SUPPORT. What each named update of the state leaves in each field: one lemma per field per update. -/

namespace Sys2Proof.Laws

open Sys2Proof.Machine

/-! ### `State.putByte` -/

@[simp] theorem putByte_env (s : State) (a : Nat) (v : Byte) : (s.putByte a v).env = s.env := rfl
@[simp] theorem putByte_geom (s : State) (a : Nat) (v : Byte) : (s.putByte a v).geom = s.geom := rfl
@[simp] theorem putByte_buf (s : State) (a : Nat) (v : Byte) : (s.putByte a v).buf = { s.buf with cells := memPut s.buf.cells a v } := rfl
@[simp] theorem putByte_bright (s : State) (a : Nat) (v : Byte) : (s.putByte a v).bright = s.bright := rfl
@[simp] theorem putByte_regs (s : State) (a : Nat) (v : Byte) : (s.putByte a v).regs = s.regs := rfl
@[simp] theorem putByte_pwmCnt (s : State) (a : Nat) (v : Byte) : (s.putByte a v).pwmCnt = s.pwmCnt := rfl
@[simp] theorem putByte_font (s : State) (a : Nat) (v : Byte) : (s.putByte a v).font = s.font := rfl
@[simp] theorem putByte_marq (s : State) (a : Nat) (v : Byte) : (s.putByte a v).marq = s.marq := rfl
@[simp] theorem putByte_sticky (s : State) (a : Nat) (v : Byte) : (s.putByte a v).sticky = s.sticky := rfl
@[simp] theorem putByte_res (s : State) (a : Nat) (v : Byte) : (s.putByte a v).res = s.res := rfl
@[simp] theorem putByte_draw (s : State) (a : Nat) (v : Byte) : (s.putByte a v).draw = s.draw := rfl
@[simp] theorem putByte_scan (s : State) (a : Nat) (v : Byte) : (s.putByte a v).scan = s.scan := rfl
@[simp] theorem putByte_scanOnPort (s : State) (a : Nat) (v : Byte) : (s.putByte a v).scanOnPort = s.scanOnPort := rfl
@[simp] theorem putByte_trace (s : State) (a : Nat) (v : Byte) : (s.putByte a v).trace = s.trace := rfl

/-! ### `State.emit` -/

@[simp] theorem emit_env (s : State) (e : Event) : (s.emit e).env = s.env := rfl
@[simp] theorem emit_geom (s : State) (e : Event) : (s.emit e).geom = s.geom := rfl
@[simp] theorem emit_buf (s : State) (e : Event) : (s.emit e).buf = s.buf := rfl
@[simp] theorem emit_bright (s : State) (e : Event) : (s.emit e).bright = s.bright := rfl
@[simp] theorem emit_regs (s : State) (e : Event) : (s.emit e).regs = s.regs := rfl
@[simp] theorem emit_pwmCnt (s : State) (e : Event) : (s.emit e).pwmCnt = s.pwmCnt := rfl
@[simp] theorem emit_font (s : State) (e : Event) : (s.emit e).font = s.font := rfl
@[simp] theorem emit_marq (s : State) (e : Event) : (s.emit e).marq = s.marq := rfl
@[simp] theorem emit_sticky (s : State) (e : Event) : (s.emit e).sticky = s.sticky := rfl
@[simp] theorem emit_res (s : State) (e : Event) : (s.emit e).res = s.res := rfl
@[simp] theorem emit_draw (s : State) (e : Event) : (s.emit e).draw = s.draw := rfl
@[simp] theorem emit_scan (s : State) (e : Event) : (s.emit e).scan = s.scan := rfl
@[simp] theorem emit_scanOnPort (s : State) (e : Event) : (s.emit e).scanOnPort = s.scanOnPort := rfl
@[simp] theorem emit_trace (s : State) (e : Event) : (s.emit e).trace = s.trace ++ [e] := rfl

/-! ### `State.refuse` -/

@[simp] theorem refuse_env (s : State) (f : Flag) : (s.refuse f).env = s.env := rfl
@[simp] theorem refuse_geom (s : State) (f : Flag) : (s.refuse f).geom = s.geom := rfl
@[simp] theorem refuse_buf (s : State) (f : Flag) : (s.refuse f).buf = s.buf := rfl
@[simp] theorem refuse_bright (s : State) (f : Flag) : (s.refuse f).bright = s.bright := rfl
@[simp] theorem refuse_regs (s : State) (f : Flag) : (s.refuse f).regs = s.regs := rfl
@[simp] theorem refuse_pwmCnt (s : State) (f : Flag) : (s.refuse f).pwmCnt = s.pwmCnt := rfl
@[simp] theorem refuse_font (s : State) (f : Flag) : (s.refuse f).font = s.font := rfl
@[simp] theorem refuse_marq (s : State) (f : Flag) : (s.refuse f).marq = s.marq := rfl
@[simp] theorem refuse_sticky (s : State) (f : Flag) : (s.refuse f).sticky = s.sticky.set f := rfl
@[simp] theorem refuse_res (s : State) (f : Flag) : (s.refuse f).res = s.res := rfl
@[simp] theorem refuse_draw (s : State) (f : Flag) : (s.refuse f).draw = s.draw := rfl
@[simp] theorem refuse_scan (s : State) (f : Flag) : (s.refuse f).scan = s.scan := rfl
@[simp] theorem refuse_scanOnPort (s : State) (f : Flag) : (s.refuse f).scanOnPort = s.scanOnPort := rfl
@[simp] theorem refuse_trace (s : State) (f : Flag) : (s.refuse f).trace = s.trace := rfl

/-! ### `State.withPort` -/

@[simp] theorem withPort_env (s : State) (ws : List Word) : (s.withPort ws).env = { s.env with port := ws } := rfl
@[simp] theorem withPort_geom (s : State) (ws : List Word) : (s.withPort ws).geom = s.geom := rfl
@[simp] theorem withPort_buf (s : State) (ws : List Word) : (s.withPort ws).buf = s.buf := rfl
@[simp] theorem withPort_bright (s : State) (ws : List Word) : (s.withPort ws).bright = s.bright := rfl
@[simp] theorem withPort_regs (s : State) (ws : List Word) : (s.withPort ws).regs = s.regs := rfl
@[simp] theorem withPort_pwmCnt (s : State) (ws : List Word) : (s.withPort ws).pwmCnt = s.pwmCnt := rfl
@[simp] theorem withPort_font (s : State) (ws : List Word) : (s.withPort ws).font = s.font := rfl
@[simp] theorem withPort_marq (s : State) (ws : List Word) : (s.withPort ws).marq = s.marq := rfl
@[simp] theorem withPort_sticky (s : State) (ws : List Word) : (s.withPort ws).sticky = s.sticky := rfl
@[simp] theorem withPort_res (s : State) (ws : List Word) : (s.withPort ws).res = s.res := rfl
@[simp] theorem withPort_draw (s : State) (ws : List Word) : (s.withPort ws).draw = s.draw := rfl
@[simp] theorem withPort_scan (s : State) (ws : List Word) : (s.withPort ws).scan = s.scan := rfl
@[simp] theorem withPort_scanOnPort (s : State) (ws : List Word) : (s.withPort ws).scanOnPort = s.scanOnPort := rfl
@[simp] theorem withPort_trace (s : State) (ws : List Word) : (s.withPort ws).trace = s.trace := rfl

/-! ### `State.withSched` -/

@[simp] theorem withSched_env (s : State) (is : List Input) : (s.withSched is).env = { s.env with sched := is } := rfl
@[simp] theorem withSched_geom (s : State) (is : List Input) : (s.withSched is).geom = s.geom := rfl
@[simp] theorem withSched_buf (s : State) (is : List Input) : (s.withSched is).buf = s.buf := rfl
@[simp] theorem withSched_bright (s : State) (is : List Input) : (s.withSched is).bright = s.bright := rfl
@[simp] theorem withSched_regs (s : State) (is : List Input) : (s.withSched is).regs = s.regs := rfl
@[simp] theorem withSched_pwmCnt (s : State) (is : List Input) : (s.withSched is).pwmCnt = s.pwmCnt := rfl
@[simp] theorem withSched_font (s : State) (is : List Input) : (s.withSched is).font = s.font := rfl
@[simp] theorem withSched_marq (s : State) (is : List Input) : (s.withSched is).marq = s.marq := rfl
@[simp] theorem withSched_sticky (s : State) (is : List Input) : (s.withSched is).sticky = s.sticky := rfl
@[simp] theorem withSched_res (s : State) (is : List Input) : (s.withSched is).res = s.res := rfl
@[simp] theorem withSched_draw (s : State) (is : List Input) : (s.withSched is).draw = s.draw := rfl
@[simp] theorem withSched_scan (s : State) (is : List Input) : (s.withSched is).scan = s.scan := rfl
@[simp] theorem withSched_scanOnPort (s : State) (is : List Input) : (s.withSched is).scanOnPort = s.scanOnPort := rfl
@[simp] theorem withSched_trace (s : State) (is : List Input) : (s.withSched is).trace = s.trace := rfl

/-! ### `State.dropByte` -/

@[simp] theorem dropByte_env (s : State) (a : Nat) : (s.dropByte a).env = s.env := rfl
@[simp] theorem dropByte_geom (s : State) (a : Nat) : (s.dropByte a).geom = s.geom := rfl
@[simp] theorem dropByte_buf (s : State) (a : Nat) : (s.dropByte a).buf = { s.buf with cells := memErase s.buf.cells a } := rfl
@[simp] theorem dropByte_bright (s : State) (a : Nat) : (s.dropByte a).bright = s.bright := rfl
@[simp] theorem dropByte_regs (s : State) (a : Nat) : (s.dropByte a).regs = s.regs := rfl
@[simp] theorem dropByte_pwmCnt (s : State) (a : Nat) : (s.dropByte a).pwmCnt = s.pwmCnt := rfl
@[simp] theorem dropByte_font (s : State) (a : Nat) : (s.dropByte a).font = s.font := rfl
@[simp] theorem dropByte_marq (s : State) (a : Nat) : (s.dropByte a).marq = s.marq := rfl
@[simp] theorem dropByte_sticky (s : State) (a : Nat) : (s.dropByte a).sticky = s.sticky := rfl
@[simp] theorem dropByte_res (s : State) (a : Nat) : (s.dropByte a).res = s.res := rfl
@[simp] theorem dropByte_draw (s : State) (a : Nat) : (s.dropByte a).draw = s.draw := rfl
@[simp] theorem dropByte_scan (s : State) (a : Nat) : (s.dropByte a).scan = s.scan := rfl
@[simp] theorem dropByte_scanOnPort (s : State) (a : Nat) : (s.dropByte a).scanOnPort = s.scanOnPort := rfl
@[simp] theorem dropByte_trace (s : State) (a : Nat) : (s.dropByte a).trace = s.trace := rfl

/-! ### `State.withTotal` -/

@[simp] theorem withTotal_env (s : State) (v : Byte) : (s.withTotal v).env = s.env := rfl
@[simp] theorem withTotal_geom (s : State) (v : Byte) : (s.withTotal v).geom = { s.geom with t := v } := rfl
@[simp] theorem withTotal_buf (s : State) (v : Byte) : (s.withTotal v).buf = { epoch := s.buf.epoch + 1, cells := memBelow s.buf.cells (64 * v.toNat) } := rfl
@[simp] theorem withTotal_bright (s : State) (v : Byte) : (s.withTotal v).bright = s.bright := rfl
@[simp] theorem withTotal_regs (s : State) (v : Byte) : (s.withTotal v).regs = s.regs := rfl
@[simp] theorem withTotal_pwmCnt (s : State) (v : Byte) : (s.withTotal v).pwmCnt = s.pwmCnt := rfl
@[simp] theorem withTotal_font (s : State) (v : Byte) : (s.withTotal v).font = s.font := rfl
@[simp] theorem withTotal_marq (s : State) (v : Byte) : (s.withTotal v).marq = s.marq := rfl
@[simp] theorem withTotal_sticky (s : State) (v : Byte) : (s.withTotal v).sticky = s.sticky := rfl
@[simp] theorem withTotal_res (s : State) (v : Byte) : (s.withTotal v).res = s.res := rfl
@[simp] theorem withTotal_draw (s : State) (v : Byte) : (s.withTotal v).draw = s.draw := rfl
@[simp] theorem withTotal_scan (s : State) (v : Byte) : (s.withTotal v).scan = s.scan := rfl
@[simp] theorem withTotal_scanOnPort (s : State) (v : Byte) : (s.withTotal v).scanOnPort = s.scanOnPort := rfl
@[simp] theorem withTotal_trace (s : State) (v : Byte) : (s.withTotal v).trace = s.trace := rfl

end Sys2Proof.Laws
end

