-- ==== Sys2Proof/Laws/Memory.lean ====
section
/-! SUPPORT. Memory: a read after a write, the canonical form, and what a load or a store can do. -/

namespace Sys2Proof.Laws

open Sys2Proof.Machine

theorem memFind_memPut_same (m : Memory) (a : Nat) (v : Byte) : memFind (memPut m a v) a = some v := by
  induction m with
  | nil => simp [memPut, memFind]
  | cons c m ih =>
    simp only [memPut]
    split
    · simp [memFind]
    · split
      · simp [memFind]
      · next h => simp [memFind, Ne.symm h, ih]

theorem memFind_memPut_other (m : Memory) (a b : Nat) (v : Byte) (h : a ≠ b) :
    memFind (memPut m a v) b = memFind m b := by
  induction m with
  | nil => simp [memPut, memFind, h]
  | cons c m ih =>
    simp only [memPut]
    split
    · simp [memFind, h]
    · split
      · next hc => subst hc; simp [memFind, h]
      · simp [memFind, ih]

/-- The addresses a write lists are those listed before and the one written. -/
theorem mem_memPut {m : Memory} {a : Nat} {v : Byte} {c : Host.Cell} (h : c ∈ memPut m a v) :
    c = (a, v) ∨ c ∈ m := by
  induction m with
  | nil => simpa [memPut] using h
  | cons d m ih =>
    simp only [memPut] at h
    split at h
    · simpa using h
    · split at h
      · rcases List.mem_cons.1 h with h | h
        · exact .inl h
        · exact .inr (List.mem_cons_of_mem _ h)
      · rcases List.mem_cons.1 h with h | h
        · exact .inr (h ▸ List.mem_cons_self)
        · exact (ih h).imp id (List.mem_cons_of_mem _)

theorem memFind_memErase_same (m : Memory) (a : Nat) : memFind (memErase m a) a = none := by
  induction m with
  | nil => rfl
  | cons c m ih =>
    by_cases h : c.1 = a
    · simpa [memErase, List.filter_cons, h] using ih
    · simpa [memErase, List.filter_cons, memFind, h] using ih

theorem memFind_memErase_other (m : Memory) (a b : Nat) (h : a ≠ b) : memFind (memErase m a) b = memFind m b := by
  induction m with
  | nil => rfl
  | cons c m ih =>
    by_cases hc : c.1 = a
    · simpa [memErase, List.filter_cons, memFind, hc, h] using ih
    · simp only [memErase, List.filter_cons, bne_iff_ne, ne_eq, hc, not_false_eq_true, if_true, memFind]
      rw [← ih]
      rfl

/-- An erased byte is listed no more, and nothing is listed that was not. -/
theorem mem_memErase {m : Memory} {a : Nat} {c : Host.Cell} : c ∈ memErase m a ↔ c ∈ m ∧ c.1 ≠ a := by
  simp [memErase]

theorem mem_memBelow {m : Memory} {n : Nat} {c : Host.Cell} : c ∈ memBelow m n ↔ c ∈ m ∧ c.1 < n := by
  simp [memBelow]

/-- Unlisting a byte keeps the canonical form. -/
theorem memErase_wf {m : Memory} (h : Memory.wf m) (a : Nat) : Memory.wf (memErase m a) := List.Pairwise.filter _ h

/-- Cutting a memory keeps the canonical form. -/
theorem memBelow_wf {m : Memory} (h : Memory.wf m) (n : Nat) : Memory.wf (memBelow m n) := List.Pairwise.filter _ h

/-- Writing a byte keeps the canonical form. -/
theorem memPut_wf {m : Memory} (h : Memory.wf m) (a : Nat) (v : Byte) : Memory.wf (memPut m a v) := by
  induction m with
  | nil => simp [memPut, Memory.wf]
  | cons d m ih =>
    have hd := List.pairwise_cons.1 h
    simp only [memPut]
    split
    · next hlt =>
      refine List.pairwise_cons.2 ⟨fun c hc => ?_, h⟩
      rcases List.mem_cons.1 hc with rfl | hc
      · exact hlt
      · exact Nat.lt_trans hlt (hd.1 c hc)
    · split
      · next heq => exact List.pairwise_cons.2 ⟨fun c hc => heq ▸ hd.1 c hc, hd.2⟩
      · next hge hne =>
        refine List.pairwise_cons.2 ⟨fun c hc => ?_, ih hd.2⟩
        rcases mem_memPut hc with rfl | hc
        · exact Nat.lt_of_le_of_ne (Nat.le_of_not_lt hge) (Ne.symm hne)
        · exact hd.1 c hc

/-- The memories of the state after reset are in canonical form. -/
theorem reset_memory_wf : Memory.wf State.reset.buf.cells ∧ Memory.wf State.reset.env.rom := by decide

@[simp] theorem byteAt_putByte_same (s : State) (a : Nat) (v : Byte) : (s.putByte a v).byteAt a = v := by
  simp [State.byteAt, memFind_memPut_same]

theorem byteAt_putByte_other (s : State) (a b : Nat) (v : Byte) (h : a ≠ b) :
    (s.putByte a v).byteAt b = s.byteAt b := by
  simp [State.byteAt, memFind_memPut_other _ _ _ _ h]

@[simp] theorem byteAt_dropByte_same (s : State) (a : Nat) :
    (s.dropByte a).byteAt a = unwrittenByte s.buf.epoch a := by
  simp [State.byteAt, memFind_memErase_same]

theorem byteAt_dropByte_other (s : State) (a b : Nat) (h : a ≠ b) : (s.dropByte a).byteAt b = s.byteAt b := by
  simp [State.byteAt, memFind_memErase_other _ _ _ h]

/-- What a load can answer. -/
theorem load_ok {s : State} {a : Nat} {v : Byte} :
    s.load a = .ok v ↔ a < s.geom.bufSize ∧ v = s.byteAt a := by
  unfold State.load
  split <;> simp_all [eq_comm]

/-- What a store can answer. -/
theorem store_ok {s t : State} {a : Nat} {v : Byte} :
    s.store a v = .ok t ↔ a < s.geom.bufSize ∧ t = s.putByte a v := by
  unfold State.store
  split <;> simp_all [eq_comm]

/-- What making a byte unspecified can answer. -/
theorem forget_ok {s t : State} {a : Nat} : s.forget a = .ok t ↔ a < s.geom.bufSize ∧ t = s.dropByte a := by
  unfold State.forget
  split <;> simp_all [eq_comm]

theorem load_inRange {s : State} {a : Nat} (h : a < s.geom.bufSize) : s.load a = .ok (s.byteAt a) :=
  load_ok.2 ⟨h, rfl⟩

theorem store_inRange {s : State} {a : Nat} (v : Byte) (h : a < s.geom.bufSize) :
    s.store a v = .ok (s.putByte a v) :=
  store_ok.2 ⟨h, rfl⟩

end Sys2Proof.Laws
end

