-- ==== Sys2Proof/Laws/Ops.lean ====
section
/-! SUPPORT. What each shared operation can do, said once: if it answers a state, then one of these. -/

namespace Sys2Proof.Laws

open Sys2Proof.Machine

@[simp] theorem toOutcome_ok (s : State) : toOutcome (.ok s) = .next s := rfl
@[simp] theorem toOutcome_error (e : Fault) : toOutcome (.error e) = .fault e := rfl

theorem toOutcome_next {r : Except Fault State} {t : State} : toOutcome r = .next t ↔ r = .ok t := by
  cases r <;> simp [toOutcome]

/-! ### The draw engine -/

theorem writePixel_off {s : State} {x y : Int} (mode : Mode) (v : Bool) (h : ¬ s.geom.inDisplay x y) :
    s.writePixel x y mode v = .ok s := by
  simp only [State.writePixel, if_neg h]

/-- The byte `WritePixel` stores (R120). -/
theorem writePixel_on {s : State} {x y : Int} (mode : Mode) (v : Bool) (h : s.geom.inDisplay x y)
    (ha : s.geom.pixelByte x y < s.geom.bufSize) :
    s.writePixel x y mode v = .ok (s.putByte (s.geom.pixelByte x y)
      (withBit (s.byteAt (s.geom.pixelByte x y)) (pixelMask x) (combine mode (s.getPixel x y) v))) := by
  simp only [State.writePixel, if_pos h, load_inRange ha, store_inRange _ ha, State.getPixel]

/-- What `WritePixel` can answer. -/
theorem writePixel_cases {s t : State} {x y : Int} {mode : Mode} {v : Bool}
    (h : s.writePixel x y mode v = .ok t) :
    (¬ s.geom.inDisplay x y ∧ t = s) ∨
    (s.geom.inDisplay x y ∧ s.geom.pixelByte x y < s.geom.bufSize ∧
      t = s.putByte (s.geom.pixelByte x y)
        (withBit (s.byteAt (s.geom.pixelByte x y)) (pixelMask x) (combine mode (s.getPixel x y) v))) := by
  by_cases hd : s.geom.inDisplay x y
  · by_cases ha : s.geom.pixelByte x y < s.geom.bufSize
    · exact .inr ⟨hd, ha, by rw [writePixel_on mode v hd ha] at h; exact (Except.ok.inj h).symm⟩
    · simp [State.writePixel, if_pos hd, State.load, if_neg ha] at h
  · exact .inl ⟨hd, by rw [writePixel_off mode v hd] at h; exact (Except.ok.inj h).symm⟩

/-- What an operation of the draw engine can do: nothing, one byte store, one byte made unspecified, or one
register write. -/
theorem runMicro_cases {m : Micro} {s t : State} (h : runMicro m s = .ok t) :
    t = s ∨ (∃ a v, a < s.geom.bufSize ∧ t = s.putByte a v) ∨
      (∃ a, a < s.geom.bufSize ∧ m = .forget a ∧ t = s.dropByte a) ∨ (∃ w, m = .reg w ∧ t = applyReg w s) := by
  cases m with
  | pixel x y mode v =>
    rcases writePixel_cases h with ⟨_, h⟩ | ⟨_, ha, h⟩
    · exact .inl h
    · exact .inr (.inl ⟨_, _, ha, h⟩)
  | merge a mask mode v old => exact .inr (.inl ⟨a, _, (store_ok.1 h).1, (store_ok.1 h).2⟩)
  | copyLeft x y =>
    simp only [runMicro] at h
    split at h
    · rcases writePixel_cases h with ⟨_, h⟩ | ⟨_, ha, h⟩
      · exact .inl h
      · exact .inr (.inl ⟨_, _, ha, h⟩)
    · cases h
  | store a v => exact .inr (.inl ⟨a, v, (store_ok.1 h).1, (store_ok.1 h).2⟩)
  | forget a => exact .inr (.inr (.inl ⟨a, (forget_ok.1 h).1, rfl, (forget_ok.1 h).2⟩))
  | reg w => exact .inr (.inr (.inr ⟨w, rfl, (Except.ok.inj h).symm⟩))

/-- What a micro-step of an operation can do to the state; what is left of the operation is the rest. -/
theorem stepMicro_cases {m : Micro} {s t : State} {r : Option Micro} (h : stepMicro m s = .ok (r, t)) :
    t = s ∨ (r = none ∧ ∃ a v, a < s.geom.bufSize ∧ t = s.putByte a v) ∨
      (r = none ∧ ∃ a, a < s.geom.bufSize ∧ m = .forget a ∧ t = s.dropByte a) ∨
      (r = none ∧ ∃ w, m = .reg w ∧ t = applyReg w s) := by
  cases m with
  | pixel x y mode v =>
    simp only [stepMicro] at h
    split at h
    · split at h
      · exact .inl (Prod.ext_iff.1 (Except.ok.inj h)).2.symm
      · cases h
    · exact .inl (Prod.ext_iff.1 (Except.ok.inj h)).2.symm
  | merge a mask mode v old =>
    simp only [stepMicro] at h
    split at h
    · next s' hs =>
      obtain ⟨rfl, rfl⟩ := Prod.mk.inj (Except.ok.inj h)
      exact .inr (.inl ⟨rfl, a, _, (store_ok.1 hs).1, (store_ok.1 hs).2⟩)
    · cases h
  | copyLeft x y =>
    simp only [stepMicro] at h
    split at h
    · exact .inl (Prod.ext_iff.1 (Except.ok.inj h)).2.symm
    · cases h
  | store a v =>
    simp only [stepMicro] at h
    split at h
    · next s' hs =>
      obtain ⟨rfl, rfl⟩ := Prod.mk.inj (Except.ok.inj h)
      exact .inr (.inl ⟨rfl, a, v, (store_ok.1 hs).1, (store_ok.1 hs).2⟩)
    · cases h
  | forget a =>
    simp only [stepMicro] at h
    split at h
    · next s' hs =>
      obtain ⟨rfl, rfl⟩ := Prod.mk.inj (Except.ok.inj h)
      exact .inr (.inr (.inl ⟨rfl, a, (forget_ok.1 hs).1, rfl, (forget_ok.1 hs).2⟩))
    · cases h
  | reg w =>
    obtain ⟨rfl, rfl⟩ := Prod.mk.inj (Except.ok.inj h)
    exact .inr (.inr (.inr ⟨rfl, w, rfl, rfl⟩))

@[simp] theorem runMicros_nil (s : State) : runMicros [] s = .ok s := rfl

theorem runMicros_cons_ok {m : Micro} {ms : List Micro} {s t : State} :
    runMicros (m :: ms) s = .ok t ↔ ∃ u, runMicro m s = .ok u ∧ runMicros ms u = .ok t := by
  simp only [runMicros]
  split <;> simp_all

theorem runMicros_append_ok {ms ns : List Micro} {s t : State} :
    runMicros (ms ++ ns) s = .ok t ↔ ∃ u, runMicros ms s = .ok u ∧ runMicros ns u = .ok t := by
  induction ms generalizing s with
  | nil => simp
  | cons m ms ih =>
    simp only [List.cons_append, runMicros_cons_ok, ih]
    constructor
    · rintro ⟨u, hu, w, hw, ht⟩; exact ⟨w, ⟨u, hu, hw⟩, ht⟩
    · rintro ⟨w, ⟨u, hu, hw⟩, ht⟩; exact ⟨u, hu, w, hw, ht⟩

/-- A property that every operation of a list keeps holds after the list. -/
theorem runMicros_induct {P : State → Prop} {ms : List Micro} {s t : State}
    (hstep : ∀ m ∈ ms, ∀ u w, P u → runMicro m u = .ok w → P w) (hs : P s) (h : runMicros ms s = .ok t) : P t := by
  induction ms generalizing s with
  | nil => exact Except.ok.inj h ▸ hs
  | cons m ms ih =>
    obtain ⟨u, hu, ht⟩ := runMicros_cons_ok.1 h
    exact ih (fun n hn => hstep n (List.mem_cons_of_mem _ hn)) (hstep m List.mem_cons_self _ _ hs hu) ht

/-- What one micro-step of the draw engine can do. -/
theorem drawAdvance_cases {s t : State} (h : drawAdvance s = .ok t) :
    (s.draw = none ∧ t = s) ∨
    (∃ cmd, s.draw = some ⟨cmd, []⟩ ∧ t = { s with draw := none }) ∨
    (∃ cmd m rest r u, s.draw = some ⟨cmd, m :: rest⟩ ∧ stepMicro m s = .ok (r, u) ∧
      t = { u with draw := progressOf cmd (r.toList ++ rest) }) := by
  unfold drawAdvance at h
  split at h
  · next hd => exact .inl ⟨hd, (Except.ok.inj h).symm⟩
  · next cmd ms hd =>
    split at h
    · exact .inr (.inl ⟨cmd, hd, (Except.ok.inj h).symm⟩)
    · next m rest =>
      split at h
      · cases h
      · next m' u hm =>
        exact .inr (.inr ⟨cmd, m, rest, some m', u, hd, hm, by simpa [progressOf] using (Except.ok.inj h).symm⟩)
      · next u hm => exact .inr (.inr ⟨cmd, m, rest, none, u, hd, hm, (Except.ok.inj h).symm⟩)

/-- In the FAULT condition a command changes nothing (R264). -/
theorem runCommand_fault {s : State} (ms : List Micro) (h : s.sticky.fault = true) :
    s.runCommand ms = .next s := by
  simp [State.runCommand, h]

/-- Outside the FAULT condition a command is its operations (R266). -/
theorem runCommand_live {s : State} (ms : List Micro) (h : s.sticky.fault = false) :
    s.runCommand ms = toOutcome (runMicros ms s) := by
  simp [State.runCommand, h]

/-- What a command can answer. -/
theorem runCommand_cases {s t : State} {ms : List Micro} (h : s.runCommand ms = .next t) :
    (s.sticky.fault = true ∧ t = s) ∨ (s.sticky.fault = false ∧ runMicros ms s = .ok t) := by
  cases hf : s.sticky.fault
  · exact .inr ⟨rfl, toOutcome_next.1 (by rwa [runCommand_live ms hf] at h)⟩
  · rw [runCommand_fault ms hf] at h
    exact .inl ⟨rfl, by cases h; rfl⟩

/-- A command never answers a refusal. -/
theorem runCommand_not_refused {s : State} {ms : List Micro} {r : Refusal} : s.runCommand ms ≠ .refused r := by
  unfold State.runCommand
  split
  · simp
  · cases runMicros ms s <;> simp [toOutcome]

/-! ### Register writes -/

/-- No register write touches the surroundings, the engines or the trace. -/
theorem applyReg_frame (w : RegWrite) (s : State) :
    (applyReg w s).env = s.env ∧ (applyReg w s).draw = s.draw ∧ (applyReg w s).scan = s.scan ∧
    (applyReg w s).scanOnPort = s.scanOnPort ∧ (applyReg w s).trace = s.trace ∧
    (applyReg w s).pwmCnt = s.pwmCnt := by
  cases w with
  | flag f => simp [applyReg]
  | _ => simp [applyReg]

@[simp] theorem applyReg_env (w : RegWrite) (s : State) : (applyReg w s).env = s.env := (applyReg_frame w s).1
@[simp] theorem applyReg_draw (w : RegWrite) (s : State) : (applyReg w s).draw = s.draw := (applyReg_frame w s).2.1
@[simp] theorem applyReg_scan (w : RegWrite) (s : State) : (applyReg w s).scan = s.scan := (applyReg_frame w s).2.2.1
@[simp] theorem applyReg_scanOnPort (w : RegWrite) (s : State) : (applyReg w s).scanOnPort = s.scanOnPort :=
  (applyReg_frame w s).2.2.2.1
@[simp] theorem applyReg_trace (w : RegWrite) (s : State) : (applyReg w s).trace = s.trace :=
  (applyReg_frame w s).2.2.2.2.1
@[simp] theorem applyReg_pwmCnt (w : RegWrite) (s : State) : (applyReg w s).pwmCnt = s.pwmCnt :=
  (applyReg_frame w s).2.2.2.2.2

/-- A sticky bit that is set stays set by setting another (R263). -/
theorem sticky_set_get (b : Sticky) (f g : Flag) : (b.set f).get g = (b.get g || decide (f = g)) := by
  cases f <;> cases g <;> simp [Sticky.set, Sticky.get]

/-! ### The scan engine -/

/-- What an operation of the scan engine does to its registers. -/
theorem runScanMicro_regs {m : ScanMicro} {s t : State} (h : runScanMicro m s = .ok t) :
    t.regs = applyScanReg m s.regs := by
  cases m with
  | shift a =>
    simp only [runScanMicro] at h
    split at h
    · cases h; rfl
    · cases h
  | _ => cases h; rfl

/-- What an operation of the scan engine can do: it changes only its registers and the trace (R230). -/
theorem runScanMicro_cases {m : ScanMicro} {s t : State} (h : runScanMicro m s = .ok t) :
    t = { s with regs := t.regs, trace := t.trace } := by
  cases m with
  | shift a =>
    simp only [runScanMicro] at h
    split at h
    · cases h; rfl
    · cases h
  | _ => cases h; rfl

@[simp] theorem runScanMicros_nil (s : State) : runScanMicros [] s = .ok s := rfl

theorem runScanMicros_cons_ok {m : ScanMicro} {ms : List ScanMicro} {s t : State} :
    runScanMicros (m :: ms) s = .ok t ↔ ∃ u, runScanMicro m s = .ok u ∧ runScanMicros ms u = .ok t := by
  simp only [runScanMicros]
  split <;> simp_all

theorem runScanMicros_append_ok {ms ns : List ScanMicro} {s t : State} :
    runScanMicros (ms ++ ns) s = .ok t ↔ ∃ u, runScanMicros ms s = .ok u ∧ runScanMicros ns u = .ok t := by
  induction ms generalizing s with
  | nil => simp
  | cons m ms ih =>
    simp only [List.cons_append, runScanMicros_cons_ok, ih]
    constructor
    · rintro ⟨u, hu, w, hw, ht⟩; exact ⟨w, ⟨u, hu, hw⟩, ht⟩
    · rintro ⟨w, ⟨u, hu, hw⟩, ht⟩; exact ⟨u, hu, w, hw, ht⟩

/-- A list of operations of the scan engine changes only its registers and the trace (R230). -/
theorem runScanMicros_cases {ms : List ScanMicro} {s t : State} (h : runScanMicros ms s = .ok t) :
    t = { s with regs := t.regs, trace := t.trace } := by
  induction ms generalizing s with
  | nil => rw [← Except.ok.inj h]
  | cons m ms ih =>
    obtain ⟨u, hu, ht⟩ := runScanMicros_cons_ok.1 h
    rw [ih ht, runScanMicro_cases hu]

/-- What one micro-step of the scan engine can do. -/
theorem scanAdvance_cases {s t : State} (h : scanAdvance s = .ok t) :
    (s.scan = [] ∧ t = { s with scanOnPort := false }) ∨
    (∃ m rest u, s.scan = m :: rest ∧ runScanMicro m s = .ok u ∧
      t = { u with scan := rest, scanOnPort := s.scanOnPort && !rest.isEmpty }) := by
  unfold scanAdvance at h
  split at h
  · next hs => exact .inl ⟨hs, (Except.ok.inj h).symm⟩
  · next m rest hs =>
    split at h
    · next u hu =>
      refine .inr ⟨m, rest, u, hs, hu, ?_⟩
      rw [← Except.ok.inj h, show u.scanOnPort = s.scanOnPort by rw [runScanMicro_cases hu]]
    · cases h

/-- What is left when the scan in progress has been run to its end. -/
theorem finishScan_ok {s t : State} :
    s.finishScan = .ok t ↔ ∃ u, runScanMicros s.scan s = .ok u ∧ t = { u with scan := [], scanOnPort := false } := by
  unfold State.finishScan
  cases runScanMicros s.scan s <;> simp [eq_comm]

/-- With the scan engine idle and the port free there is nothing to finish. -/
theorem finishScan_idle {s : State} (h : s.scan = []) (hp : s.scanOnPort = false) : s.finishScan = .ok s := by
  rw [finishScan_ok]
  exact ⟨s, by rw [h]; rfl, by rw [← h, ← hp]⟩

/-! ### Settling -/

@[simp] theorem settleDraw_nil (s : State) : settleDraw [] s = s := rfl
@[simp] theorem settleDraw_reg (w : RegWrite) (ms : List Micro) (s : State) :
    settleDraw (.reg w :: ms) s = settleDraw ms (applyReg w s) := rfl

/-- With both engines idle a state is settled. -/
theorem settled_idle {s : State} (hd : s.draw = none) (hs : s.scan = []) : s.settled = s := by
  cases s
  simp_all [State.settled, State.drawRest]

/-! ### The port and the step -/

/-- What taking a packet from the port can do. -/
theorem fetchPacket_packet {s s' : State} {i : Instr} (h : fetchPacket s = .packet i s') :
    ∃ rest, decodePacket s.env.port = .packet i rest ∧ s' = s.withPort rest := by
  unfold fetchPacket at h
  split at h
  · cases h
  · cases h
  · next j rest hd =>
    cases h
    exact ⟨rest, hd, rfl⟩

/-- What accepting a packet can do. -/
theorem acceptPacket_cases {s t : State} (h : acceptPacket s = .ok t) :
    t = s ∨
    (s.portHeld = false ∧ ∃ why rest, decodePacket s.env.port = .illegal why rest ∧
      t = { s.withPort rest with draw := some { cmd := none, rest := [.reg (.flag .ill)] } }) ∨
    (s.portHeld = false ∧ ∃ i rest, decodePacket s.env.port = .packet i rest ∧ ¬ (i = .scan ∧ s.scan ≠ []) ∧
      startCommand i (s.withPort rest) = .ok t) := by
  unfold acceptPacket at h
  split at h
  · exact .inl (Except.ok.inj h).symm
  · next hp =>
    have hp : s.portHeld = false := by simpa using hp
    split at h
    · exact .inl (Except.ok.inj h).symm
    · next why rest hd => exact .inr (.inl ⟨hp, why, rest, hd, (Except.ok.inj h).symm⟩)
    · next i rest hd =>
      split at h
      · exact .inl (Except.ok.inj h).symm
      · next hn => exact .inr (.inr ⟨hp, i, rest, hd, hn, h⟩)

/-- What starting a command can do. -/
theorem startCommand_cases {i : Instr} {s t : State} (h : startCommand i s = .ok t) :
    (i = .scan ∧ t = { s with scan := s.scanOps, scanOnPort := true }) ∨
    (i ≠ .scan ∧ s.sticky.fault = true ∧ t = { s with draw := some { cmd := some i, rest := [] } }) ∨
    (i ≠ .scan ∧ s.sticky.fault = false ∧ (isReconfig i = true → s.scan = []) ∧
      t = { s with draw := some { cmd := some i, rest := drawProgram i s } }) := by
  unfold startCommand at h
  split at h
  · next hi => exact .inl ⟨hi, (Except.ok.inj h).symm⟩
  · next hi =>
    split at h
    · next hf => exact .inr (.inl ⟨hi, hf, (Except.ok.inj h).symm⟩)
    · next hf =>
      split at h
      · cases h
      · next hn => exact .inr (.inr ⟨hi, by simpa using hf, by simpa using hn, (Except.ok.inj h).symm⟩)

/-- What a scan request can do (R231, R245, R246). -/
theorem scanRequest_cases {s t : State} (h : scanRequest s = .ok t) :
    t = s ∨ (s.sticky.fault = false ∧ s.scan = [] ∧ s.reconfiguring = false ∧ t = { s with scan := s.scanOps }) := by
  unfold scanRequest at h
  split at h
  · exact .inl (Except.ok.inj h).symm
  · next hf =>
    split at h
    · exact .inl (Except.ok.inj h).symm
    · next hs =>
      split at h
      · cases h
      · next hr => exact .inr ⟨by simpa using hf, by simpa using hs, by simpa using hr, (Except.ok.inj h).symm⟩

/-- What a step can do, before looking into an input or a command. -/
theorem step_cases {s t : State} (h : step s = .next t) :
    (∃ e rest, s.env.sched = e :: rest ∧ applyInput e (s.withSched rest) = .ok t) ∨
    (s.env.sched = [] ∧ s.env.resetHeld = true ∧ t = s) ∨
    (s.env.sched = [] ∧ s.env.resetHeld = false ∧
      ((s.draw ≠ none ∧ drawAdvance s = .ok t) ∨
       (s.draw = none ∧ scanAdvance s = .ok t) ∨
       (s.draw = none ∧ s.scanOnPort = false ∧ ∃ why rest, decodePacket s.env.port = .illegal why rest ∧
         t = (s.withPort rest).refuse .ill) ∨
       (s.draw = none ∧ s.scanOnPort = false ∧ ∃ i rest, decodePacket s.env.port = .packet i rest ∧
         exec i (s.withPort rest) = .next t))) := by
  unfold step at h
  split at h
  · next e rest he => exact .inl ⟨e, rest, he, toOutcome_next.1 h⟩
  · next he =>
    refine .inr ?_
    split at h
    · next hr => cases h; exact .inl ⟨he, hr, rfl⟩
    · next hr =>
      refine .inr ⟨he, by simpa using hr, ?_⟩
      split at h
      · next hd => exact .inl ⟨by rintro hn; simp [hn] at hd, toOutcome_next.1 h⟩
      · next hd =>
        have hd : s.draw = none := by simpa using hd
        split at h
        · exact .inr (.inl ⟨hd, toOutcome_next.1 h⟩)
        · next hp =>
          have hp : s.scanOnPort = false := by simpa using hp
          unfold fetchPacket at h
          cases hdec : decodePacket s.env.port with
          | incomplete => rw [hdec] at h; exact .inr (.inl ⟨hd, toOutcome_next.1 h⟩)
          | illegal why rest =>
            rw [hdec] at h
            exact .inr (.inr (.inl ⟨hd, hp, why, rest, rfl, by cases h; rfl⟩))
          | packet i rest =>
            rw [hdec] at h
            exact .inr (.inr (.inr ⟨hd, hp, i, rest, rfl, h⟩))

end Sys2Proof.Laws
end

