-- ==== Sys2Proof/Laws/PerInstr.lean ====
section
/-! SUPPORT. What holds of every command as syntax, one lemma per command: the encoder writes as many
words as its format has, and word 0 carries its opcode (R90, R91, R96). -/

namespace Sys2Proof.Laws.EncodeShape

/-- The words of the command: as many as word 0 announces, with the command's opcode in it. -/
def Statement (i : Instr) : Prop :=
  ∃ w0 ws, encode i = w0 :: ws ∧ opBits w0 = i.opcode.byte ∧ ws.length + 1 = packetWords w0

theorem writePixel (x : Int) (y : Int) (mode : Mode) (value : Bool) : Statement (.writePixel x y mode value) :=
  ⟨_, _, rfl, opBits_word0 _ _ _, by rw [packetWords_word0]; rfl⟩

theorem clearScreen (normal : Bool) : Statement (.clearScreen normal) :=
  ⟨_, _, rfl, opBits_word0 _ _ _, by rw [packetWords_word0]; rfl⟩

theorem changeDmd (w : Byte) (h : Byte) : Statement (.changeDmd w h) :=
  ⟨_, _, rfl, opBits_word0 _ _ _, by rw [packetWords_word0]; rfl⟩

theorem drawLine (xa : Int) (ya : Int) (xb : Int) (yb : Int) (mode : Mode) : Statement (.drawLine xa ya xb yb mode) :=
  ⟨_, _, rfl, opBits_word0 _ _ _, by rw [packetWords_word0]; rfl⟩

theorem drawCircle (cx : Int) (cy : Int) (r : Int) (mode : Mode) : Statement (.drawCircle cx cy r mode) :=
  ⟨_, _, rfl, opBits_word0 _ _ _, by rw [packetWords_word0]; rfl⟩

theorem drawBox (xa : Int) (ya : Int) (xb : Int) (yb : Int) (mode : Mode) : Statement (.drawBox xa ya xb yb mode) :=
  ⟨_, _, rfl, opBits_word0 _ _ _, by rw [packetWords_word0]; rfl⟩

theorem drawFilledBox (xa : Int) (ya : Int) (xb : Int) (yb : Int) (mode : Mode) : Statement (.drawFilledBox xa ya xb yb mode) :=
  ⟨_, _, rfl, opBits_word0 _ _ _, by rw [packetWords_word0]; rfl⟩

theorem drawTestPattern (pattern : BitVec 2) : Statement (.drawTestPattern pattern) :=
  ⟨_, _, rfl, opBits_word0 _ _ _, by rw [packetWords_word0]; rfl⟩

theorem selectFont (addr : Word) : Statement (.selectFont addr) :=
  ⟨_, _, rfl, opBits_word0 _ _ _, by rw [packetWords_word0]; rfl⟩

theorem charWidth (letter : Byte) : Statement (.charWidth letter) :=
  ⟨_, _, rfl, opBits_word0 _ _ _, by rw [packetWords_word0]; rfl⟩

theorem drawChar (x : Int) (y : Int) (letter : Byte) (mode : Mode) : Statement (.drawChar x y letter mode) :=
  ⟨_, _, rfl, opBits_word0 _ _ _, by rw [packetWords_word0]; rfl⟩

theorem drawString (x : Int) (y : Int) (addr : Word) (length : BitVec 16) (mode : Mode) : Statement (.drawString x y addr length mode) :=
  ⟨_, _, rfl, opBits_word0 _ _ _, by rw [packetWords_word0]; rfl⟩

theorem drawMarquee (addr : Word) (length : BitVec 16) (left : Int) (top : Int) : Statement (.drawMarquee addr length left top) :=
  ⟨_, _, rfl, opBits_word0 _ _ _, by rw [packetWords_word0]; rfl⟩

theorem stepMarquee (dx : Int) (dy : Int) : Statement (.stepMarquee dx dy) :=
  ⟨_, _, rfl, opBits_word0 _ _ _, by rw [packetWords_word0]; rfl⟩

theorem stepSplitMarquee3 (topRow : Int) (bottomRow : Int) (startColumn : Int) : Statement (.stepSplitMarquee3 topRow bottomRow startColumn) :=
  ⟨_, _, rfl, opBits_word0 _ _ _, by rw [packetWords_word0]; rfl⟩

theorem scan : Statement (.scan) :=
  ⟨_, _, rfl, opBits_word0 _ _ _, by rw [packetWords_word0]; rfl⟩

theorem setBrightness (value : Byte) : Statement (.setBrightness value) :=
  ⟨_, _, rfl, opBits_word0 _ _ _, by rw [packetWords_word0]; rfl⟩

end Sys2Proof.Laws.EncodeShape
end

