-- ==== Sys2Proof/Laws/Pixel.lean ====
section
/-! SUPPORT. Bits of a byte, the masks of R64, and the range of a pixel's address. -/

namespace Sys2Proof.Laws

open Sys2Proof.Machine

/-- The mask of a column is the bit counted from the left (R64). -/
theorem maskOf_eq (c : Nat) (h : c < 8) : maskOf c = 1#8 <<< (7 - c) := by
  interval_cases c <;> rfl

/-- The bit a mask selects, by its number (R63). -/
theorem bitOf_maskOf (v : Byte) (c : Nat) (h : c < 8) : bitOf v (maskOf c) = v.getLsbD (7 - c) := by
  revert v
  interval_cases c <;> decide

/-- Writing a bit and reading it back (R120). -/
theorem bitOf_withBit_same (v : Byte) (c : Nat) (n : Bool) (h : c < 8) :
    bitOf (withBit v (maskOf c) n) (maskOf c) = n := by
  revert v
  interval_cases c <;> cases n <;> decide

/-- Writing a bit leaves the seven others alone (R120). -/
theorem bitOf_withBit_other (v : Byte) (c d : Nat) (n : Bool) (hc : c < 8) (hd : d < 8) (h : c ≠ d) :
    bitOf (withBit v (maskOf c) n) (maskOf d) = bitOf v (maskOf d) := by
  rw [bitOf_maskOf _ _ hd, bitOf_maskOf _ _ hd, maskOf_eq c hc]
  have h1 : (1#8 <<< (7 - c)).getLsbD (7 - d) = false := by
    simp only [BitVec.getLsbD_shiftLeft, BitVec.getLsbD_one]
    simp
    omega
  cases n <;> simp [withBit, h1] <;> omega

/-- The panel of a pixel of the display is one of the `W * H` (R62). -/
theorem panelOf_lt {g : Geometry} {x y : Nat} (hx : x < g.dw) (hy : y < g.dh) :
    g.panelOf x y < g.w.toNat * g.h.toNat := by
  unfold Geometry.dw at hx
  unfold Geometry.dh at hy
  unfold Geometry.panelOf
  have h1 : x / 32 < g.w.toNat := by omega
  have h2 : y / 16 + 1 ≤ g.h.toNat := by omega
  calc x / 32 + g.w.toNat * (y / 16) < g.w.toNat + g.w.toNat * (y / 16) := by omega
    _ = g.w.toNat * (y / 16 + 1) := by ring
    _ ≤ g.w.toNat * g.h.toNat := Nat.mul_le_mul_left _ h2

end Sys2Proof.Laws
end

