-- ==== Sys2Proof/Tests/Slice0.lean ====
section
/-! SUPPORT. Tests whose expected results are the spec's own (95_test_vectors.md, the identifier in each
docstring, and 30_encoding.md section 6), and for each obligation with hypotheses a witness: concrete states
and operands that meet them. -/

namespace Sys2Proof.Tests

open Sys2Proof Sys2Proof.Machine

/-! ### Small states -/

/-- Font T1 at 0x1000, font T2 at 0x1100, the texts "ABC" at 0x2000 and "012" at 0x2100. -/
def fonts : Memory :=
  [(0x1000, 0x00), (0x1001, 0x00), (0x1002, 0x03), (0x1003, 0x05), (0x1004, 0x41), (0x1005, 0x02),
    (0x1006, 0x1E), (0x1007, 0x05), (0x1008, 0x1E), (0x1009, 0x1F), (0x100A, 0x15), (0x100B, 0x0A)] ++
  [(0x1100, 0x13), (0x1101, 0x00), (0x1102, 0x00), (0x1103, 0x0A), (0x1104, 0x30), (0x1105, 0x03),
    (0x1106, 0x02), (0x1107, 0x00), (0x1108, 0x03), (0x1109, 0xFF), (0x110A, 0x01), (0x110B, 0xC0),
    (0x110C, 0xBF), (0x110D, 0x01), (0x110E, 0x00), (0x110F, 0x80), (0x1110, 0x00), (0x1111, 0x40),
    (0x1112, 0x80)] ++
  [(0x2000, 0x41), (0x2001, 0x42), (0x2002, 0x43), (0x2100, 0x30), (0x2101, 0x31), (0x2102, 0x32)]

/-- One panel, every byte of the buffer `v`, no font selected, the resource memory of the vectors. -/
def filled (v : Byte) : State :=
  { State.reset with
    env := { Env.initial with rom := fonts }
    buf := { epoch := 0, cells := (List.range 64).map fun a => (a, v) } }

/-- The blank picture. -/
def blank : State := filled 0

/-- The same with the font at this address selected. -/
def inked (v : Byte) (font : Word) : State := { filled v with font := { addr := font, sel := true } }

/-- The blank picture with font T1 selected. -/
def demo : State := inked 0 0x1000

/-- The text "AB" as an active marquee at the origin, over a blank picture. -/
def running : State :=
  { demo with marq := { act := true, len := 2, mw := 8, mh := 5, ox := 0, oy := 0,
                        text := (Vector.replicate 255 0).setIfInBounds 0 0x41 |>.setIfInBounds 1 0x42 } }

/-- The FAULT condition. -/
def faulty : State := { demo with sticky := { demo.sticky with fault := true } }

/-- A scan in progress with three operations left. -/
def scanning : State := { demo with scan := [.emit (.oe true), .phase 1, .cursor 4] }

/-- CHANGEDMD accepted but not performed. -/
def resizing : State :=
  { demo with draw := some { cmd := some (.changeDmd 2 1), rest := changeDmdProgram 2 1 demo } }

/-- The outcome is a next state with this property. -/
def nextWith (o : Host.Outcome State Fault Refusal) (p : State → Bool) : Bool :=
  match o with
  | .next t => p t
  | .fault _ => false
  | .refused _ => false

/-- Buffer rows of one panel from row `r`, `n` bytes. -/
def bytesFrom (t : State) (a n : Nat) : List Byte := (List.range n).map fun k => t.byteAt (a + k)

/-- The same column byte of `n` rows of one panel from row `r`. -/
def columnFrom (t : State) (r n : Nat) : List Byte := (List.range n).map fun k => t.byteAt (4 * (r + k))

/-! ### Well-formedness: each check refuses an ill-formed term -/

theorem test_wf_writePixel : (Instr.writePixel 32768 0 .normal true).wellFormed = false ∧
    (Instr.writePixel 0 (-32769) .normal true).wellFormed = false := by decide
theorem test_wf_drawLine : (Instr.drawLine 32768 0 0 0 .or).wellFormed = false ∧
    (Instr.drawLine 0 32768 0 0 .or).wellFormed = false ∧ (Instr.drawLine 0 0 32768 0 .or).wellFormed = false ∧
    (Instr.drawLine 0 0 0 32768 .or).wellFormed = false := by decide
theorem test_wf_drawCircle : (Instr.drawCircle 32768 0 0 .or).wellFormed = false ∧
    (Instr.drawCircle 0 32768 0 .or).wellFormed = false ∧ (Instr.drawCircle 0 0 32768 .or).wellFormed = false := by
  decide
theorem test_wf_drawBox : (Instr.drawBox 32768 0 0 0 .or).wellFormed = false ∧
    (Instr.drawBox 0 32768 0 0 .or).wellFormed = false ∧ (Instr.drawBox 0 0 32768 0 .or).wellFormed = false ∧
    (Instr.drawBox 0 0 0 32768 .or).wellFormed = false := by decide
theorem test_wf_drawFilledBox : (Instr.drawFilledBox 32768 0 0 0 .or).wellFormed = false ∧
    (Instr.drawFilledBox 0 32768 0 0 .or).wellFormed = false ∧
    (Instr.drawFilledBox 0 0 32768 0 .or).wellFormed = false ∧
    (Instr.drawFilledBox 0 0 0 32768 .or).wellFormed = false := by decide
theorem test_wf_drawChar : (Instr.drawChar 32768 0 0 .or).wellFormed = false ∧
    (Instr.drawChar 0 (-32769) 0 .or).wellFormed = false := by decide
theorem test_wf_drawString : (Instr.drawString 32768 0 0 0 .or).wellFormed = false ∧
    (Instr.drawString 0 32768 0 0 .or).wellFormed = false := by decide
theorem test_wf_drawMarquee : (Instr.drawMarquee 0 0 32768 0).wellFormed = false ∧
    (Instr.drawMarquee 0 0 0 32768).wellFormed = false := by decide
theorem test_wf_stepMarquee : (Instr.stepMarquee 32768 0).wellFormed = false ∧
    (Instr.stepMarquee 0 (-32769)).wellFormed = false := by decide
theorem test_wf_stepSplitMarquee3 : (Instr.stepSplitMarquee3 32768 0 0).wellFormed = false ∧
    (Instr.stepSplitMarquee3 0 32768 0).wellFormed = false ∧
    (Instr.stepSplitMarquee3 0 0 32768).wellFormed = false := by decide

/-! ### Decoding: the worked words of 30_encoding.md section 6, one for each command -/

theorem test_decode_writePixel :
    decodePacket [0x01000001, 0x00030005] = .packet (.writePixel 5 3 .normal true) [] := by decide
theorem test_decode_clearScreen : decodePacket [0x02000001] = .packet (.clearScreen true) [] := by decide
theorem test_decode_changeDmd : decodePacket [0x03000201] = .packet (.changeDmd 2 1) [] := by decide
theorem test_decode_drawLine : decodePacket [0x10000000, 0x00000000, 0x00020005] =
    .packet (.drawLine 0 0 5 2 .normal) [] := by decide
theorem test_decode_drawCircle : decodePacket [0x11030000, 0x0007000F, 0x00000003] =
    .packet (.drawCircle 15 7 3 .or) [] := by decide
theorem test_decode_drawBox : decodePacket [0x12000000, 0x00000000, 0x000F001F] =
    .packet (.drawBox 0 0 31 15 .normal) [] := by decide
theorem test_decode_drawFilledBox : decodePacket [0x13040000, 0x00020002, 0x00050004] =
    .packet (.drawFilledBox 2 2 4 5 .nor) [] := by decide
theorem test_decode_drawTestPattern :
    decodePacket [0x14000002] = .packet (.drawTestPattern 2) [] := by decide
theorem test_decode_selectFont :
    decodePacket [0x20000000, 0x00001000] = .packet (.selectFont 0x1000) [] := by decide
theorem test_decode_charWidth : decodePacket [0x21000041] = .packet (.charWidth 0x41) [] := by decide
theorem test_decode_drawChar :
    decodePacket [0x22000041, 0x00000000] = .packet (.drawChar 0 0 0x41 .normal) [] := by decide
theorem test_decode_drawString : decodePacket [0x23010003, 0x00040001, 0x00002000] =
    .packet (.drawString 1 4 0x2000 3 .inverse) [] := by decide
theorem test_decode_drawMarquee : decodePacket [0x30000002, 0x00000000, 0x00002000] =
    .packet (.drawMarquee 0x2000 2 0 0) [] := by decide
theorem test_decode_stepMarquee :
    decodePacket [0x31000000, 0x0000FFFF] = .packet (.stepMarquee (-1) 0) [] := by decide
theorem test_decode_stepSplitMarquee3 :
    decodePacket [0x32000008, 0x00070000] = .packet (.stepSplitMarquee3 0 7 8) [] := by decide
theorem test_decode_scan : decodePacket [0x40000000] = .packet .scan [] := by decide
theorem test_decode_setBrightness :
    decodePacket [0x41000080] = .packet (.setBrightness 128) [] := by decide

/-- The cases (a) to (f) of R98, each on the command stream (R99). -/
theorem test_decode_illegal :
    decodePacket [0x00000000, 0x02000001] = .illegal (.undefinedOp 0) [0x02000001] ∧
    decodePacket [0x02080001] = .illegal .reservedBits [] ∧
    decodePacket [0x02010001] = .illegal .modeNotZero [] ∧
    decodePacket [0x01050001, 0, 0x02000001] = .illegal .modeReserved [0x02000001] ∧
    decodePacket [0x41000100] = .illegal .immNotZero [] ∧
    decodePacket [0x11000000, 0, 0x00010003] = .illegal .highHalfNotZero [] := by decide
/-- A packet that is not all there is not taken (R90). -/
theorem test_decode_incomplete : decodePacket [] = .incomplete ∧ decodePacket [0x10000000, 0] = .incomplete := by
  decide
/-- V-E32 (R73): the bytes a tool stores. -/
theorem test_bytes : encodeBytes (.clearScreen true) = [0x01, 0x00, 0x00, 0x02] ∧
    bytesWord 0x1F 0x00 0x0F 0x00 = 0x000F001F := by decide
/-- The host's numbering: bit 0 is bit 0 of word 0. -/
theorem test_table_word : decodeTableWord 32 0x00000000 = none ∧
    decodeTableWord 64 0x0003000501000001 = some (.writePixel 5 3 .normal true) := by decide
/-- A line of program P1, and a pseudo-instruction (R102, R103). -/
theorem test_assembleLine : assembleLine "DRAWBOX 0, 0, 31, 0xF, NORMAL ; a box".toList =
    some [.drawBox 0 0 31 15 .normal] ∧ assembleLine "WRITEPIXEL 40000, 0, NORMAL, 1".toList = none ∧
    writeLine (.stepMarquee (-1) 0) = "STEPMARQUEE -1, 0".toList ∧ assembleLine "SCANCYCLE".toList = some [.scan, .scan, .scan, .scan] := by
  decide +kernel

/-! ### One command each -/

/-- L1-12: the mask 0x04 of `Buf[12]` in the five modes. -/
theorem test_writePixel_modes :
    nextWith (exec (.writePixel 5 3 .normal true) (filled 0x00)) (fun t => t.byteAt 12 == 0x04) = true ∧
    nextWith (exec (.writePixel 5 3 .normal false) (filled 0xFF)) (fun t => t.byteAt 12 == 0xFB) = true ∧
    nextWith (exec (.writePixel 5 3 .toggle true) (filled 0xFF)) (fun t => t.byteAt 12 == 0xFB) = true ∧
    nextWith (exec (.writePixel 5 3 .inverse true) (filled 0xFF)) (fun t => t.byteAt 12 == 0xFB) = true ∧
    nextWith (exec (.writePixel 5 3 .nor false) (filled 0x00)) (fun t => t.byteAt 12 == 0x04) = true := by
  decide +kernel
/-- L1-5. -/
theorem test_clearScreen :
    nextWith (exec (.clearScreen false) blank) (fun t => bytesFrom t 60 4 == [0xFF, 0xFF, 0xFF, 0xFF]) = true ∧
    nextWith (exec (.clearScreen true) (filled 0xFF)) (fun t => t.byteAt 0 == 0 && t.byteAt 63 == 0) = true := by
  decide +kernel
/-- L1-9. -/
theorem test_changeDmd : nextWith (exec (.changeDmd 2 1) blank)
    (fun t => t.geom == { w := 2, h := 1, t := 2 } && t.geom.rowLen == 8 && t.geom.bufSize == 128) = true := by
  decide +kernel
/-- The first write of CHANGEDMD is a micro-step of its own (R51): `W` is new, `T` still old. -/
theorem test_changeDmd_micro : (match drawAdvance resizing with
    | .ok t => t.geom == { w := 2, h := 1, t := 1 } && t.dBusy
    | .error _ => false) = true := by decide +kernel
/-- V-X5. -/
theorem test_changeDmd_fault :
    nextWith (exec (.changeDmd 0 1) State.reset) (fun t => t.status == 0x0001) = true := by decide +kernel
/-- L1-3. -/
theorem test_drawLine : nextWith (exec (.drawLine 5 2 0 0 .normal) blank)
    (fun t => columnFrom t 0 4 == [0xC0, 0x30, 0x0C, 0x00]) = true := by decide +kernel
/-- Program P2: the twelve pixels of a circle of radius 2. -/
theorem test_drawCircle : circlePoints 31 7 2 = [(31, 9), (29, 7), (31, 5), (33, 7), (32, 9), (30, 9), (32, 5),
    (30, 5), (33, 8), (29, 8), (33, 6), (29, 6)] := by decide +kernel
/-- L1-8. -/
theorem test_drawBox : nextWith (exec (.drawBox 0 0 31 15 .normal) blank)
    (fun t => bytesFrom t 0 8 == [0xFF, 0xFF, 0xFF, 0xFF, 0x80, 0x00, 0x00, 0x01] &&
      bytesFrom t 56 8 == [0x80, 0x00, 0x00, 0x01, 0xFF, 0xFF, 0xFF, 0xFF]) = true := by decide +kernel
/-- V-S16: the corners are written twice. -/
theorem test_drawFilledBox : nextWith (exec (.drawFilledBox 2 2 6 5 .toggle) blank)
    (fun t => columnFrom t 2 4 == [0x1C, 0x3E, 0x3E, 0x1C]) = true := by decide +kernel
/-- V-S11: the twelve calls of the four edges of R148, and the outcome, in which nothing changes. -/
theorem test_drawBox_segment : (boxPoints 2 2 6 2).length = 12 ∧
    nextWith (exec (.drawBox 2 2 6 2 .toggle) blank) (fun t => t.buf == blank.buf) = true := by decide +kernel
/-- V-S20, V-S23. -/
theorem test_drawTestPattern :
    nextWith (exec (.drawTestPattern 0) blank)
      (fun t => bytesFrom t 0 5 == [0x55, 0x55, 0x55, 0x55, 0xAA]) = true ∧
    nextWith (exec (.drawTestPattern 3) blank) (fun t => bytesFrom t 3 2 == [0xAA, 0xAA]) = true := by
  decide +kernel
/-- V-X3. -/
theorem test_selectFont :
    nextWith (exec (.selectFont 0x1000) State.reset) (fun t => t.status == 0x0800) = true := by decide +kernel
/-- V-G1, V-G13. -/
theorem test_charWidth :
    nextWith (exec (.charWidth 0x42) demo) (fun t => t.res == 3) = true ∧
    nextWith (exec (.charWidth 0x43) demo) (fun t => t.res == 0) = true ∧
    nextWith (exec (.charWidth 0x32) (inked 0 0x1100)) (fun t => t.res == 3) = true := by decide +kernel
/-- V-G10, V-X8. -/
theorem test_charWidth_refused :
    nextWith (exec (.charWidth 0x41) State.reset) (fun t => t.status == 0x0004 && t.res == 0) = true ∧
    nextWith (exec (.charWidth 0x41) { State.reset with sticky := faulty.sticky })
      (fun t => t.status == 0x0001) = true := by decide +kernel
/-- V-G2. -/
theorem test_drawChar : nextWith (exec (.drawChar 0 0 0x41 .normal) demo)
    (fun t => columnFrom t 0 6 == [0x40, 0xA0, 0xE0, 0xA0, 0xA0, 0x00] && t.res == 4) = true := by decide +kernel
/-- V-G15: two pages, the last aligned to the bottom. -/
theorem test_drawChar_pages : charPoints (inked 0 0x1100).fontByte 0 0 0x32 = [(0, 0), (1, 8), (2, 7), (2, 9)] := by
  decide +kernel
/-- V-G5. -/
theorem test_drawString : nextWith (exec (.drawString 1 4 0x2000 3 .inverse) (inked 0xFF 0x1000))
    (fun t => columnFrom t 4 5 == [0xD9, 0xAA, 0x89, 0xAA, 0xA9]) = true := by decide +kernel
/-- V-M1. -/
theorem test_drawMarquee : nextWith (exec (.drawMarquee 0x2000 2 0 0) demo)
    (fun t => t.marq.len == 2 && t.marq.mw == 8 && t.marq.mh == 5 && t.marq.act &&
      bytesFrom t 0 4 == [0x4C, 0x4C, 0x4C, 0x4C] && bytesFrom t 60 4 == [0x4C, 0x4C, 0x4C, 0x4C]) = true := by
  decide +kernel
/-- V-M9: no extent, the offset is still reduced. -/
theorem test_drawMarquee_empty : nextWith (exec (.drawMarquee 0x2002 1 3 3) demo)
    (fun t => t.marq.mw == 0 && t.marq.ox == 0 && t.marq.oy == 3 && t.buf == demo.buf) = true := by decide +kernel
/-- V-M2. -/
theorem test_stepMarquee : nextWith (exec (.stepMarquee (-1) 0) running)
    (fun t => t.marq.ox == 7 && t.res == 1 && columnFrom t 0 5 == [0x98, 0x55, 0xD9, 0x55, 0x59]) = true := by
  decide +kernel
/-- V-M3: a step by the whole extent, and V-M12: Idle. -/
theorem test_stepMarquee_still :
    nextWith (exec (.stepMarquee (-8) (-5)) { running with res := 1 })
      (fun t => t.marq.ox == 0 && t.marq.oy == 0 && t.res == 0 && t.buf == running.buf) = true ∧
    nextWith (exec (.stepMarquee (-1) 0) { demo with res := 1 })
      (fun t => t.buf == demo.buf && t.marq.ox == 0 && t.res == 0) = true := by decide +kernel
/-- V-M7: only the last column is blanked and drawn. -/
theorem test_stepSplitMarquee3 :
    nextWith (exec (.stepSplitMarquee3 0 4 31) { running with buf := (filled 0x4C).buf })
      (fun t => t.marq.ox == 7 && (List.range 5).map (fun r => t.byteAt (4 * r + 3)) ==
        [0x4C, 0x4D, 0x4D, 0x4D, 0x4D] && bytesFrom t 0 3 == [0x4C, 0x4C, 0x4C]) = true := by decide +kernel
/-- V-M8. -/
theorem test_stepSplitMarquee3_nothing :
    nextWith (exec (.stepSplitMarquee3 5 4 0) running) (fun t => t.buf == running.buf && t.marq.ox == 0) = true ∧
    nextWith (exec (.stepSplitMarquee3 0 4 32) running) (fun t => t.buf == running.buf && t.marq.ox == 0) = true := by
  decide +kernel
/-- V-C1: the load order shown by a buffer whose rows 12, 8, 4, 0 differ. -/
theorem test_scan : nextWith (exec .scan
      { blank with buf := { epoch := 0, cells := (List.range 64).map fun a => (a, BitVec.ofNat 8 a) } })
    (fun t => t.trace.take 7 == [.oe false, .sel false false, .shift 48, .shift 32, .shift 16, .shift 0, .shift 49] &&
      t.trace.drop 17 == [.shift 3, .latch, .oe true] && t.trace.length == 20 && t.regs.phase == 1 &&
      t.regs.cursor == 4 && t.regs.oeGate) = true := by decide +kernel
/-- V-C2. -/
theorem test_scan_busy : nextWith (exec .scan { blank with env := { blank.env with busBusy := true } })
    (fun t => t.regs == blank.regs && t.trace == []) = true := by decide +kernel
/-- V-C5: the gate at `BRIGHT = 128`, and the value stored. -/
theorem test_setBrightness : nextWith (exec (.setBrightness 128) blank) (fun t => t.bright == 128) = true ∧
    ({ blank with bright := 128, pwmCnt := 127, regs := { blank.regs with oeGate := true } } : State).oeOut = true ∧
    ({ blank with bright := 128, pwmCnt := 128, regs := { blank.regs with oeGate := true } } : State).oeOut = false := by
  decide +kernel
/-- V-C4. -/
theorem test_serialBits : serialBits 0x80 = [true, false, false, false, false, false, false, false] ∧
    serialBits 0x01 = [false, false, false, false, false, false, false, true] := by decide
/-- V-X7: an illegal packet in the FAULT condition. -/
theorem test_illegal_in_fault :
    nextWith (step (faulty.withPort [0x00000000])) (fun t => t.status.extractLsb' 0 4 == 0x3) = true := by
  decide +kernel
/-- R264: in the FAULT condition `DBUSY` pulses while a packet is consumed. -/
theorem test_fault_pulse : (match acceptPacket (faulty.withPort [0x02000001]) with
    | .ok t => t.status.getLsbD 8 && t.buf == faulty.buf
    | .error _ => false) = true := by decide +kernel
/-- The words a host places are fetched and run by the very next step. -/
theorem test_withFetchWord : nextWith (step (State.reset.withFetchWord 32 0x41000080))
    (fun t => t.bright == 128 && t.env.port == []) = true := by decide +kernel

/-! ### Witnesses: states and operands that meet the hypotheses of the obligations -/

/-- A legal packet is read (LegalPacketIsAnEncoding), with operands at the ends of their range. -/
theorem witness_LegalPacketIsAnEncoding : decodePacket [0x10040000, 0x80007FFF, 0x7FFF8000] =
    .packet (.drawLine 32767 (-32768) (-32768) 32767 .nor) [] := by decide
/-- A well-formed command (DecodeReadsEncodedCommand, AssembleReadsWrittenOperands). -/
theorem witness_DecodeReadsEncodedCommand :
    (Instr.drawLine 32767 (-32768) (-32768) 32767 .nor).wellFormed = true := by decide
theorem witness_AssembleReadsWrittenOperands :
    (Instr.drawMarquee 0xFFFFFFFF 0xFFFF 32767 (-32768)).wellFormed = true := by decide
/-- A row selects a packet with the last legal mode. -/
theorem witness_TableRowsDecideLegality : ∃ r ∈ opcodeTable, r.selects 0x11040000 0x0000FFFF :=
  ⟨⟨.drawCircle, 0xFFF8FFFF, 0x11000000, true⟩, by decide, by decide, fun _ => by decide, fun _ => by decide⟩
theorem witness_IllegalPacketSetsOnlyIll :
    (faulty.withPort [0x01050000, 0, 0x40000000]).ready ∧
    packetWords 0x01050000 ≤ [(0 : Word), 0x40000000].length + 1 ∧ ∀ i, decodeWords 0x01050000 0 0x40000000 ≠ .ok i := by
  refine ⟨by decide, by decide, fun i h => ?_⟩
  have e : decodeWords 0x01050000 0 0x40000000 = .error .modeReserved := by decide
  rw [e] at h
  cases h
theorem witness_StepRunsDecodedCommand : (demo.withPort [0x40000000, 0x41000080]).ready ∧
    decodePacket (demo.withPort [0x40000000, 0x41000080]).env.port = .packet .scan [0x41000080] := by decide
theorem witness_WrittenLineAssembles :
    (Instr.drawMarquee 0xFFFFFFFF 0xFFFF 32767 (-32768)).wellFormed = true := by decide
theorem witness_PixelAddressIsBijection :
    ({ w := 51, h := 5, t := 255 } : Geometry).ok Config.standard ∧
    ({ w := 51, h := 5, t := 255 } : Geometry).inDisplay 1631 79 ∧
    16319 < ({ w := 51, h := 5, t := 255 } : Geometry).bufSize := by decide
theorem witness_WritePixelOnDisplay : demo.live ∧ demo.geom.inDisplay 0 0 ∧ demo.geom.inDisplay 31 15 ∧
    ((31, 15) : Point) ≠ (0, 0) := by decide
theorem witness_WritePixelOffDisplay : demo.sticky.fault = false ∧ ¬ demo.geom.inDisplay 32 0 ∧
    ¬ demo.geom.inDisplay (-1) 0 ∧ ¬ demo.geom.inDisplay 0 16 ∧ ¬ demo.geom.inDisplay 0 (-1) := by decide
theorem witness_ClearScreenFillsBuffer : demo.sticky.fault = false ∧ 63 < demo.geom.bufSize ∧
    demo.geom.bufSize ≤ 64 := by decide
theorem witness_ChangeDmdResizes : demo.sticky.fault = false ∧ demo.scan = [] ∧ 1 ≤ (255 : Byte).toNat ∧
    1 ≤ (1 : Byte).toNat ∧ (255 : Byte).toNat * (1 : Byte).toNat ≤ demo.env.cfg.tMax.toNat := by decide
theorem witness_ChangeDmdFailureSetsOnlyFault : demo.sticky.fault = false ∧ demo.scan = [] ∧
    ((0 : Byte).toNat = 0 ∨ demo.env.cfg.tMax.toNat < (16 : Byte).toNat * (16 : Byte).toNat) ∧
    demo.env.cfg.tMax.toNat < (16 : Byte).toNat * (16 : Byte).toNat ∧
    ¬ ((15 : Byte).toNat = 0 ∨ (17 : Byte).toNat = 0 ∨
      demo.env.cfg.tMax.toNat < (15 : Byte).toNat * (17 : Byte).toNat) := by decide
theorem witness_ReconfigurationAgainstScanFaults :
    (scanning.sticky.fault = false ∧ scanning.scan ≠ []) ∧
    (resizing.sticky.fault = false ∧ resizing.env.resetHeld = false ∧ resizing.env.busBusy = false ∧
      resizing.scan = [] ∧
      resizing.draw = some { cmd := some (.changeDmd 2 1), rest := changeDmdProgram 2 1 demo } ∧
      ∃ i, (some (.changeDmd 2 1) : Option Instr) = some i ∧ isReconfig i = true) :=
  ⟨by decide, rfl, rfl, rfl, rfl, rfl, _, rfl, rfl⟩
/-- A live state (ShapesPaintTheirPoints, FilledBoxFillsRectangle, StepMarqueeCases). -/
theorem witness_ShapesPaintTheirPoints : demo.live := by decide
theorem witness_DegenerateBoxTogglesNothing : demo.live ∧ ((2 : Int) = 6 ∨ (2 : Int) = 2) ∧
    (demo.env.cfg.segmentEndsAgain = true ∨ ((2 : Int) = 6 ∧ (2 : Int) = 2)) ∧
    (let s : State := { demo with env := { demo.env with cfg := { demo.env.cfg with segmentEndsAgain := false } } }
     s.live ∧ (s.env.cfg.segmentEndsAgain = true ∨ ((3 : Int) = 3 ∧ (3 : Int) = 3))) := by decide
theorem witness_FilledBoxFillsRectangle : (2 : Int) ≠ 6 ∧ (2 : Int) ≠ 5 ∧ demo.live ∧ demo.geom.inDisplay 31 15 ∧ demo.geom.bufSize ≤ 64 := by
  decide
theorem witness_LinePointSequence : 5 ≤ max ((5 : Int) - 0).natAbs ((2 : Int) - 0).natAbs ∧ ((0 : Int) < 5 ∨ ((0 : Int) = 5 ∧ (9 : Int) ≤ 2)) ∧
    ((0 : Int) < 0 ∨ ((0 : Int) = 0 ∧ (2 : Int) ≤ 2)) := by decide
theorem witness_CirclePointSymmetry : ((3 + 2, 4 + 1) : Point) ∈ circlePoints 3 4 2 ∧ (-1 : Int) < 0 ∧ (0 : Int) = 0 ∧
    (0 : Int) ≤ 0 ∧ (0 : Int) < 1 ∧ (1 : Int) ≤ 1 := by
  decide
theorem witness_BoxPointsAreTheOutline : (2 : Int) ≠ 6 ∧ (2 : Int) ≠ 5 ∧ ((2, 2) : Point) ∈ boxPoints 2 2 6 5 ∧
    ((3, 2) : Point) ∈ boxPoints 2 2 6 5 ∧ ((6, 2) : Point) ∈ boxPoints 2 2 6 2 ∧
    ((3, 2) : Point) ∈ boxPoints 2 2 6 2 ∧ ((3, 3) : Point) ∈ boxPoints 3 3 3 3 := by decide
theorem witness_TestPatternPicture : demo.live ∧ demo.geom.inDisplay (31 : Nat) (15 : Nat) := by decide
theorem witness_SelectFontStoresReference : State.reset.sticky.fault = false := by decide
/-- A live state with a font selected; the last letter of the font, and the first after it. -/
theorem witness_CharWidthPutsWidthInRes : demo.sticky.fault = false ∧ demo.font.sel = true ∧
    ¬ ((0x42 : Byte).toNat < demo.fontByte 4 ∨ demo.fontByte 4 + demo.fontByte 5 ≤ (0x42 : Byte).toNat) ∧
    demo.fontByte 4 + demo.fontByte 5 ≤ (0x43 : Byte).toNat := by decide
theorem witness_DrawCharPaintsGlyph : demo.live ∧ demo.font.sel = true := by decide
theorem witness_DrawStringPaintsText : (inked 0xFF 0x1100).live ∧ (inked 0xFF 0x1100).font.sel = true := by decide
theorem witness_NoFontRefusesGlyphCommands : blank.sticky.fault = false ∧ blank.font.sel = false := by decide
/-- Both lengths at the cap: 255 is kept whole, 256 is cut. -/
theorem witness_DrawMarqueeStartsMarquee : demo.live ∧ demo.font.sel = true ∧
    ¬ 255 < (255 : BitVec 16).toNat ∧ 255 < (256 : BitVec 16).toNat ∧ min (256 : BitVec 16).toNat 255 ≤ 255 := by
  decide
/-- A step of the running marquee redraws (R205). -/
abbrev changes (dx dy : Int) : Prop :=
  running.marq.len ≠ 0 ∧ 0 < running.marq.mw.toInt ∧ 0 < running.marq.mh.toInt ∧
    (canon (running.marq.ox.toInt + dx) running.marq.mw.toInt ≠ running.marq.ox.toInt ∨
      canon (running.marq.oy.toInt + dy) running.marq.mh.toInt ≠ running.marq.oy.toInt)
theorem witness_StepMarqueeCases : (demo.live ∧ demo.marq.act = false) ∧ (running.live ∧ running.marq.act = true) ∧
    (¬ changes (-8) 5 ∧ ¬ changes 0 0 ∧ changes (-7) 5 ∧ changes (-8) 1) := by
  decide +kernel
/-- A blank picture, and a step whose sum is a multiple of the extent of the text "AB" in font T1. -/
theorem witness_MarqueeWrapIdempotence : demo.live ∧ demo.font.sel = true ∧
    (∀ x y, demo.geom.inDisplay x y → demo.getPixel x y = false) ∧
    nextWith (exec (.drawMarquee 0x2000 2 0 0) demo)
      (fun u => decide (u.marq.mw.toInt ∣ ([(-3, 0), (-5, 5)].map Prod.fst).sum ∧
        u.marq.mh.toInt ∣ ([(-3, 0), (-5, 5)].map Prod.snd).sum)) = true := by
  refine ⟨by decide, by decide, fun x y h => ?_, by decide +kernel⟩
  have hx : x = (x.toNat : Int) := by omega
  have hy : y = (y.toNat : Int) := by omega
  obtain ⟨h0, h1, h2, h3⟩ := h
  have h2' : x < 32 := h2
  have h3' : y < 16 := h3
  have all : ∀ j < 16, ∀ i < 32, demo.getPixel ((i : Nat) : Int) ((j : Nat) : Int) = false := by decide +kernel
  rw [hx, hy]
  exact all _ (by omega) _ (by omega)
/-- The marquee of the text "AB" at the offset (7, 4). -/
theorem witness_FrameRepeatsTextBitmap :
    let v : MarqueeView := { text := [0x41, 0x42], mw := 8, mh := 5, ox := 7, oy := 4 }
    v.mw = textWidth 1 demo.fontByte v.text ∧ v.mh = demo.fontByte 3 ∧ 0 < v.mw ∧ 0 < v.mh ∧
      v.ox = canon v.ox v.mw ∧ v.oy = canon v.oy v.mh ∧ demo.geom.inDisplay 31 15 := by decide
/-- An empty band, and a band of one pixel in the last column. -/
theorem witness_StepSplitMarqueeMovesBand : running.live ∧
    (running.marq.act = true ∧ running.marq.len ≠ 0 ∧ 0 < running.marq.view.mw ∧ 0 < running.marq.view.mh) ∧
    ¬ max (5 : Int) 0 ≤ min 4 ((running.geom.dh : Int) - 1) ∧ ¬ max (32 : Int) 0 ≤ (running.geom.dw : Int) - 1 ∧
    max (15 : Int) 0 ≤ min 15 ((running.geom.dh : Int) - 1) ∧ max (31 : Int) 0 ≤ (running.geom.dw : Int) - 1 := by
  decide +kernel
/-- A band of two pixels that shows the marquee: row 1, columns 30 and 31 of the frame of V-M1 (`AA`). -/
theorem witness_SplitStepEqualsStepOnBand :
    let s : State := { running with buf := { epoch := 0, cells := [(7, 0xAA)] } }
    let v := s.marq.view
    s.live ∧ s.marq.act = true ∧ s.marq.ok ∧ 0 < v.mw ∧ 0 < v.mh ∧
    v.mw = textWidth s.charGap s.fontByte v.text ∧ v.mh = s.fontByte 3 ∧
    max (1 : Int) 0 ≤ min 1 ((s.geom.dh : Int) - 1) ∧ max (30 : Int) 0 ≤ (s.geom.dw : Int) - 1 ∧
    ∀ x y, s.geom.inDisplay x y → max (1 : Int) 0 ≤ y ∧ y ≤ min 1 ((s.geom.dh : Int) - 1) ∧ max (30 : Int) 0 ≤ x →
      s.getPixel x y = decide ((x, y) ∈ renderPoints s.charGap s.fontByte s.geom v s.geom.window) := by
  refine ⟨by decide, rfl, by decide, by decide, by decide, by decide +kernel, by decide, by decide, by decide, ?_⟩
  rintro x y ⟨-, -, h2, -⟩ ⟨h4, h5, h6⟩
  have h2' : x < 32 := h2
  have h5' : y ≤ min 1 15 := h5
  have hy : y = 1 := by omega
  have hx : x = 30 ∨ x = 31 := by omega
  subst hy
  rcases hx with rfl | rfl <;> decide +kernel
theorem witness_ScanEmitsOneRowGroup : demo.sticky.fault = false ∧ demo.scan = [] ∧ demo.scanOnPort = false ∧
    demo.env.busBusy = false := by decide
theorem witness_ScanByteOrder : demo.sticky.fault = false ∧ demo.scan = [] ∧ demo.scanOnPort = false ∧
    demo.env.busBusy = false ∧ 0 < 4 * demo.geom.rowLen ∧ 15 < 4 * demo.geom.rowLen := by decide
theorem witness_FourScansCoverTheBuffer : demo.sticky.fault = false ∧ demo.scan = [] ∧
    demo.scanOnPort = false ∧ demo.env.busBusy = false := by decide
theorem witness_SkippedScansChangeNothing :
    (demo.scan = [] ∧ demo.scanOnPort = false ∧
      ({ demo with env := { demo.env with busBusy := true } } : State).env.busBusy = true) ∧
    faulty.sticky.fault = true ∧ scanning.scan ≠ [] ∧ demo.env.resetHeld = false ∧
    demo.reconfiguring = false := by decide
theorem witness_ScanPacketWaitsForScan : scanning.sticky.fault = false ∧ scanning.scan ≠ [] ∧
    ∃ u, scanning.finishScan = .ok u := ⟨by decide, by decide, _, rfl⟩
theorem witness_SetBrightnessStoresValue : demo.sticky.fault = false := by decide
theorem witness_BrightnessIsDutyCycle : demo.regs.oeGate = false ∧
    ({ demo with regs := { demo.regs with oeGate := true }, bright := 255 } : State).regs.oeGate = true := by decide
theorem witness_PwmTickAdvancesCounter :
    (demo.withSched [.pwmTick, .scanRequest]).env.sched = .pwmTick :: [.scanRequest] ∧
    (demo.withSched [.pwmTick, .scanRequest]).env.resetHeld = false := by decide
theorem witness_FaultConditionRefusesCommands : faulty.sticky.fault = true := by decide
theorem witness_OnlyResetLeavesFault : (faulty.withSched [.accept]).refusing ∧
    ({ faulty with draw := some { cmd := none, rest := [.reg (.flag .ill)] }, scan := [.skip] } : State).refusing ∧
    ∀ rest, (faulty.withSched [.accept]).env.sched ≠ .reset true :: rest :=
  ⟨by decide, by decide, fun _ h => by cases h⟩
theorem witness_FaultConditionPulsesBusy : (faulty.withPort [0x40000000]).ready ∧ faulty.sticky.fault = true ∧
    faulty.scan = [] ∧ decodePacket (faulty.withPort [0x40000000]).env.port = .packet .scan [] ∧
    decodePacket (faulty.withPort [0x41000080]).env.port = .packet (.setBrightness 128) [] := by decide
theorem witness_StickyBitsStaySet : (∀ rest, (faulty.withPort [0x02000001]).env.sched ≠ .reset true :: rest) ∧
    (∃ t, step (faulty.withPort [0x02000001]) = .next t) ∧
    (faulty.withPort [0x02000001]).sticky.get .fault = true :=
  ⟨fun _ h => (by cases h), ⟨_, rfl⟩, rfl⟩
/-- The reserved bits at the ends of their ranges. -/
theorem witness_StatusLayout : (4 ≤ 4 ∧ 4 < 8) ∧ (4 ≤ 7 ∧ 7 < 8) ∧ 12 ≤ 12 := by decide
/-- Reset asserted while a scan is in progress. -/
theorem witness_ResetGivesTableValues : (scanning.withSched [.reset true]).env.sched = .reset true :: [] ∧
    (∃ t, step (scanning.withSched [.reset true]) = .next t) ∧
    ({ scanning with env := { scanning.env with resetHeld := true } } : State).env.resetHeld = true :=
  ⟨rfl, ⟨_, rfl⟩, rfl⟩
/-- A state with a picture, a font and a packet that meets the invariant, and its step. -/
theorem witness_StepKeepsInvariant : (demo.withPort [0x40000000]).Inv ∧
    ∃ t, step (demo.withPort [0x40000000]) = .next t :=
  ⟨{ cfg := by decide
     rom := by decide
     geom := by decide
     buffer := by decide +kernel
     cursor := by decide
     marq := by decide
     port := fun h => by cases h
     resize := fun h => by cases h }, _, rfl⟩
theorem witness_EveryCommandCompletes : demo.geomOk ∧ demo.scan = [] := by decide
theorem witness_CommandsWriteOnlyTheirState : ∃ t, exec (.selectFont 0x1100) demo = .next t := ⟨_, rfl⟩
theorem witness_StepKeepsResourceMemory : ∃ t, step (demo.withPort [0x20000000, 0x1100]) = .next t := ⟨_, rfl⟩
theorem witness_MicroStepsReachCommandResult :
    let s := demo.withPort [0x01000001, 0x00030005]
    s.ready ∧ Instr.writePixel 5 3 .normal true ≠ .scan ∧
    decodePacket s.env.port = .packet (.writePixel 5 3 .normal true) [] ∧
    ∃ t, exec (.writePixel 5 3 .normal true) (s.withPort []) = .next t :=
  ⟨by decide, by decide, by decide, _, rfl⟩
theorem witness_MicroStepsReachScanResult :
    let s := demo.withPort [0x40000000]
    s.ready ∧ s.scan = [] ∧ decodePacket s.env.port = .packet .scan [] ∧
    ∃ t, exec .scan (s.withPort []) = .next t := ⟨by decide, rfl, by decide, _, rfl⟩
/-- A scan request in the middle of a drawing command. -/
theorem witness_ScanRequestReachesScanResult :
    let s : State := { demo with
      draw := some { cmd := some (.writePixel 5 3 .normal true), rest := [.pixel 5 3 .normal true] } }
    s.sticky.fault = false ∧ s.env.resetHeld = false ∧ s.env.busBusy = false ∧ s.scan = [] ∧
    s.scanOnPort = false ∧ s.reconfiguring = false := by decide
/-- A drawing command accepted, then its load, a scan's first operations and its store interleaved. -/
theorem witness_InterleavingKeepsDrawing :
    let s : State := { demo with
      draw := some { cmd := some (.writePixel 5 3 .normal true), rest := [.pixel 5 3 .normal true] } }
    let es : List Input := [.scanRequest, .drawStep, .scanStep, .busBusy true, .scanStep, .pwmTick, .drawStep]
    s.env.resetHeld = false ∧ (∀ e ∈ es, e.duringCommand = true) ∧ ∃ t, applyInputs es s = .ok t :=
  ⟨rfl, by decide, _, rfl⟩

end Sys2Proof.Tests
end

section
/-! PROOFS. What a command of the draw engine writes, as a list of targets, and what it therefore leaves. -/

namespace Sys2Proof.Proofs

open Sys2Proof.Machine Sys2Proof.Laws

/-- A part of the state the draw engine can write (R23 to R31, R40, R41). -/
inductive Target where
  | geometry
  | scanPosition
  | bright
  | font
  | marquee
  | res
  | flag (f : Flag)
  | buffer

/-- The parts a register write touches; with `T` the buffer changes its size (R125). -/
def regTargets : RegWrite → List Target
  | .width _ | .height _ => [.geometry]
  | .total _ => [.geometry, .buffer]
  | .phaseZero | .cursorZero => [.scanPosition]
  | .bright _ => [.bright]
  | .font _ | .fontSel => [.font]
  | .mtext _ _ | .mlen _ | .mwidth _ | .mheight _ | .mact | .offsetX _ | .offsetY _ => [.marquee]
  | .res _ => [.res]
  | .flag f => [.flag f]

/-- The parts an operation touches. -/
def microTargets : Micro → List Target
  | .reg w => regTargets w
  | .pixel _ _ _ _ | .merge _ _ _ _ _ | .copyLeft _ _ | .store _ _ | .forget _ => [.buffer]

/-- The parts a command touches when it runs on the draw engine. -/
def commandTargets : Instr → List Target
  | .writePixel _ _ _ _ | .clearScreen _ | .drawLine _ _ _ _ _ | .drawCircle _ _ _ _ | .drawBox _ _ _ _ _
  | .drawFilledBox _ _ _ _ _ | .drawTestPattern _ => [.buffer]
  | .changeDmd _ _ => [.geometry, .scanPosition, .buffer, .flag .fault]
  | .selectFont _ => [.font]
  | .charWidth _ => [.res, .flag .noFont]
  | .drawChar _ _ _ _ => [.buffer, .res, .flag .noFont]
  | .drawString _ _ _ _ _ => [.buffer, .flag .noFont]
  | .drawMarquee _ _ _ _ => [.buffer, .marquee, .flag .noFont, .flag .mTrunc]
  | .stepMarquee _ _ => [.buffer, .marquee, .res]
  | .stepSplitMarquee3 _ _ _ => [.buffer, .marquee]
  | .scan => []
  | .setBrightness _ => [.bright]

/-! ### One operation -/

/-- The two states agree in one part. -/
def SameAt : Target → State → State → Prop
  | .geometry, s, t => t.geom = s.geom ∧ t.buf.epoch = s.buf.epoch
  | .scanPosition, s, t => t.regs = s.regs
  | .bright, s, t => t.bright = s.bright
  | .font, s, t => t.font = s.font
  | .marquee, s, t => t.marq = s.marq
  | .res, s, t => t.res = s.res
  | .flag f, s, t => t.sticky.get f = s.sticky.get f
  | .buffer, s, t => t.buf.cells = s.buf.cells

theorem SameAt.rfl {x : Target} {s : State} : SameAt x s s := by
  cases x <;> simp [SameAt]

theorem SameAt.trans {x : Target} {s t u : State} (h₁ : SameAt x s t) (h₂ : SameAt x t u) : SameAt x s u := by
  cases x <;> simp_all [SameAt]

/-- A register write leaves every part it does not name. -/
theorem applyReg_sameAt {w : RegWrite} {x : Target} (s : State) (hx : x ∉ regTargets w) :
    SameAt x s (applyReg w s) := by
  cases w with
  | flag f => cases x <;> simp_all [regTargets, applyReg, SameAt, sticky_set_get, eq_comm]
  | _ => cases x <;> simp_all [regTargets, applyReg, SameAt]

/-- An operation that is no register write changes only bytes of the buffer. -/
theorem runMicro_buffer {m : Micro} {s t : State} (h : runMicro m s = .ok t) (hm : ∀ w, m ≠ .reg w) :
    t = { s with buf := { s.buf with cells := t.buf.cells } } := by
  rcases runMicro_cases h with rfl | ⟨a, v, _, rfl⟩ | ⟨a, _, _, rfl⟩ | ⟨w, rfl, _⟩
  · rfl
  · rfl
  · rfl
  · exact absurd rfl (hm w)

/-- An operation leaves every part it does not name. -/
theorem runMicro_sameAt {m : Micro} {s t : State} {x : Target} (h : runMicro m s = .ok t)
    (hx : x ∉ microTargets m) : SameAt x s t := by
  cases m with
  | reg w => exact Except.ok.inj h ▸ applyReg_sameAt s hx
  | _ =>
    rw [runMicro_buffer h (by simp)]
    cases x <;> simp_all [microTargets, SameAt]

/-- No operation of the draw engine touches the surroundings, the engines' progress, the outputs or `PWMCNT`. -/
theorem runMicro_frame {m : Micro} {s t : State} (h : runMicro m s = .ok t) :
    t.env = s.env ∧ t.pwmCnt = s.pwmCnt ∧ t.draw = s.draw ∧ t.scan = s.scan ∧ t.scanOnPort = s.scanOnPort ∧
      t.trace = s.trace := by
  cases m with
  | reg w =>
    rw [← Except.ok.inj h]
    simp
  | _ =>
    rw [runMicro_buffer h (by simp)]
    simp

/-- CHANGEDMD's writes to the scan state leave the held outputs (R28). -/
theorem runMicro_outputs {m : Micro} {s t : State} (h : runMicro m s = .ok t) :
    t.regs.oeGate = s.regs.oeGate ∧ t.regs.selA = s.regs.selA ∧ t.regs.selB = s.regs.selB := by
  cases m with
  | reg w =>
    rw [← Except.ok.inj h]
    cases w <;> simp [applyReg]
  | _ =>
    rw [runMicro_buffer h (by simp)]
    simp

/-! ### A list of operations -/

/-- A list of operations leaves every part that none of them names. -/
theorem runMicros_sameAt {ms : List Micro} {s t : State} {x : Target} (h : runMicros ms s = .ok t)
    (hx : ∀ m ∈ ms, x ∉ microTargets m) : SameAt x s t :=
  runMicros_induct (P := SameAt x s) (fun m hm _ _ hu hw => hu.trans (runMicro_sameAt hw (hx m hm))) .rfl h

theorem runMicros_frame {ms : List Micro} {s t : State} (h : runMicros ms s = .ok t) :
    t.env = s.env ∧ t.pwmCnt = s.pwmCnt ∧ t.draw = s.draw ∧ t.scan = s.scan ∧ t.scanOnPort = s.scanOnPort ∧
      t.trace = s.trace := by
  refine runMicros_induct (P := fun u => u.env = s.env ∧ u.pwmCnt = s.pwmCnt ∧ u.draw = s.draw ∧
    u.scan = s.scan ∧ u.scanOnPort = s.scanOnPort ∧ u.trace = s.trace) (fun m _ u w hu hw => ?_) (by simp) h
  simpa only [runMicro_frame hw] using hu

theorem runMicros_outputs {ms : List Micro} {s t : State} (h : runMicros ms s = .ok t) :
    t.regs.oeGate = s.regs.oeGate ∧ t.regs.selA = s.regs.selA ∧ t.regs.selB = s.regs.selB := by
  refine runMicros_induct (P := fun u => u.regs.oeGate = s.regs.oeGate ∧ u.regs.selA = s.regs.selA ∧
    u.regs.selB = s.regs.selB) (fun m _ u w hu hw => ?_) (by simp) h
  simpa only [runMicro_outputs hw] using hu

/-- Every operation of the list names only these parts. -/
def WritesOnly (ts : List Target) (ms : List Micro) : Prop := ∀ m ∈ ms, microTargets m ⊆ ts

variable {ts : List Target}

@[simp] theorem writesOnly_nil : WritesOnly ts [] := by simp [WritesOnly]

@[simp] theorem writesOnly_cons {m : Micro} {ms : List Micro} :
    WritesOnly ts (m :: ms) ↔ microTargets m ⊆ ts ∧ WritesOnly ts ms := by simp [WritesOnly]

@[simp] theorem writesOnly_append {ms ns : List Micro} :
    WritesOnly ts (ms ++ ns) ↔ WritesOnly ts ms ∧ WritesOnly ts ns := by
  simp [WritesOnly, or_imp, forall_and]

theorem writesOnly_map {α : Type} {f : α → Micro} (h : ∀ a, microTargets (f a) ⊆ ts) (as : List α) :
    WritesOnly ts (as.map f) := by
  intro m hm
  obtain ⟨a, _, rfl⟩ := List.mem_map.1 hm
  exact h a

theorem writesOnly_flatMap {α : Type} {f : α → List Micro} (h : ∀ a, WritesOnly ts (f a)) (as : List α) :
    WritesOnly ts (as.flatMap f) := by
  intro m hm
  obtain ⟨a, _, ha⟩ := List.mem_flatMap.1 hm
  exact h a m ha

theorem writesOnly_plotAll (h : Target.buffer ∈ ts) (mode : Mode) (ps : List Point) :
    WritesOnly ts (plotAll mode ps) :=
  writesOnly_map (by simpa [microTargets] using h) ps

theorem writesOnly_fillAll (h : Target.buffer ∈ ts) (g : Geometry) (v : Byte) : WritesOnly ts (fillAll g v) :=
  writesOnly_map (by simpa [microTargets] using h) _

theorem writesOnly_render (h : Target.buffer ∈ ts) (s : State) (v : MarqueeView) (win : Window) :
    WritesOnly ts (s.render v win) :=
  writesOnly_plotAll h _ _

theorem writesOnly_shiftRow (h : Target.buffer ∈ ts) (g : Geometry) (c y : Int) :
    WritesOnly ts (shiftRow g c y) :=
  writesOnly_append.2 ⟨writesOnly_map (by simpa [microTargets] using h) _, by simpa [microTargets] using h⟩

theorem writesOnly_needFont {ms : List Micro} (h : Target.flag .noFont ∈ ts) (s : State)
    (hms : WritesOnly ts ms) : WritesOnly ts (needFont s ms) := by
  unfold needFont
  split
  · exact hms
  · simpa [microTargets, regTargets] using h

/-- A command's operations name only the command's parts. -/
theorem drawProgram_writesOnly (i : Instr) (s : State) : WritesOnly (commandTargets i) (drawProgram i s) := by
  cases i with
  | writePixel => simp [drawProgram, writePixelProgram, microTargets, commandTargets]
  | clearScreen => exact writesOnly_fillAll (by simp [commandTargets]) _ _
  | changeDmd w h =>
    simp only [drawProgram, changeDmdProgram]
    split
    · simp only [writesOnly_append]
      exact ⟨by simp [microTargets, regTargets, commandTargets],
        writesOnly_map (by simp [microTargets, commandTargets]) _⟩
    · simp [microTargets, regTargets, commandTargets]
  | drawLine | drawCircle | drawBox | drawFilledBox => exact writesOnly_plotAll (by simp [commandTargets]) _ _
  | drawTestPattern =>
    exact writesOnly_flatMap (fun _ => writesOnly_map (by simp [microTargets, commandTargets]) _) _
  | selectFont => simp [drawProgram, selectFontProgram, microTargets, regTargets, commandTargets]
  | charWidth =>
    exact writesOnly_needFont (by simp [commandTargets]) s (by simp [microTargets, regTargets, commandTargets])
  | drawChar =>
    refine writesOnly_needFont (by simp [commandTargets]) s (writesOnly_append.2 ⟨?_, ?_⟩)
    · exact writesOnly_plotAll (by simp [commandTargets]) _ _
    · simp [microTargets, regTargets, commandTargets]
  | drawString =>
    exact writesOnly_needFont (by simp [commandTargets]) s (writesOnly_plotAll (by simp [commandTargets]) _ _)
  | drawMarquee =>
    refine writesOnly_needFont (by simp [commandTargets]) s ?_
    simp only [writesOnly_append]
    refine ⟨?_, writesOnly_map (by simp [microTargets, regTargets, commandTargets]) _, ?_,
      writesOnly_render (by simp [commandTargets]) s _ _⟩
    · split <;> simp [microTargets, regTargets, commandTargets]
    · simp [microTargets, regTargets, commandTargets]
  | stepMarquee =>
    simp only [drawProgram, stepMarqueeProgram]
    have hfill := writesOnly_fillAll (ts := [.buffer, .marquee, .res]) (by simp) s.geom
    have hrender := writesOnly_render (ts := [.buffer, .marquee, .res]) (by simp) s
    split
    · split <;> simp [microTargets, regTargets, commandTargets, hfill, hrender]
    · simp [microTargets, regTargets, commandTargets]
  | stepSplitMarquee3 =>
    simp only [drawProgram, stepSplitMarquee3Program]
    have hshift := fun c => writesOnly_flatMap
      (writesOnly_shiftRow (ts := [.buffer, .marquee]) (by simp) s.geom c)
    have hrender := writesOnly_render (ts := [.buffer, .marquee]) (by simp) s
    split <;> simp [microTargets, regTargets, commandTargets, hshift, hrender]
  | scan => exact writesOnly_nil
  | setBrightness => simp [drawProgram, setBrightnessProgram, microTargets, regTargets, commandTargets]

/-- A part that a command does not name is named by none of its operations. -/
theorem drawProgram_avoids {i : Instr} {x : Target} (s : State) (hx : x ∉ commandTargets i) :
    ∀ m ∈ drawProgram i s, x ∉ microTargets m :=
  fun m hm h => hx (drawProgram_writesOnly i s m hm h)

/-! ### Executing a command -/

/-- A draw command that answers a state either is refused in the FAULT condition or performs its operations, and
then CHANGEDMD has found no scan in progress (R85, R266). -/
theorem exec_draw_cases {i : Instr} {s t : State} (hi : i ≠ .scan) (h : exec i s = .next t) :
    (s.sticky.fault = true ∧ t = s) ∨
      (s.sticky.fault = false ∧ (isReconfig i = true → s.scan = []) ∧ runMicros (drawProgram i s) s = .ok t) := by
  have hrun : s.runCommand (drawProgram i s) = .next t ∧
      (s.sticky.fault = false → isReconfig i = true → s.scan = []) := by
    cases i with
    | scan => exact absurd rfl hi
    | changeDmd w h' =>
      simp only [exec, execChangeDmd] at h
      split at h
      · cases h
      · next hn => exact ⟨h, by simpa [isReconfig] using hn⟩
    | _ => exact ⟨h, fun _ hr => by cases hr⟩
  rcases runCommand_cases hrun.1 with hf | ⟨hf, hr⟩
  · exact .inl hf
  · exact .inr ⟨hf, hrun.2 hf, hr⟩

/-- A draw command leaves every part it does not name. -/
theorem exec_sameAt {i : Instr} {s t : State} {x : Target} (hi : i ≠ .scan) (h : exec i s = .next t)
    (hx : x ∉ commandTargets i) : SameAt x s t := by
  rcases exec_draw_cases hi h with ⟨_, rfl⟩ | ⟨_, _, hr⟩
  · exact .rfl
  · exact runMicros_sameAt hr (drawProgram_avoids s hx)

/-- No draw command touches the surroundings, the engines' progress, the outputs or `PWMCNT`. -/
theorem exec_draw_frame {i : Instr} {s t : State} (hi : i ≠ .scan) (h : exec i s = .next t) :
    t.env = s.env ∧ t.pwmCnt = s.pwmCnt ∧ t.draw = s.draw ∧ t.scan = s.scan ∧ t.scanOnPort = s.scanOnPort ∧
      t.trace = s.trace := by
  rcases exec_draw_cases hi h with ⟨_, rfl⟩ | ⟨_, _, hr⟩
  · simp
  · exact runMicros_frame hr

theorem exec_draw_outputs {i : Instr} {s t : State} (hi : i ≠ .scan) (h : exec i s = .next t) :
    t.regs.oeGate = s.regs.oeGate ∧ t.regs.selA = s.regs.selA ∧ t.regs.selB = s.regs.selB := by
  rcases exec_draw_cases hi h with ⟨_, rfl⟩ | ⟨_, _, hr⟩
  · simp
  · exact runMicros_outputs hr

/-- SCAN that answers a state either is refused in the FAULT condition or first finishes the scan in progress and
then performs its own operations (R50, R245). -/
theorem exec_scan_cases {s t : State} (h : exec .scan s = .next t) :
    (s.sticky.fault = true ∧ t = s) ∨
      (s.sticky.fault = false ∧ ∃ u, s.finishScan = .ok u ∧ runScanMicros u.scanOps u = .ok t) := by
  simp only [exec, execScan] at h
  split at h
  · next hf => exact .inl ⟨hf, by cases h; rfl⟩
  · next hf =>
    split at h
    · next u hu => exact .inr ⟨by simpa using hf, u, hu, toOutcome_next.1 h⟩
    · cases h

/-- SCAN touches only the scan engine, its registers and the trace (R230). -/
theorem exec_scan_frame {s t : State} (h : exec .scan s = .next t) :
    t = { s with regs := t.regs, trace := t.trace, scan := t.scan, scanOnPort := t.scanOnPort } := by
  rcases exec_scan_cases h with ⟨_, rfl⟩ | ⟨_, u, hu, ht⟩
  · rfl
  · obtain ⟨w, hw, rfl⟩ := finishScan_ok.1 hu
    rw [runScanMicros_cases ht, runScanMicros_cases hw]

/-- No command touches the surroundings (R52). -/
theorem exec_env {i : Instr} {s t : State} (h : exec i s = .next t) : t.env = s.env := by
  by_cases hi : i = .scan
  · subst hi
    rw [exec_scan_frame h]
  · exact (exec_draw_frame hi h).1

/-! ### Which commands name a part -/

section
variable {i : Instr}

theorem geometry_mem_commandTargets : .geometry ∈ commandTargets i ↔ isReconfig i = true := by
  cases i <;> simp [commandTargets, isReconfig]

theorem scanPosition_mem_commandTargets : .scanPosition ∈ commandTargets i ↔ isReconfig i = true := by
  cases i <;> simp [commandTargets, isReconfig]

theorem fault_mem_commandTargets : .flag .fault ∈ commandTargets i ↔ isReconfig i = true := by
  cases i <;> simp [commandTargets, isReconfig]

theorem ill_not_mem_commandTargets : .flag .ill ∉ commandTargets i := by
  cases i <;> simp [commandTargets]

theorem bright_mem_commandTargets : .bright ∈ commandTargets i ↔ ∃ v, i = .setBrightness v := by
  cases i <;> simp [commandTargets]

theorem font_mem_commandTargets : .font ∈ commandTargets i ↔ ∃ a, i = .selectFont a := by
  cases i <;> simp [commandTargets]

theorem marquee_mem_commandTargets : .marquee ∈ commandTargets i ↔
    (∃ a n l p, i = .drawMarquee a n l p) ∨ (∃ dx dy, i = .stepMarquee dx dy) ∨
      ∃ a b c, i = .stepSplitMarquee3 a b c := by
  cases i <;> simp [commandTargets]

theorem res_mem_commandTargets : .res ∈ commandTargets i ↔
    (∃ c, i = .charWidth c) ∨ (∃ x y c m, i = .drawChar x y c m) ∨ ∃ dx dy, i = .stepMarquee dx dy := by
  cases i <;> simp [commandTargets]

theorem noFont_mem_commandTargets : .flag .noFont ∈ commandTargets i ↔
    (∃ c, i = .charWidth c) ∨ (∃ x y c m, i = .drawChar x y c m) ∨ (∃ x y a n m, i = .drawString x y a n m) ∨
      ∃ a n l p, i = .drawMarquee a n l p := by
  cases i <;> simp [commandTargets]

theorem mTrunc_mem_commandTargets : .flag .mTrunc ∈ commandTargets i ↔ ∃ a n l p, i = .drawMarquee a n l p := by
  cases i <;> simp [commandTargets]

theorem buffer_not_mem_commandTargets
    (h : (∃ a, i = .selectFont a) ∨ (∃ c, i = .charWidth c) ∨ i = .scan ∨ ∃ v, i = .setBrightness v) :
    .buffer ∉ commandTargets i ∧ .geometry ∉ commandTargets i := by
  rcases h with ⟨a, rfl⟩ | ⟨c, rfl⟩ | rfl | ⟨v, rfl⟩ <;> simp [commandTargets]

end

/-- Settles O51: SCAN by its frame, every other command by the parts its operations name. -/
theorem commandsWriteOnlyTheirState : Obligations.CommandsWriteOnlyTheirState := by
  intro i s t h
  by_cases hi : i = .scan
  · subst hi
    rw [exec_scan_frame h]
    simp
  · obtain ⟨henv, hpwm, hdraw, hscan, hport, htrace⟩ := exec_draw_frame hi h
    have keeps {x : Target} (hx : x ∉ commandTargets i) : SameAt x s t := exec_sameAt hi h hx
    refine ⟨henv, hpwm, hdraw, keeps ill_not_mem_commandTargets, fun hr => ?_, fun hr _ => ?_,
      fun _ => ⟨htrace, hscan, hport, exec_draw_outputs hi h⟩, fun hb => ?_, fun hf => ?_, fun hd hm hp => ?_,
      fun hw hc hm => ?_, fun hw hc hs hd => ?_, fun hd => ?_, fun hb => ?_⟩
    · obtain ⟨hgeom, hepoch⟩ := keeps (x := .geometry) (by simp [geometry_mem_commandTargets, hr])
      exact ⟨hgeom, hepoch, keeps (x := .flag .fault) (by simp [fault_mem_commandTargets, hr])⟩
    · exact keeps (x := .scanPosition) (by simp [scanPosition_mem_commandTargets, hr])
    · exact keeps (x := .bright) (by simp [bright_mem_commandTargets, hb])
    · exact keeps (x := .font) (by simp [font_mem_commandTargets, hf])
    · exact keeps (x := .marquee) (by simp [marquee_mem_commandTargets, hd, hm, hp])
    · exact keeps (x := .res) (by simp [res_mem_commandTargets, hw, hc, hm])
    · exact keeps (x := .flag .noFont) (by simp [noFont_mem_commandTargets, hw, hc, hs, hd])
    · exact keeps (x := .flag .mTrunc) (by simp [mTrunc_mem_commandTargets, hd])
    · obtain ⟨hbuf, hgeom⟩ := buffer_not_mem_commandTargets hb
      have hcells : t.buf.cells = s.buf.cells := keeps hbuf
      have hepoch : t.buf.epoch = s.buf.epoch := (keeps hgeom).2
      cases hs : s.buf
      cases ht : t.buf
      simp_all

end Sys2Proof.Proofs
end

section
/-! PROOFS. A command executed whole is one of the interleavings: the engines' micro-steps reach its result. -/

namespace Sys2Proof.Proofs

open Sys2Proof.Machine Sys2Proof.Laws

/-! ### Runs of micro-steps -/

theorem drawSteps_add {n k : Nat} {s t u : State} (h₁ : drawSteps n s = .ok t) (h₂ : drawSteps k t = .ok u) :
    drawSteps (n + k) s = .ok u := by
  induction n generalizing s with
  | zero => cases h₁; simpa using h₂
  | succ n ih =>
    simp only [drawSteps] at h₁
    rw [Nat.succ_add]
    simp only [drawSteps]
    split at h₁
    · next s' hs => simpa [hs] using ih h₁
    · cases h₁

/-- Some number of the draw engine's micro-steps lead from the first state to the second. -/
def DrawReaches (s t : State) : Prop := ∃ n, drawSteps n s = .ok t

theorem DrawReaches.rfl {s : State} : DrawReaches s s := ⟨0, by simp [drawSteps]⟩

theorem DrawReaches.trans {s t u : State} : DrawReaches s t → DrawReaches t u → DrawReaches s u :=
  fun ⟨n, hn⟩ ⟨k, hk⟩ => ⟨n + k, drawSteps_add hn hk⟩

theorem DrawReaches.of_drawAdvance {s t : State} (h : drawAdvance s = .ok t) : DrawReaches s t :=
  ⟨1, by simp [drawSteps, h]⟩

/-! ### The draw engine -/

/-- The state with this progress of the draw engine. -/
def setDraw (d : Option DrawProgress) (s : State) : State := { s with draw := d }

@[simp] theorem setDraw_geom (d : Option DrawProgress) (s : State) : (setDraw d s).geom = s.geom := rfl

theorem setDraw_self {d : Option DrawProgress} {s : State} (h : s.draw = d) : setDraw d s = s := by
  rw [← h, setDraw]

@[simp] theorem load_setDraw (d : Option DrawProgress) (s : State) (a : Nat) :
    (setDraw d s).load a = s.load a := rfl

@[simp] theorem store_setDraw (d : Option DrawProgress) (s : State) (a : Nat) (v : Byte) :
    (setDraw d s).store a v = (s.store a v).map (setDraw d) := by
  by_cases ha : a < s.geom.bufSize <;> simp only [State.store, setDraw_geom, ha, if_true, if_false] <;> rfl

@[simp] theorem forget_setDraw (d : Option DrawProgress) (s : State) (a : Nat) :
    (setDraw d s).forget a = (s.forget a).map (setDraw d) := by
  by_cases ha : a < s.geom.bufSize <;> simp only [State.forget, setDraw_geom, ha, if_true, if_false] <;> rfl

@[simp] theorem applyReg_setDraw (d : Option DrawProgress) (w : RegWrite) (s : State) :
    applyReg w (setDraw d s) = setDraw d (applyReg w s) := by
  cases w <;> rfl

/-- A micro-step does not look at the draw engine's progress. -/
theorem stepMicro_setDraw {m : Micro} {s u : State} {r : Option Micro} (d : Option DrawProgress)
    (h : stepMicro m s = .ok (r, u)) : stepMicro m (setDraw d s) = .ok (r, setDraw d u) := by
  cases m with
  | pixel x y mode v =>
    by_cases hxy : s.geom.inDisplay x y
    · have hxy' : (setDraw d s).geom.inDisplay x y := hxy
      simp only [stepMicro] at h ⊢
      rw [if_pos hxy] at h
      rw [if_pos hxy', setDraw_geom, load_setDraw]
      split at h
      · obtain ⟨rfl, rfl⟩ := Prod.mk.inj (Except.ok.inj h)
        rfl
      · cases h
    · have hxy' : ¬ (setDraw d s).geom.inDisplay x y := hxy
      simp only [stepMicro, if_neg hxy, if_neg hxy'] at h ⊢
      simp_all
  | merge a mask mode v old =>
    simp only [stepMicro, store_setDraw] at h ⊢
    cases hs : s.store a (withBit old mask (combine mode (bitOf old mask) v)) <;> simp_all [Except.map]
  | copyLeft x y =>
    simp only [stepMicro, setDraw_geom, load_setDraw] at h ⊢
    cases hl : s.load (s.geom.pixelByte (x + 1) y) <;> simp_all
  | store a v =>
    simp only [stepMicro, store_setDraw] at h ⊢
    cases hs : s.store a v <;> simp_all [Except.map]
  | forget a =>
    simp only [stepMicro, forget_setDraw] at h ⊢
    cases hs : s.forget a <;> simp_all [Except.map]
  | reg w => simp_all [stepMicro]

/-- The state in which the draw engine has these operations of a command left. -/
def leaving (cmd : Option Instr) (ms : List Micro) (s : State) : State := setDraw (progressOf cmd ms) s

variable {cmd : Option Instr}

/-- One micro-step of the first operation that is left. -/
theorem leaving_reaches_of_stepMicro {m : Micro} {ms : List Micro} {r : Option Micro} {s u : State}
    (h : stepMicro m s = .ok (r, u)) : DrawReaches (leaving cmd (m :: ms) s) (leaving cmd (r.toList ++ ms) u) := by
  refine .of_drawAdvance ?_
  have hstep := stepMicro_setDraw (progressOf cmd (m :: ms)) h
  cases r <;> simp_all [drawAdvance, leaving, progressOf, setDraw]

theorem leaving_reaches_pixel {x y : Int} {mode : Mode} {v : Bool} {ms : List Micro} {s t : State}
    (h : s.writePixel x y mode v = .ok t) :
    DrawReaches (leaving cmd (.pixel x y mode v :: ms) s) (leaving cmd ms t) := by
  by_cases hd : s.geom.inDisplay x y
  · simp only [State.writePixel, if_pos hd] at h
    split at h
    · next old hl =>
      have hload : stepMicro (.pixel x y mode v) s =
          .ok (some (.merge (s.geom.pixelByte x y) (pixelMask x) mode v old), s) := by
        simp only [stepMicro, if_pos hd, hl]
      have hstore : stepMicro (.merge (s.geom.pixelByte x y) (pixelMask x) mode v old) s = .ok (none, t) := by
        simp only [stepMicro, h]
      exact (leaving_reaches_of_stepMicro hload).trans (leaving_reaches_of_stepMicro hstore)
    · cases h
  · have hskip : stepMicro (.pixel x y mode v) s = .ok (none, s) := by simp only [stepMicro, if_neg hd]
    rw [writePixel_off mode v hd] at h
    exact Except.ok.inj h ▸ leaving_reaches_of_stepMicro hskip

/-- The micro-steps of an operation reach its result (R80). -/
theorem leaving_reaches_of_runMicro {m : Micro} {ms : List Micro} {s t : State} (h : runMicro m s = .ok t) :
    DrawReaches (leaving cmd (m :: ms) s) (leaving cmd ms t) := by
  cases m with
  | pixel x y mode v => exact leaving_reaches_pixel h
  | copyLeft x y =>
    simp only [runMicro] at h
    split at h
    · next b hb =>
      have hload : stepMicro (.copyLeft x y) s =
          .ok (some (.pixel x y .normal (bitOf b (pixelMask (x + 1)))), s) := by
        simp only [stepMicro, hb]
      exact (leaving_reaches_of_stepMicro hload).trans (leaving_reaches_pixel h)
    · cases h
  | merge a mask mode v old | store a v | forget a =>
    simp only [runMicro] at h
    exact leaving_reaches_of_stepMicro (r := none) (by simp only [stepMicro, h])
  | reg w => exact Except.ok.inj h ▸ leaving_reaches_of_stepMicro (r := none) rfl

theorem leaving_reaches_of_runMicros {ms : List Micro} {s t : State} (h : runMicros ms s = .ok t) :
    DrawReaches (leaving cmd ms s) (leaving cmd [] t) := by
  induction ms generalizing s with
  | nil => exact Except.ok.inj h ▸ .rfl
  | cons m ms ih =>
    obtain ⟨u, hu, ht⟩ := runMicros_cons_ok.1 h
    exact (leaving_reaches_of_runMicro hu).trans (ih ht)

/-- A command that has just started reaches the result of its operations, with the draw engine idle; with no
operation at all it ends in one step. -/
theorem started_reaches_of_runMicros {ms : List Micro} {s t : State} (h : runMicros ms s = .ok t) :
    DrawReaches (setDraw (some ⟨cmd, ms⟩) s) (setDraw none t) := by
  cases ms with
  | nil => exact .of_drawAdvance (by cases h; rfl)
  | cons m ms => exact leaving_reaches_of_runMicros (ms := m :: ms) h

/-- A draw command executed whole on an idle draw engine is its start and then micro-steps. -/
theorem exec_reached_by_drawSteps {i : Instr} {s t : State} (hi : i ≠ .scan) (hd : s.draw = none)
    (h : exec i s = .next t) : t.draw = none ∧ ∃ u, startCommand i s = .ok u ∧ DrawReaches u t := by
  have ht : t.draw = none := by
    obtain ⟨_, _, hdraw, _⟩ := exec_draw_frame hi h
    rw [hdraw, hd]
  refine ⟨ht, ?_⟩
  rcases exec_draw_cases hi h with ⟨hf, rfl⟩ | ⟨hf, hscan, hr⟩
  · refine ⟨setDraw (some ⟨i, []⟩) t, by simp [startCommand, hi, hf, setDraw], ?_⟩
    simpa only [setDraw_self hd] using started_reaches_of_runMicros (cmd := some i) (runMicros_nil t)
  · refine ⟨setDraw (some ⟨i, drawProgram i s⟩) s, ?_, ?_⟩
    · have hn : ¬ (isReconfig i = true ∧ s.scan ≠ []) := fun ⟨hr, hs⟩ => hs (hscan hr)
      simp only [startCommand, if_neg hi, hf, if_neg hn, Bool.false_eq_true, if_false, setDraw]
    · simpa only [setDraw_self ht] using started_reaches_of_runMicros (cmd := some i) hr

/-- A ready block accepts the packet at the head of its port, SCAN only with the scan engine idle (R82). -/
theorem acceptPacket_ready {s : State} {i : Instr} {rest : List Word} (hs : s.ready)
    (hdec : decodePacket s.env.port = .packet i rest) (hscan : i = .scan → s.scan = []) :
    acceptPacket s = startCommand i (s.withPort rest) := by
  obtain ⟨_, _, hdraw, hport⟩ := hs
  have hwait : ¬ (i = .scan ∧ s.scan ≠ []) := fun ⟨hi, hn⟩ => hn (hscan hi)
  simp [acceptPacket, State.portHeld, hdraw, hport, hdec, hwait]

/-- Settles O53: each operation of the command's program is reached by its own micro-steps. -/
theorem microStepsReachCommandResult : Obligations.MicroStepsReachCommandResult := by
  intro s t i rest hs hi hdec h
  obtain ⟨_, _, hdraw, _⟩ := id hs
  obtain ⟨ht, u, hu, n, hn⟩ := exec_reached_by_drawSteps hi (s := s.withPort rest) hdraw h
  exact ⟨ht, u, n, by rw [acceptPacket_ready hs hdec (fun h => absurd h hi), hu], hn⟩

/-! ### The scan engine -/

/-- The state with this progress of the scan engine. -/
def setScan (ops : List ScanMicro) (p : Bool) (s : State) : State := { s with scan := ops, scanOnPort := p }

theorem setScan_self {s : State} (h : s.scan = []) (hp : s.scanOnPort = false) : setScan [] false s = s := by
  rw [← h, ← hp, setScan]

/-- An operation of the scan engine does not look at its progress. -/
theorem runScanMicro_setScan {m : ScanMicro} {s t : State} (ops : List ScanMicro) (p : Bool)
    (h : runScanMicro m s = .ok t) : runScanMicro m (setScan ops p s) = .ok (setScan ops p t) := by
  cases m with
  | shift a =>
    have hload : (setScan ops p s).load a = s.load a := rfl
    simp only [runScanMicro, hload] at h ⊢
    split at h
    · cases h; rfl
    · cases h
  | _ => cases h; rfl

theorem runScanMicros_setScan {ms : List ScanMicro} {s t : State} (ops : List ScanMicro) (p : Bool)
    (h : runScanMicros ms s = .ok t) : runScanMicros ms (setScan ops p s) = .ok (setScan ops p t) := by
  induction ms generalizing s with
  | nil => exact Except.ok.inj h ▸ rfl
  | cons m ms ih =>
    obtain ⟨u, hu, ht⟩ := runScanMicros_cons_ok.1 h
    exact runScanMicros_cons_ok.2 ⟨_, runScanMicro_setScan ops p hu, ih ht⟩

/-- The end of the scan in progress is reached by the scan engine's micro-steps; the last one only frees the
port when that is not yet done. -/
theorem scanSteps_of_finishScan {s t : State} (h : s.finishScan = .ok t) :
    scanSteps (s.scan.length + 1) s = .ok t := by
  obtain ⟨w, hw, rfl⟩ := finishScan_ok.1 h
  generalize hops : s.scan = ops at hw
  clear h
  induction ops generalizing s w with
  | nil =>
    cases hw
    simp [scanSteps, scanAdvance, hops]
  | cons m ms ih =>
    obtain ⟨u, hu, ht⟩ := runScanMicros_cons_ok.1 hw
    have hport : u.scanOnPort = s.scanOnPort := by rw [runScanMicro_cases hu]
    have hadv : scanAdvance s = .ok (setScan ms (s.scanOnPort && !ms.isEmpty) u) := by
      simp [scanAdvance, hops, hu, hport, setScan]
    have hrest := ih _ rfl (runScanMicros_setScan ms (s.scanOnPort && !ms.isEmpty) ht)
    rw [List.length_cons, scanSteps, hadv]
    exact hrest

/-- Outside the FAULT condition SCAN is the scan in progress run to its end and then its own operations (R50). -/
theorem exec_scan_live {s u : State} (hf : s.sticky.fault = false) (hu : s.finishScan = .ok u) :
    exec .scan s = toOutcome (runScanMicros u.scanOps u) := by
  simp [exec, execScan, hf, hu]

/-- SCAN on an idle scan engine performs the operations of one scan, in the FAULT condition none (R234, R245). -/
theorem exec_scan_idle {s : State} (hs : s.scan = []) (hp : s.scanOnPort = false) :
    exec .scan s = toOutcome (runScanMicros s.scanOps s) := by
  cases hf : s.sticky.fault with
  | true =>
    have hops : s.scanOps = [.skip] := by simp [State.scanOps, hf]
    simp [exec, execScan, hf, hops, runScanMicros, runScanMicro, applyScanReg, toOutcome]
  | false => exact exec_scan_live hf (finishScan_idle hs hp)

/-- SCAN executed whole on an idle scan engine is its start and then micro-steps. -/
theorem exec_scan_reached_by_scanSteps {s t : State} (hs : s.scan = []) (hp : s.scanOnPort = false)
    (h : exec .scan s = .next t) :
    t.scan = [] ∧ ∃ u n, startCommand .scan s = .ok u ∧ scanSteps n u = .ok t := by
  rw [exec_scan_idle hs hp] at h
  have hr : runScanMicros s.scanOps s = .ok t := toOutcome_next.1 h
  have ht : t.scan = [] ∧ t.scanOnPort = false := by
    rw [runScanMicros_cases hr]
    exact ⟨hs, hp⟩
  have hfinish : (setScan s.scanOps true s).finishScan = .ok t := by
    refine finishScan_ok.2 ⟨_, runScanMicros_setScan s.scanOps true hr, ?_⟩
    exact (setScan_self ht.1 ht.2).symm
  exact ⟨ht.1, _, _, by simp [startCommand, setScan], scanSteps_of_finishScan hfinish⟩

/-- Settles O54: the scan the packet starts, run to its end by micro-steps. -/
theorem microStepsReachScanResult : Obligations.MicroStepsReachScanResult := by
  intro s t rest hs hscan hdec h
  obtain ⟨_, _, _, hport⟩ := id hs
  obtain ⟨ht, u, n, hu, hn⟩ := exec_scan_reached_by_scanSteps (s := s.withPort rest) hscan hport h
  exact ⟨ht, u, n, by rw [acceptPacket_ready hs hdec (fun _ => hscan), hu], hn⟩

/-- Settles O39: what `finishScan` leaves has nothing more to finish. -/
theorem scanPacketWaitsForScan : Obligations.ScanPacketWaitsForScan := by
  intro s u hf hu
  have hidle : u.scan = [] ∧ u.scanOnPort = false := by
    obtain ⟨w, _, rfl⟩ := finishScan_ok.1 hu
    exact ⟨rfl, rfl⟩
  exact ⟨by rw [exec_scan_live hf hu, exec_scan_idle hidle.1 hidle.2], hidle.1⟩

end Sys2Proof.Proofs
end

section
/-! PROOFS. The `STATUS` output, reset, PWM ticks, and the parts of the surroundings that no step changes. -/

namespace Sys2Proof.Proofs

open Sys2Proof.Machine Sys2Proof.Laws

/-! ### Status and ticks -/

theorem sBusy_eq (s : State) : s.sBusy = decide (s.scan ≠ []) := by
  cases h : s.scan <;> simp [State.sBusy, h]

/-- Settles O46: bit `k` of the concatenation is a bit of the part it falls in; the top four are one part. -/
theorem statusLayout : Obligations.StatusLayout := by
  intro s
  simp only [State.status, BitVec.getLsbD_append, sBusy_eq, State.dBusy]
  refine ⟨by simp, by simp, by simp, by simp, by simp, by simp, by simp, by simp, fun k h₁ h₂ => ?_, fun k h => ?_⟩
  · interval_cases k <;> simp
  · rw [if_neg (by omega), BitVec.getLsbD_zero]

/-- Settles O42: the input acts on the counter alone, whose sum is modulo 256. -/
theorem pwmTickAdvancesCounter : Obligations.PwmTickAdvancesCounter := by
  intro s rest hsched hreset
  refine ⟨{ s.withSched rest with pwmCnt := s.pwmCnt + 1 }, ?_, ?_, rfl⟩
  · simp [step, hsched, applyInput, hreset]
  · simp [BitVec.toNat_add]

/-! ### Reset -/

/-- While reset is asserted the block takes nothing from its ports (R280). -/
theorem resetHeld_ignores {s : State} (h : s.env.resetHeld = true) :
    (∀ w, applyInput (.send w) s = .ok s) ∧ applyInput .accept s = .ok s ∧ applyInput .scanRequest s = .ok s ∧
      (s.env.sched = [] → step s = .next s) := by
  refine ⟨fun w => ?_, ?_, ?_, fun hsched => ?_⟩ <;> simp_all [applyInput, step]

theorem resetWith_status (env : Env) (epoch : Nat) : (State.resetWith env epoch).status = 0 := by
  simp [State.status, State.resetWith, State.sBusy, State.dBusy]

/-- Settles O47: both kinds of reset are `State.resetWith`. -/
theorem resetGivesTableValues : Obligations.ResetGivesTableValues := by
  refine ⟨by decide, fun s t rest h => ?_, fun s => resetHeld_ignores⟩
  obtain ⟨env, epoch, rfl, ht⟩ : ∃ env epoch, t = State.resetWith env epoch ∧
      (t = State.reset ∨ t.env.resetHeld = true) := by
    rcases h with rfl | ⟨hsched, hstep⟩
    · exact ⟨_, _, rfl, .inl rfl⟩
    · simp only [step, hsched] at hstep
      cases hstep
      exact ⟨_, _, rfl, .inr rfl⟩
  exact ⟨rfl, rfl, rfl, rfl, rfl, rfl, rfl, rfl, rfl, rfl, resetWith_status _ _, rfl, rfl, rfl, rfl, rfl, ht⟩

/-! ### The surroundings -/

/-- Resource memory and the parameters are the same in both states. -/
def SameHost (s t : State) : Prop := t.env.rom = s.env.rom ∧ t.env.cfg = s.env.cfg

theorem sameHost_of_env {s t : State} (h : t.env = s.env) : SameHost s t := by simp [SameHost, h]

/-- No micro-step of the draw engine touches the surroundings or the engines' progress. -/
theorem stepMicro_frame {m : Micro} {s u : State} {r : Option Micro} (h : stepMicro m s = .ok (r, u)) :
    u.env = s.env ∧ u.draw = s.draw ∧ u.scan = s.scan ∧ u.scanOnPort = s.scanOnPort := by
  rcases stepMicro_cases h with rfl | ⟨_, a, v, _, rfl⟩ | ⟨_, a, _, _, rfl⟩ | ⟨_, w, _, rfl⟩ <;> simp

theorem drawAdvance_env {s t : State} (h : drawAdvance s = .ok t) : t.env = s.env := by
  rcases drawAdvance_cases h with ⟨_, rfl⟩ | ⟨_, _, rfl⟩ | ⟨_, m, _, _, u, _, hu, rfl⟩
  · rfl
  · rfl
  · exact (stepMicro_frame hu).1

/-- A micro-step of the scan engine touches only the scan engine, its registers and the trace (R230). -/
theorem scanAdvance_frame {s t : State} (h : scanAdvance s = .ok t) :
    t = { s with regs := t.regs, trace := t.trace, scan := t.scan, scanOnPort := t.scanOnPort } := by
  rcases scanAdvance_cases h with ⟨_, rfl⟩ | ⟨_, _, u, _, hu, rfl⟩
  · rfl
  · rw [runScanMicro_cases hu]

theorem scanAdvance_env {s t : State} (h : scanAdvance s = .ok t) : t.env = s.env := by
  rw [scanAdvance_frame h]

theorem acceptPacket_sameHost {s t : State} (h : acceptPacket s = .ok t) : SameHost s t := by
  rcases acceptPacket_cases h with rfl | ⟨_, _, _, _, rfl⟩ | ⟨_, i, rest, _, _, hstart⟩
  · exact ⟨rfl, rfl⟩
  · exact ⟨rfl, rfl⟩
  · rcases startCommand_cases hstart with ⟨_, rfl⟩ | ⟨_, _, rfl⟩ | ⟨_, _, _, rfl⟩ <;> exact ⟨rfl, rfl⟩

/-- An input that does nothing while reset is asserted, seen through its effect otherwise. -/
theorem unless_resetHeld {P : State → Prop} {s t : State} {r : Except Fault State}
    (h : (if s.env.resetHeld then .ok s else r) = .ok t) (hs : P s) (hr : r = .ok t → P t) : P t := by
  split at h
  · exact Except.ok.inj h ▸ hs
  · exact hr h

theorem applyInput_sameHost {e : Input} {s t : State} (h : applyInput e s = .ok t) : SameHost s t := by
  cases e with
  | reset level => cases level <;> cases h <;> exact ⟨rfl, rfl⟩
  | busBusy level => cases h; exact ⟨rfl, rfl⟩
  | send w =>
    simp only [applyInput] at h
    split at h <;> cases h <;> exact ⟨rfl, rfl⟩
  | pwmTick =>
    simp only [applyInput] at h
    split at h <;> cases h <;> exact ⟨rfl, rfl⟩
  | scanRequest =>
    refine unless_resetHeld h ⟨rfl, rfl⟩ fun hr => ?_
    rcases scanRequest_cases hr with rfl | ⟨_, _, _, rfl⟩ <;> exact ⟨rfl, rfl⟩
  | accept => exact unless_resetHeld h ⟨rfl, rfl⟩ acceptPacket_sameHost
  | drawStep => exact unless_resetHeld h ⟨rfl, rfl⟩ fun hr => sameHost_of_env (drawAdvance_env hr)
  | scanStep => exact unless_resetHeld h ⟨rfl, rfl⟩ fun hr => sameHost_of_env (scanAdvance_env hr)

/-- Settles O52: by the kinds of step. -/
theorem stepKeepsResourceMemory : Obligations.StepKeepsResourceMemory := by
  intro s t h
  rcases step_cases h with ⟨e, rest, _, hin⟩ | ⟨_, _, rfl⟩ | ⟨_, _, hdraw | hscan | hill | hexec⟩
  · exact applyInput_sameHost (s := s.withSched rest) hin
  · exact ⟨rfl, rfl⟩
  · exact sameHost_of_env (drawAdvance_env hdraw.2)
  · exact sameHost_of_env (scanAdvance_env hscan.2)
  · obtain ⟨_, _, _, rest, _, rfl⟩ := hill
    exact ⟨rfl, rfl⟩
  · obtain ⟨_, _, i, rest, _, hexec⟩ := hexec
    exact sameHost_of_env (s := s.withPort rest) (exec_env hexec)

end Sys2Proof.Proofs
end

section
/-! PROOFS. The invariant: it holds after reset and every step keeps it. -/

namespace Sys2Proof.Proofs

open Sys2Proof.Machine Sys2Proof.Laws

/-! ### Settling -/

@[simp] theorem settleDraw_env (ms : List Micro) (s : State) : (settleDraw ms s).env = s.env := by
  induction ms generalizing s with
  | nil => rfl
  | cons m ms ih => cases m <;> simp [settleDraw, ih]

theorem settleDraw_not_reg {m : Micro} (hm : ∀ w, m ≠ .reg w) (ms : List Micro) (s : State) :
    settleDraw (m :: ms) s = settleDraw ms s := by
  cases m with
  | reg w => exact absurd rfl (hm w)
  | _ => rfl

theorem settleDraw_append (ms ns : List Micro) (s : State) :
    settleDraw (ms ++ ns) s = settleDraw ns (settleDraw ms s) := by
  induction ms generalizing s with
  | nil => rfl
  | cons m ms ih => cases m <;> exact ih _

/-- A register write makes states that agree in a part agree in it again. -/
theorem applyReg_congr {x : Target} {s t : State} (w : RegWrite) (h : SameAt x s t) :
    SameAt x (applyReg w s) (applyReg w t) := by
  cases w with
  | flag f => cases x <;> simp_all [applyReg, SameAt, sticky_set_get]
  | _ => cases x <;> simp_all [applyReg, SameAt, MarqueeRegs.withOx, MarqueeRegs.withOy]

theorem settleDraw_congr {x : Target} (ms : List Micro) {s t : State} (h : SameAt x s t) :
    SameAt x (settleDraw ms s) (settleDraw ms t) := by
  induction ms generalizing s t with
  | nil => exact h
  | cons m ms ih =>
    cases m with
    | reg w => exact ih (applyReg_congr w h)
    | _ => exact ih h

/-- Settling leaves every part that no operation names. -/
theorem settleDraw_sameAt {x : Target} {ms : List Micro} (s : State) (hx : ∀ m ∈ ms, x ∉ microTargets m) :
    SameAt x s (settleDraw ms s) := by
  induction ms generalizing s with
  | nil => exact .rfl
  | cons m ms ih =>
    have hms := fun n hn => hx n (List.mem_cons_of_mem _ hn)
    cases m with
    | reg w => exact (applyReg_sameAt s (hx _ List.mem_cons_self)).trans (ih _ hms)
    | _ => exact ih s hms

theorem resizes_iff {m : Micro} :
    m.resizes = true ↔ .geometry ∈ microTargets m ∨ .scanPosition ∈ microTargets m := by
  cases m with
  | reg w => cases w <;> simp [Micro.resizes, microTargets, regTargets]
  | _ => simp [Micro.resizes, microTargets]

/-- With no write of CHANGEDMD left, settling leaves the geometry and the scan registers (R125). -/
theorem settleDraw_of_not_resizes {ms : List Micro} (s : State) (h : ms.any Micro.resizes = false) :
    (settleDraw ms s).geom = s.geom ∧ (settleDraw ms s).regs = s.regs := by
  have hm : ∀ m ∈ ms, .geometry ∉ microTargets m ∧ .scanPosition ∉ microTargets m := by
    simpa [resizes_iff] using h
  have hgeom : SameAt .geometry s (settleDraw ms s) := settleDraw_sameAt s fun m hms => (hm m hms).1
  have hregs : SameAt .scanPosition s (settleDraw ms s) := settleDraw_sameAt s fun m hms => (hm m hms).2
  exact ⟨hgeom.1, hregs⟩

@[simp] theorem settled_env (s : State) : s.settled.env = s.env := settleDraw_env _ s

theorem settled_geom (s : State) : s.settled.geom = (settleDraw s.drawRest s).geom := rfl

theorem settled_marq (s : State) : s.settled.marq = (settleDraw s.drawRest s).marq := rfl

theorem settled_regs (s : State) :
    s.settled.regs = s.scan.foldl (fun r m => applyScanReg m r) (settleDraw s.drawRest s).regs := rfl

/-- The registers the invariant speaks of have the same values once settled. -/
def SettledSame (s t : State) : Prop :=
  t.settled.geom = s.settled.geom ∧ t.settled.regs = s.settled.regs ∧ t.settled.marq = s.settled.marq

theorem settledSame_of_settleDraw {s t : State}
    (hgeom : SameAt .geometry (settleDraw s.drawRest s) (settleDraw t.drawRest t))
    (hregs : SameAt .scanPosition (settleDraw s.drawRest s) (settleDraw t.drawRest t))
    (hmarq : SameAt .marquee (settleDraw s.drawRest s) (settleDraw t.drawRest t)) (hscan : t.scan = s.scan) :
    SettledSame s t := by
  have hr : (settleDraw t.drawRest t).regs = (settleDraw s.drawRest s).regs := hregs
  exact ⟨hgeom.1, by rw [settled_regs, settled_regs, hscan, hr], hmarq⟩

/-- With the same operations left, states that agree before settling agree after it. -/
theorem settledSame_congr {s t : State} (hgeom : SameAt .geometry s t) (hregs : SameAt .scanPosition s t)
    (hmarq : SameAt .marquee s t) (hdraw : t.drawRest = s.drawRest) (hscan : t.scan = s.scan) :
    SettledSame s t := by
  apply settledSame_of_settleDraw _ _ _ hscan
  all_goals rw [hdraw]
  · exact settleDraw_congr _ hgeom
  · exact settleDraw_congr _ hregs
  · exact settleDraw_congr _ hmarq

/-! ### Keeping the invariant -/

/-- The invariant of a state whose registers settle to the same values. -/
theorem inv_of_settled {s t : State} (h : s.Inv) (hhost : SameHost s t)
    (hsettled : SettledSame s t)
    (hbuf : t.bufferOk) (hport : t.scanOnPort = true → t.scan ≠ []) (hresize : t.resizeOk) : t.Inv where
  cfg := hhost.2 ▸ h.cfg
  rom := hhost.1 ▸ h.rom
  geom := by
    have hg := h.geom
    simp only [State.geomOk, settled_env] at hg ⊢
    rwa [hsettled.1, hhost.2]
  buffer := hbuf
  cursor := by
    have hc := h.cursor
    simp only [State.cursorOk] at hc ⊢
    rwa [hsettled.1, hsettled.2.1]
  marq := hsettled.2.2 ▸ h.marq
  port := hport
  resize := hresize

theorem drawRest_congr {s t : State} (h : t.draw = s.draw) : t.drawRest = s.drawRest := by
  simp only [State.drawRest, h]

theorem reconfiguring_congr {s t : State} (h : t.draw = s.draw) : t.reconfiguring = s.reconfiguring := by
  simp only [State.reconfiguring, h]

/-- The invariant speaks of nothing else than these parts of the state. -/
theorem inv_congr {s t : State} (h : s.Inv) (hhost : SameHost s t) (hgeom : t.geom = s.geom) (hbuf : t.buf = s.buf)
    (hregs : t.regs = s.regs) (hmarq : t.marq = s.marq) (hdraw : t.draw = s.draw) (hscan : t.scan = s.scan)
    (hport : t.scanOnPort = s.scanOnPort) : t.Inv := by
  refine inv_of_settled h hhost
    (settledSame_congr ⟨hgeom, by rw [hbuf]⟩ hregs hmarq (drawRest_congr hdraw) hscan) ?_ ?_ ?_
  · simpa only [State.bufferOk, hbuf, hgeom] using h.buffer
  · rw [hport, hscan]
    exact h.port
  · simpa only [State.resizeOk, drawRest_congr hdraw, reconfiguring_congr hdraw, hscan] using h.resize

/-! ### Reset -/

/-- The invariant holds after reset whatever the parameters are (R55, R281). -/
theorem inv_resetWith {env : Env} (epoch : Nat) (hcfg : env.cfg.wf) (hrom : env.rom.wf) :
    (State.resetWith env epoch).Inv := by
  have hs : (State.resetWith env epoch).settled = State.resetWith env epoch := settled_idle rfl rfl
  obtain ⟨hw, hh, hfits⟩ := id hcfg
  have htotal : (env.cfg.resetW * env.cfg.resetH).toNat = env.cfg.resetW.toNat * env.cfg.resetH.toNat := by
    rw [BitVec.toNat_mul, Nat.mod_eq_of_lt]
    exact hfits.trans_lt env.cfg.tMax.isLt
  exact {
    cfg := hcfg
    rom := hrom
    geom := by rw [hs]; exact ⟨hw, hh, htotal, htotal ▸ hfits⟩
    buffer := ⟨List.Pairwise.nil, by simp [State.resetWith]⟩
    cursor := by rw [hs]; simp [State.cursorOk, State.resetWith]
    marq := by rw [hs]; simp [State.resetWith, MarqueeRegs.ok, canon]
    port := by simp [State.resetWith]
    resize := by simp [State.resetWith, State.drawRest] }

/-- Settles O48: the reset state of the default parameters. -/
theorem resetMeetsInvariant : Obligations.ResetMeetsInvariant :=
  inv_resetWith 0 (by decide) (by decide)

/-! ### The draw engine -/

theorem bufferOk_putByte {s : State} {a : Nat} (h : s.bufferOk) (v : Byte) (ha : a < s.geom.bufSize) :
    (s.putByte a v).bufferOk := by
  refine ⟨memPut_wf h.1 a v, fun c hc => ?_⟩
  rcases mem_memPut hc with rfl | hc
  · exact ha
  · exact h.2 c hc

theorem bufferOk_dropByte {s : State} (h : s.bufferOk) (a : Nat) : (s.dropByte a).bufferOk :=
  ⟨memErase_wf h.1 a, fun c hc => h.2 c (mem_memErase.1 hc).1⟩

/-- The write of `T` cuts the buffer to its new size; no other register write concerns it (R24, R125). -/
theorem bufferOk_applyReg {s : State} (h : s.bufferOk) (w : RegWrite) : (applyReg w s).bufferOk := by
  cases w with
  | total v => exact ⟨memBelow_wf h.1 _, fun c hc => (mem_memBelow.1 hc).2⟩
  | _ => exact h

theorem bufferOk_stepMicro {m : Micro} {s u : State} {r : Option Micro} (h : s.bufferOk)
    (hm : stepMicro m s = .ok (r, u)) : u.bufferOk := by
  rcases stepMicro_cases hm with rfl | ⟨_, a, v, ha, rfl⟩ | ⟨_, a, _, _, rfl⟩ | ⟨_, w, _, rfl⟩
  · exact h
  · exact bufferOk_putByte h v ha
  · exact bufferOk_dropByte h a
  · exact bufferOk_applyReg h w

/-- What a micro-step leaves of an operation is no register write. -/
theorem stepMicro_rest {m m' : Micro} {s u : State} (h : stepMicro m s = .ok (some m', u)) (w : RegWrite) :
    m' ≠ .reg w := by
  rintro rfl
  cases m with
  | reg v => cases h
  | _ =>
    simp only [stepMicro] at h
    grind

/-- A micro-step does not change what the registers settle to. -/
theorem settleDraw_stepMicro {m : Micro} {s u : State} {r : Option Micro} {x : Target}
    (h : stepMicro m s = .ok (r, u)) (hx : x ≠ .buffer) (ms : List Micro) :
    SameAt x (settleDraw (m :: ms) s) (settleDraw (r.toList ++ ms) u) := by
  have hrest : settleDraw (r.toList ++ ms) u = settleDraw ms u := by
    cases r with
    | none => rfl
    | some m' => exact settleDraw_not_reg (stepMicro_rest h) ms u
  rw [hrest]
  cases m with
  | reg w =>
    obtain ⟨_, rfl⟩ := Prod.mk.inj (Except.ok.inj h)
    exact .rfl
  | _ =>
    refine settleDraw_congr ms ?_
    rcases stepMicro_cases h with rfl | ⟨_, a, v, _, rfl⟩ | ⟨_, a, _, _, rfl⟩ | ⟨_, w, hw, _⟩
    · exact .rfl
    · cases x <;> simp_all [SameAt]
    · cases x <;> simp_all [SameAt]
    · cases hw

theorem drawRest_progressOf {s : State} {cmd : Option Instr} {ms : List Micro} (h : s.draw = progressOf cmd ms) :
    s.drawRest = ms := by
  cases ms <;> simp [State.drawRest, h, progressOf]

/-- While operations of a command are left the draw engine is executing that command. -/
theorem reconfiguring_progressOf {s t : State} {cmd : Option Instr} {ms ns : List Micro}
    (hs : s.draw = some ⟨cmd, ms⟩) (ht : t.draw = progressOf cmd ns) (hns : ns ≠ []) :
    t.reconfiguring = s.reconfiguring := by
  cases cmd <;> simp [State.reconfiguring, hs, ht, progressOf, hns]

/-- What a micro-step leaves of an operation is no write of CHANGEDMD. -/
theorem any_resizes_of_stepMicro {m : Micro} {s u : State} {r : Option Micro} {ms : List Micro}
    (h : stepMicro m s = .ok (r, u)) (hany : (r.toList ++ ms).any Micro.resizes = true) :
    (m :: ms).any Micro.resizes = true := by
  have hms : ms.any Micro.resizes = true := by
    cases r with
    | none => exact hany
    | some m' => cases m' with
      | reg w => exact absurd rfl (stepMicro_rest h w)
      | _ => exact hany
  simp [hms]

/-- One micro-step of the first operation that is left keeps the invariant. -/
theorem inv_stepMicro {s u : State} {cmd : Option Instr} {m : Micro} {rest ns : List Micro} {r : Option Micro}
    (h : s.Inv) (hd : s.draw = some ⟨cmd, m :: rest⟩) (hm : stepMicro m s = .ok (r, u))
    (hns : r.toList ++ rest = ns) : (setDraw (progressOf cmd ns) u).Inv := by
  obtain ⟨henv, -, hscan, hport⟩ := stepMicro_frame hm
  have hs : s.drawRest = m :: rest := by simp [State.drawRest, hd]
  have ht : (setDraw (progressOf cmd ns) u).drawRest = ns := drawRest_progressOf rfl
  have hsettles {x : Target} (hx : x ≠ .buffer) (hu : SameAt x u (setDraw (progressOf cmd ns) u)) :
      SameAt x (settleDraw (m :: rest) s) (settleDraw ns (setDraw (progressOf cmd ns) u)) :=
    (hns ▸ settleDraw_stepMicro hm hx rest).trans (settleDraw_congr ns hu)
  refine inv_of_settled h (sameHost_of_env henv) (settledSame_of_settleDraw ?_ ?_ ?_ hscan)
    (show u.bufferOk from bufferOk_stepMicro h.buffer hm) (fun hp => ?_) fun hany => ?_
  · exact hs ▸ ht.symm ▸ hsettles nofun ⟨rfl, rfl⟩
  · exact hs ▸ ht.symm ▸ hsettles nofun rfl
  · exact hs ▸ ht.symm ▸ hsettles nofun rfl
  · exact hscan.trans_ne (h.port (hport.symm.trans hp))
  · rw [ht] at hany
    obtain ⟨hreconf, hidle⟩ := h.resize (hs ▸ any_resizes_of_stepMicro hm (hns ▸ hany))
    have hne : ns ≠ [] := by
      rintro rfl
      cases hany
    exact ⟨(reconfiguring_progressOf hd rfl hne).trans hreconf, hscan.trans hidle⟩

theorem inv_drawAdvance {s t : State} (h : s.Inv) (hstep : drawAdvance s = .ok t) : t.Inv := by
  rcases drawAdvance_cases hstep with ⟨_, rfl⟩ | ⟨cmd, hd, rfl⟩ | ⟨cmd, m, rest, r, u, hd, hm, rfl⟩
  · exact h
  · refine inv_of_settled h ⟨rfl, rfl⟩ (settledSame_congr ⟨rfl, rfl⟩ rfl rfl ?_ rfl) h.buffer h.port ?_
    · simp [State.drawRest, hd]
    · simp [State.resizeOk, State.drawRest]
  · exact inv_stepMicro h hd hm rfl

theorem inv_drawSteps {n : Nat} {s t : State} (h : s.Inv) (hsteps : drawSteps n s = .ok t) : t.Inv := by
  induction n generalizing s with
  | zero => exact Except.ok.inj hsteps ▸ h
  | succ n ih =>
    simp only [drawSteps] at hsteps
    split at hsteps
    · next u hu => exact ih (inv_drawAdvance h hu) hsteps
    · cases hsteps

/-! ### The scan engine -/

/-- While a scan is in progress no write of CHANGEDMD is left (R85). -/
theorem not_resizes_of_scan {s : State} (h : s.Inv) (hs : s.scan ≠ []) : s.drawRest.any Micro.resizes = false :=
  Bool.eq_false_iff.2 fun hany => hs (h.resize hany).2

theorem inv_scanAdvance {s t : State} (h : s.Inv) (hstep : scanAdvance s = .ok t) : t.Inv := by
  rcases scanAdvance_cases hstep with ⟨hs, rfl⟩ | ⟨m, rest, u, hs, hm, ht⟩
  · exact inv_of_settled h ⟨rfl, rfl⟩ (settledSame_congr ⟨rfl, rfl⟩ rfl rfl rfl rfl) h.buffer (by simp) h.resize
  · have hno : s.drawRest.any Micro.resizes = false := not_resizes_of_scan h (by simp [hs])
    have hregs : t.regs = applyScanReg m s.regs := by rw [ht, runScanMicro_regs hm]
    have hscan : t.scan = rest := by rw [ht]
    have hport : t.scanOnPort = (s.scanOnPort && !rest.isEmpty) := by rw [ht]
    have hframe := scanAdvance_frame hstep
    have hgeom : t.geom = s.geom := by rw [hframe]
    have hbuf : t.buf = s.buf := by rw [hframe]
    have hmarq : SameAt .marquee s t := show t.marq = s.marq by rw [hframe]
    have hdraw : t.drawRest = s.drawRest := drawRest_congr (by rw [hframe])
    refine inv_of_settled h (sameHost_of_env (scanAdvance_env hstep)) ⟨?_, ?_, ?_⟩ ?_ ?_ fun hany => ?_
    · rw [settled_geom, settled_geom, hdraw]
      exact (settleDraw_congr (x := .geometry) _ ⟨hgeom, by rw [hbuf]⟩).1
    · rw [settled_regs, settled_regs, hdraw, hscan, hs, List.foldl_cons, (settleDraw_of_not_resizes s hno).2,
        (settleDraw_of_not_resizes t hno).2, hregs]
    · rw [settled_marq, settled_marq, hdraw]
      exact settleDraw_congr _ hmarq
    · simpa only [State.bufferOk, hgeom, hbuf] using h.buffer
    · rw [hport, hscan]
      cases rest <;> simp
    · rw [hdraw, hno] at hany
      cases hany

theorem inv_scanSteps {n : Nat} {s t : State} (h : s.Inv) (hsteps : scanSteps n s = .ok t) : t.Inv := by
  induction n generalizing s with
  | zero => exact Except.ok.inj hsteps ▸ h
  | succ n ih =>
    simp only [scanSteps] at hsteps
    split at hsteps
    · next u hu => exact ih (inv_scanAdvance h hu) hsteps
    · cases hsteps

/-- A scan ends with `CURSOR` at the first byte of the row `PHASE` has advanced to (R234, R236). -/
theorem scanProgram_position (g : Geometry) (p : BitVec 2) (r : ScanRegs) :
    ((scanProgram g p).foldl (fun r m => applyScanReg m r) r).phase = p + 1 ∧
    ((scanProgram g p).foldl (fun r m => applyScanReg m r) r).cursor =
      BitVec.ofNat 16 ((p + 1).toNat * g.rowLen) := by
  simp [scanProgram, List.foldl_append, applyScanReg]

/-- Every byte address of the first rows fits the 16 bits of `CURSOR` (R27). -/
theorem toNat_rowStart (g : Geometry) (p : BitVec 2) :
    (BitVec.ofNat 16 (p.toNat * g.rowLen)).toNat = p.toNat * g.rowLen := by
  rw [BitVec.toNat_ofNat, Nat.mod_eq_of_lt]
  have hp : p.toNat ≤ 3 := Nat.le_of_lt_succ p.isLt
  have hrow : g.rowLen ≤ 4 * 255 := Nat.mul_le_mul_left 4 (Nat.le_of_lt_succ g.t.isLt)
  calc p.toNat * g.rowLen ≤ 3 * (4 * 255) := Nat.mul_le_mul hp hrow
    _ < 2 ^ 16 := by decide

/-- A scan that starts with the scan engine idle and no CHANGEDMD in progress keeps the invariant. -/
theorem inv_startScan {s : State} (p : Bool) (h : s.Inv) (hs : s.scan = []) (hr : s.reconfiguring = false) :
    (setScan s.scanOps p s).Inv := by
  have hno : s.drawRest.any Micro.resizes = false :=
    Bool.eq_false_iff.2 fun hany => by simp [(h.resize hany).1] at hr
  have hgeom : s.settled.geom = s.geom := (settleDraw_of_not_resizes s hno).1
  have hregs : s.settled.regs = s.regs := by rw [settled_regs, hs, (settleDraw_of_not_resizes s hno).2]; rfl
  have hgeom' : (setScan s.scanOps p s).settled.geom = s.geom :=
    (settleDraw_of_not_resizes (setScan s.scanOps p s) hno).1
  have hregs' : (setScan s.scanOps p s).settled.regs = s.scanOps.foldl (fun r m => applyScanReg m r) s.regs :=
    congrArg (fun r => s.scanOps.foldl (fun r m => applyScanReg m r) r)
      (settleDraw_of_not_resizes (setScan s.scanOps p s) hno).2
  exact {
    cfg := h.cfg
    rom := h.rom
    geom := by
      have hg := h.geom
      simp only [State.geomOk, settled_env, hgeom, hgeom'] at hg ⊢
      exact hg
    buffer := h.buffer
    cursor := by
      have hc := h.cursor
      simp only [State.cursorOk, hgeom, hgeom', hregs, hregs'] at hc ⊢
      unfold State.scanOps
      split
      · exact hc
      · rw [(scanProgram_position s.geom s.regs.phase s.regs).1, (scanProgram_position s.geom s.regs.phase s.regs).2]
        exact toNat_rowStart s.geom _
    marq := by
      have hm : SameAt .marquee (settleDraw s.drawRest s) _ :=
        settleDraw_congr s.drawRest (show SameAt .marquee s (setScan s.scanOps p s) from rfl)
      exact (show (setScan s.scanOps p s).settled.marq = s.settled.marq from hm) ▸ h.marq
    port := fun _ => by
      show s.scanOps ≠ []
      unfold State.scanOps
      split <;> simp [scanProgram]
    resize := fun hany => absurd hany (Bool.eq_false_iff.1 hno) }

end Sys2Proof.Proofs
end

section
/-! PROOFS. Starting, accepting and executing a command keep the invariant; so does every step. -/

namespace Sys2Proof.Proofs

open Sys2Proof.Machine Sys2Proof.Laws

/-! ### Marquee offsets (R203) -/

theorem canon_canon (v m : Int) : canon (canon v m) m = canon v m := by
  unfold canon
  split
  · exact Int.emod_emod_of_dvd v (dvd_refl m)
  · rfl

/-- A canonical offset of a 32-bit extent fits 32 bits. -/
theorem toInt_ofInt_canon (v : Int) (m : BitVec 32) :
    (BitVec.ofInt 32 (canon v m.toInt)).toInt = canon v m.toInt := by
  have hm : m.toInt < 2 ^ 31 := BitVec.toInt_lt
  have hc : 0 ≤ canon v m.toInt ∧ canon v m.toInt < 2 ^ 31 := by
    unfold canon
    split
    · next hpos => exact ⟨Int.emod_nonneg _ hpos.ne', (Int.emod_lt_of_pos _ hpos).trans hm⟩
    · decide
  rw [BitVec.toInt_ofInt, Int.bmod_eq_of_le] <;> omega

/-- The horizontal offset is canonical. -/
def OxOk (m : MarqueeRegs) : Prop := m.ox.toInt = canon m.ox.toInt m.mw.toInt

/-- The vertical offset is canonical. -/
def OyOk (m : MarqueeRegs) : Prop := m.oy.toInt = canon m.oy.toInt m.mh.toInt

theorem oxOk_withOx (m : MarqueeRegs) (x : Int) : OxOk (m.withOx x) := by
  simp only [OxOk, MarqueeRegs.withOx, toInt_ofInt_canon, canon_canon]

theorem oyOk_withOy (m : MarqueeRegs) (y : Int) : OyOk (m.withOy y) := by
  simp only [OyOk, MarqueeRegs.withOy, toInt_ofInt_canon, canon_canon]

/-- Both offsets written last, whatever the registers held. -/
theorem ok_withOx_withOy (m : MarqueeRegs) (x y : Int) : ((m.withOx x).withOy y).ok :=
  ⟨oxOk_withOx m x, oyOk_withOy (m.withOx x) y⟩

/-- Rendering, filling and `RES` leave the marquee registers. -/
theorem settleDraw_marq_of_writesOnly {ms : List Micro} {s : State} (hms : WritesOnly [.buffer, .res] ms) :
    (settleDraw ms s).marq = s.marq :=
  settleDraw_sameAt (x := .marquee) s fun m hm h => by simpa using hms m hm h

theorem settleDraw_drawMarquee_marq (addr : Word) (length : BitVec 16) (left top : Int) {s : State}
    (h : s.marq.ok) : (settleDraw (drawMarqueeProgram addr length left top s) s).marq.ok := by
  unfold drawMarqueeProgram needFont
  split
  · have hrender := writesOnly_render (ts := [.buffer, .res]) (by simp) s
      (s.newMarquee addr length left top) s.geom.window
    simp only [settleDraw_append, settleDraw_marq_of_writesOnly hrender, settleDraw_reg, settleDraw_nil]
    exact ok_withOx_withOy _ left top
  · exact h

theorem settleDraw_stepMarquee_marq (dx dy : Int) {s : State} (h : s.marq.ok) :
    (settleDraw (stepMarqueeProgram dx dy s) s).marq.ok := by
  unfold stepMarqueeProgram
  split
  · simp only [settleDraw_reg]
    rw [settleDraw_marq_of_writesOnly]
    · exact ok_withOx_withOy s.marq _ _
    · have hfill := writesOnly_fillAll (ts := [.buffer, .res]) (by simp) s.geom
      have hrender := writesOnly_render (ts := [.buffer, .res]) (by simp) s
      split <;> simp [hfill, hrender, microTargets, regTargets]
  · exact h

theorem settleDraw_stepSplitMarquee3_marq (topRow bottomRow startColumn : Int) {s : State} (h : s.marq.ok) :
    (settleDraw (stepSplitMarquee3Program topRow bottomRow startColumn s) s).marq.ok := by
  unfold stepSplitMarquee3Program
  simp only
  split
  · rw [settleDraw_reg, settleDraw_marq_of_writesOnly]
    · exact ⟨oxOk_withOx s.marq _, h.2⟩
    · have hshift := fun c => writesOnly_flatMap
        (writesOnly_shiftRow (ts := [.buffer, .res]) (by simp) s.geom c)
      have hrender := writesOnly_render (ts := [.buffer, .res]) (by simp) s
      simp [hshift, hrender]
  · exact h

/-- Every command leaves the marquee offsets canonical (R203). -/
theorem settleDraw_drawProgram_marq (i : Instr) {s : State} (h : s.marq.ok) :
    (settleDraw (drawProgram i s) s).marq.ok := by
  by_cases hi : .marquee ∈ commandTargets i
  · rcases marquee_mem_commandTargets.1 hi with ⟨a, n, l, p, rfl⟩ | ⟨dx, dy, rfl⟩ | ⟨a, b, c, rfl⟩
    · exact settleDraw_drawMarquee_marq a n l p h
    · exact settleDraw_stepMarquee_marq dx dy h
    · exact settleDraw_stepSplitMarquee3_marq a b c h
  · have hm : SameAt .marquee s _ := settleDraw_sameAt s (drawProgram_avoids s hi)
    exact (show (settleDraw (drawProgram i s) s).marq = s.marq from hm) ▸ h

/-! ### Starting a command -/

/-- A draw command that starts keeps the invariant when its own writes settle to registers that meet it. -/
theorem inv_startDraw {s : State} {cmd : Option Instr} {ms : List Micro} (h : s.Inv)
    (hgeom : (settleDraw ms s).geom.ok s.env.cfg)
    (hcursor : ({ settleDraw ms s with
      regs := s.scan.foldl (fun r m => applyScanReg m r) (settleDraw ms s).regs } : State).cursorOk)
    (hmarq : (settleDraw ms s).marq.ok)
    (hresize : ms.any Micro.resizes = true → (∃ i, cmd = some i ∧ isReconfig i = true) ∧ s.scan = []) :
    (setDraw (some ⟨cmd, ms⟩) s).Inv := by
  have hsettle {x : Target} (hx : SameAt x s (setDraw (some ⟨cmd, ms⟩) s)) :
      SameAt x (settleDraw ms s) (settleDraw ms (setDraw (some ⟨cmd, ms⟩) s)) := settleDraw_congr ms hx
  have hg : (setDraw (some ⟨cmd, ms⟩) s).settled.geom = (settleDraw ms s).geom :=
    (hsettle (x := .geometry) ⟨rfl, rfl⟩).1
  have hm : (setDraw (some ⟨cmd, ms⟩) s).settled.marq = (settleDraw ms s).marq :=
    hsettle (x := .marquee) rfl
  have hr : (settleDraw ms (setDraw (some ⟨cmd, ms⟩) s)).regs = (settleDraw ms s).regs :=
    hsettle (x := .scanPosition) rfl
  have hr' : (setDraw (some ⟨cmd, ms⟩) s).settled.regs =
      s.scan.foldl (fun r m => applyScanReg m r) (settleDraw ms s).regs := hr ▸ rfl
  exact {
    cfg := h.cfg
    rom := h.rom
    geom := by
      rw [State.geomOk, hg, settled_env]
      exact hgeom
    buffer := h.buffer
    cursor := by
      rw [State.cursorOk, hg, hr']
      exact hcursor
    marq := hm ▸ hmarq
    port := h.port
    resize := fun hany => by
      obtain ⟨⟨i, rfl, hi⟩, hs⟩ := hresize hany
      exact ⟨hi, hs⟩ }

theorem settled_of_idle {s : State} (hd : s.draw = none) :
    s.settled.geom = s.geom ∧ s.settled.regs = s.scan.foldl (fun r m => applyScanReg m r) s.regs ∧
      s.settled.marq = s.marq := by
  have hrest : s.drawRest = [] := by simp [State.drawRest, hd]
  simp [settled_geom, settled_regs, settled_marq, hrest]

/-- A command that has no write of CHANGEDMD starts on an idle draw engine. -/
theorem inv_startDrawing {s : State} {cmd : Option Instr} {ms : List Micro} (h : s.Inv) (hd : s.draw = none)
    (hno : ms.any Micro.resizes = false) (hmarq : (settleDraw ms s).marq.ok) :
    (setDraw (some ⟨cmd, ms⟩) s).Inv := by
  obtain ⟨hg, hr, _⟩ := settled_of_idle hd
  obtain ⟨hgeom, hregs⟩ := settleDraw_of_not_resizes s hno
  refine inv_startDraw h ?_ ?_ hmarq fun hany => absurd hany (Bool.eq_false_iff.1 hno)
  · have hok := h.geom
    rw [State.geomOk, hg, settled_env] at hok
    rwa [hgeom]
  · have hok := h.cursor
    rw [State.cursorOk, hg, hr] at hok
    simp only [State.cursorOk, hgeom, hregs]
    exact hok

/-- What CHANGEDMD settles to: the new grid and the scan position at its start (R125). -/
theorem settleDraw_changeDmd {w h : Byte} {s : State} (hfits : reconfigFits s.env.cfg w h) :
    (settleDraw (changeDmdProgram w h s) s).geom =
        { w := w, h := h, t := BitVec.ofNat 8 (w.toNat * h.toNat) } ∧
      (settleDraw (changeDmdProgram w h s) s).regs = { s.regs with phase := 0, cursor := 0 } := by
  have hforget (n : Nat) (u : State) : (settleDraw ((List.range n).map .forget) u).geom = u.geom ∧
      (settleDraw ((List.range n).map .forget) u).regs = u.regs :=
    settleDraw_of_not_resizes u (by simp [Micro.resizes])
  rw [changeDmdProgram, if_pos hfits, settleDraw_append, (hforget _ _).1, (hforget _ _).2]
  exact ⟨rfl, rfl⟩

/-- CHANGEDMD starts with both engines idle. -/
theorem inv_startChangeDmd {s : State} (w hh : Byte) (h : s.Inv) (hd : s.draw = none) (hs : s.scan = []) :
    (setDraw (some ⟨some (.changeDmd w hh), drawProgram (.changeDmd w hh) s⟩) s).Inv := by
  have hmarq : s.marq.ok := (settled_of_idle hd).2.2 ▸ h.marq
  have hmarq' := settleDraw_drawProgram_marq (.changeDmd w hh) hmarq
  by_cases hfits : reconfigFits s.env.cfg w hh
  · obtain ⟨hgeom, hregs⟩ := settleDraw_changeDmd hfits
    obtain ⟨hw, hh', hmax⟩ := hfits
    have htotal : (BitVec.ofNat 8 (w.toNat * hh.toNat)).toNat = w.toNat * hh.toNat := by
      rw [BitVec.toNat_ofNat, Nat.mod_eq_of_lt]
      exact hmax.trans_lt s.env.cfg.tMax.isLt
    refine inv_startDraw h ?_ ?_ hmarq' fun _ => ⟨⟨_, rfl, rfl⟩, hs⟩
    · rw [drawProgram, hgeom]
      exact ⟨Nat.pos_of_ne_zero hw, Nat.pos_of_ne_zero hh', htotal, htotal.trans_le hmax⟩
    · simp [State.cursorOk, drawProgram, hregs, hs]
  · refine inv_startDrawing h hd ?_ hmarq'
    rw [drawProgram, changeDmdProgram, if_neg hfits]
    rfl

theorem drawProgram_not_resizes {i : Instr} (s : State) (hi : isReconfig i = false) :
    (drawProgram i s).any Micro.resizes = false := by
  refine List.any_eq_false.2 fun m hm => ?_
  rw [resizes_iff]
  rintro (hx | hx)
  · exact drawProgram_avoids s (by simp [geometry_mem_commandTargets, hi]) m hm hx
  · exact drawProgram_avoids s (by simp [scanPosition_mem_commandTargets, hi]) m hm hx

theorem inv_startCommand {i : Instr} {s t : State} (h : s.Inv) (hd : s.draw = none) (hs : i = .scan → s.scan = [])
    (hstart : startCommand i s = .ok t) : t.Inv := by
  have hmarq : s.marq.ok := (settled_of_idle hd).2.2 ▸ h.marq
  rcases startCommand_cases hstart with ⟨hi, rfl⟩ | ⟨_, _, rfl⟩ | ⟨_, _, hidle, rfl⟩
  · exact inv_startScan true h (hs hi) (by simp [State.reconfiguring, hd])
  · exact inv_startDrawing h hd rfl hmarq
  · cases hr : isReconfig i with
    | false => exact inv_startDrawing h hd (drawProgram_not_resizes s hr) (settleDraw_drawProgram_marq i hmarq)
    | true => cases i with
      | changeDmd w hh => exact inv_startChangeDmd w hh h hd (hidle hr)
      | _ => cases hr

/-! ### Steps -/

theorem inv_withPort {s : State} (h : s.Inv) (ws : List Word) : (s.withPort ws).Inv :=
  inv_congr h ⟨rfl, rfl⟩ rfl rfl rfl rfl rfl rfl rfl

theorem inv_withSched {s : State} (h : s.Inv) (is : List Input) : (s.withSched is).Inv :=
  inv_congr h ⟨rfl, rfl⟩ rfl rfl rfl rfl rfl rfl rfl

theorem inv_acceptPacket {s t : State} (h : s.Inv) (hacc : acceptPacket s = .ok t) : t.Inv := by
  have hdraw (hp : s.portHeld = false) : s.draw = none := by
    simp only [State.portHeld, Bool.or_eq_false_iff] at hp
    simpa using hp.1
  rcases acceptPacket_cases hacc with rfl | ⟨hp, _, rest, _, rfl⟩ | ⟨hp, i, rest, _, hwait, hstart⟩
  · exact h
  · have hmarq : s.marq.ok := (settled_of_idle (hdraw hp)).2.2 ▸ h.marq
    exact inv_startDrawing (inv_withPort h rest) (hdraw hp) rfl hmarq
  · exact inv_startCommand (inv_withPort h rest) (hdraw hp) (fun hi => not_not.1 fun hs => hwait ⟨hi, hs⟩) hstart

theorem inv_scanRequest {s t : State} (h : s.Inv) (hreq : scanRequest s = .ok t) : t.Inv := by
  rcases scanRequest_cases hreq with rfl | ⟨_, hs, hr, rfl⟩
  · exact h
  · exact inv_startScan s.scanOnPort h hs hr

theorem inv_applyInput {e : Input} {s t : State} (h : s.Inv) (hin : applyInput e s = .ok t) : t.Inv := by
  cases e with
  | reset level => cases level with
    | true => exact Except.ok.inj hin ▸ inv_resetWith _ h.cfg h.rom
    | false => exact Except.ok.inj hin ▸ inv_congr h ⟨rfl, rfl⟩ rfl rfl rfl rfl rfl rfl rfl
  | busBusy level => exact Except.ok.inj hin ▸ inv_congr h ⟨rfl, rfl⟩ rfl rfl rfl rfl rfl rfl rfl
  | send w =>
    rw [← Except.ok.inj hin]
    split
    · exact h
    · exact inv_withPort h _
  | pwmTick =>
    rw [← Except.ok.inj hin]
    split
    · exact h
    · exact inv_congr h ⟨rfl, rfl⟩ rfl rfl rfl rfl rfl rfl rfl
  | scanRequest => exact unless_resetHeld hin h (inv_scanRequest h)
  | accept => exact unless_resetHeld hin h (inv_acceptPacket h)
  | drawStep => exact unless_resetHeld hin h (inv_drawAdvance h)
  | scanStep => exact unless_resetHeld hin h (inv_scanAdvance h)

/-- A command executed whole is a run of micro-steps, each of which keeps the invariant. -/
theorem inv_exec {i : Instr} {s t : State} (h : s.Inv) (hd : s.draw = none) (hexec : exec i s = .next t) :
    t.Inv := by
  by_cases hi : i = .scan
  · subst hi
    rcases exec_scan_cases hexec with ⟨_, rfl⟩ | ⟨hf, u, hu, _⟩
    · exact h
    · have huInv : u.Inv := inv_scanSteps h (scanSteps_of_finishScan hu)
      obtain ⟨hwait, hus⟩ := scanPacketWaitsForScan s u hf hu
      obtain ⟨w, hw, rfl⟩ := finishScan_ok.1 hu
      rw [hwait] at hexec
      obtain ⟨_, v, n, hv, hn⟩ := exec_scan_reached_by_scanSteps hus rfl hexec
      have hud : w.draw = none := by rw [runScanMicros_cases hw]; exact hd
      exact inv_scanSteps (inv_startCommand huInv hud (fun _ => hus) hv) hn
  · obtain ⟨_, u, hu, n, hn⟩ := exec_reached_by_drawSteps hi hd hexec
    exact inv_drawSteps (inv_startCommand h hd (fun hs => absurd hs hi) hu) hn

/-- Settles O49: by the kinds of step. -/
theorem stepKeepsInvariant : Obligations.StepKeepsInvariant := by
  intro s t h hstep
  rcases step_cases hstep with ⟨e, rest, _, hin⟩ | ⟨_, _, rfl⟩ | ⟨_, _, hdraw | hscan | hill | hexec⟩
  · exact inv_applyInput (inv_withSched h rest) hin
  · exact h
  · exact inv_drawAdvance h hdraw.2
  · exact inv_scanAdvance h hscan.2
  · obtain ⟨_, _, _, rest, _, rfl⟩ := hill
    exact inv_congr h ⟨rfl, rfl⟩ rfl rfl rfl rfl rfl rfl rfl
  · obtain ⟨hd, _, i, rest, _, hexec⟩ := hexec
    exact inv_exec (inv_withPort h rest) hd hexec

end Sys2Proof.Proofs
end

section
/-! PROOFS. Pixel addressing (20_memory.md R62 to R65, R69): the byte and bit of a pixel, and the pixel of a byte
and bit, undo each other. -/

namespace Sys2Proof.Proofs

open Sys2Proof.Machine Sys2Proof.Laws

theorem inDisplay_natCast {g : Geometry} {x y : Nat} :
    g.inDisplay (x : Int) (y : Int) ↔ x < g.dw ∧ y < g.dh := by
  simp [Geometry.inDisplay]

/-- The pixels of the display are pairs of natural numbers. -/
theorem exists_nat_of_inDisplay {g : Geometry} {x y : Int} (h : g.inDisplay x y) :
    ∃ i j : Nat, x = i ∧ y = j ∧ i < g.dw ∧ j < g.dh := by
  obtain ⟨hx, hy, hxw, hyh⟩ := h
  lift x to Nat using hx
  lift y to Nat using hy
  exact ⟨x, y, rfl, rfl, inDisplay_natCast.1 ⟨by simp, by simp, hxw, hyh⟩⟩

/-- The byte of a pixel within its buffer row (R63). -/
def columnByte (g : Geometry) (x y : Nat) : Nat := 4 * g.panelOf x y + x % 32 / 8

theorem pixelByte_natCast (g : Geometry) (x y : Nat) :
    g.pixelByte (x : Int) (y : Int) = y % 16 * g.rowLen + columnByte g x y := rfl

/-- The buffer is sixteen buffer rows (R10). -/
theorem bufSize_eq_rowLen (g : Geometry) : g.bufSize = 16 * g.rowLen := by
  unfold Geometry.bufSize Geometry.rowLen
  omega

/-! ### From a pixel to its byte -/

section
variable {g : Geometry} {x y : Nat}

/-- `T = W * H` has room for the four bytes of every panel in a buffer row (R23). -/
theorem columnByte_lt (hT : g.t.toNat = g.w.toNat * g.h.toNat) (hx : x < g.dw) (hy : y < g.dh) :
    columnByte g x y < g.rowLen := by
  have hpanel := hT ▸ panelOf_lt hx hy
  unfold columnByte Geometry.rowLen
  omega

/-- A pixel of the display has a byte of the buffer (R69). -/
theorem pixelByte_lt_bufSize (hT : g.t.toNat = g.w.toNat * g.h.toNat) {x y : Int} (h : g.inDisplay x y) :
    g.pixelByte x y < g.bufSize := by
  obtain ⟨i, j, rfl, rfl, hi, hj⟩ := exists_nat_of_inDisplay h
  calc g.pixelByte i j < j % 16 * g.rowLen + g.rowLen := Nat.add_lt_add_left (columnByte_lt hT hi hj) _
    _ = (j % 16 + 1) * g.rowLen := (Nat.succ_mul _ _).symm
    _ ≤ 16 * g.rowLen := Nat.mul_le_mul_right _ (Nat.mod_lt j (by decide))
    _ = g.bufSize := (bufSize_eq_rowLen g).symm

/-- The place of a panel in the grid, from its number (R62, R65). -/
theorem panelOf_place (hx : x < g.dw) : g.panelOf x y % g.w.toNat = x / 32 ∧ g.panelOf x y / g.w.toNat = y / 16 := by
  have hcol : x / 32 < g.w.toNat := Nat.div_lt_of_lt_mul hx
  unfold Geometry.panelOf
  rw [Nat.add_mul_mod_self_left, Nat.mod_eq_of_lt hcol, Nat.add_mul_div_left _ _ (Nat.zero_lt_of_lt hcol),
    Nat.div_eq_of_lt hcol, Nat.zero_add]
  exact ⟨rfl, rfl⟩

/-- R65 undoes R63. -/
theorem pixelAt_pixelByte (hT : g.t.toNat = g.w.toNat * g.h.toNat) (hx : x < g.dw) (hy : y < g.dh) :
    g.pixelAt (g.pixelByte x y) (7 - x % 8) = (x, y) := by
  have hcol := columnByte_lt hT hx hy
  have hrow : g.pixelByte x y / g.rowLen = y % 16 := by
    rw [pixelByte_natCast, Nat.mul_comm, Nat.mul_add_div (Nat.zero_lt_of_lt hcol), Nat.div_eq_of_lt hcol,
      Nat.add_zero]
  have hbyte : g.pixelByte x y % g.rowLen = columnByte g x y := by
    rw [pixelByte_natCast, Nat.mul_add_mod', Nat.mod_eq_of_lt hcol]
  have hpanel : columnByte g x y / 4 = g.panelOf x y ∧ columnByte g x y % 4 = x % 32 / 8 := by
    unfold columnByte
    omega
  obtain ⟨hpx, hpy⟩ := panelOf_place (g := g) (y := y) hx
  simp only [Geometry.pixelAt, hrow, hbyte, hpanel.1, hpanel.2, hpx, hpy, Prod.mk.injEq]
  omega

end

/-! ### From a byte and a bit to the pixel -/

section
variable {g : Geometry} {a b : Nat}

/-- An address of the buffer is one of the sixteen rows and a byte of it (R10). -/
theorem row_lt_of_lt_bufSize (ha : a < g.bufSize) : a / g.rowLen < 16 :=
  Nat.div_lt_of_lt_mul (by rwa [Nat.mul_comm, ← bufSize_eq_rowLen])

/-- The pixel of a bit of the buffer lies in the display (R65). -/
theorem pixelAt_inDisplay (hT : g.t.toNat = g.w.toNat * g.h.toNat) (ha : a < g.bufSize) :
    (g.pixelAt a b).1 < g.dw ∧ (g.pixelAt a b).2 < g.dh := by
  have hrow := row_lt_of_lt_bufSize ha
  have hpos : 0 < g.rowLen := by
    rw [bufSize_eq_rowLen] at ha
    omega
  have hpanel : a % g.rowLen / 4 < g.w.toNat * g.h.toNat := hT ▸ Nat.div_lt_of_lt_mul (Nat.mod_lt a hpos)
  have hpx : a % g.rowLen / 4 % g.w.toNat < g.w.toNat :=
    Nat.mod_lt _ (Nat.pos_of_mul_pos_right (Nat.zero_lt_of_lt hpanel))
  have hpy : a % g.rowLen / 4 / g.w.toNat < g.h.toNat := Nat.div_lt_of_lt_mul hpanel
  simp only [Geometry.pixelAt, Geometry.dw, Geometry.dh]
  omega

/-- Where the pixel of bit `b` of byte `a` stands: its panel, its byte in the panel's row, its bit and its row
(R65). -/
theorem pixelAt_place (ha : a < g.bufSize) (hb : b ≤ 7) :
    g.panelOf (g.pixelAt a b).1 (g.pixelAt a b).2 = a % g.rowLen / 4 ∧
      (g.pixelAt a b).1 % 32 / 8 = a % g.rowLen % 4 ∧ (g.pixelAt a b).1 % 8 = 7 - b ∧
      (g.pixelAt a b).2 % 16 = a / g.rowLen := by
  have hrow := row_lt_of_lt_bufSize ha
  have hx : (g.pixelAt a b).1 / 32 = a % g.rowLen / 4 % g.w.toNat := by
    simp only [Geometry.pixelAt]
    omega
  have hy : (g.pixelAt a b).2 / 16 = a % g.rowLen / 4 / g.w.toNat := by
    simp only [Geometry.pixelAt, Nat.mul_add_div (show 16 > 0 by decide), Nat.div_eq_of_lt hrow, Nat.add_zero]
  refine ⟨by rw [Geometry.panelOf, hx, hy, Nat.mod_add_div], ?_, ?_, ?_⟩
  · simp only [Geometry.pixelAt]
    omega
  · simp only [Geometry.pixelAt]
    omega
  · simp only [Geometry.pixelAt, Nat.mul_add_mod, Nat.mod_eq_of_lt hrow]

/-- R63 undoes R65. -/
theorem pixelByte_pixelAt (ha : a < g.bufSize) (hb : b ≤ 7) :
    g.pixelByte (g.pixelAt a b).1 (g.pixelAt a b).2 = a := by
  obtain ⟨hpanel, hbyte, _, hrow⟩ := pixelAt_place ha hb
  calc g.pixelByte (g.pixelAt a b).1 (g.pixelAt a b).2
      = a / g.rowLen * g.rowLen + (4 * (a % g.rowLen / 4) + a % g.rowLen % 4) := by
        rw [pixelByte_natCast, columnByte, hpanel, hbyte, hrow]
    _ = a := by rw [Nat.div_add_mod, Nat.div_add_mod']

/-- The mask of R63 is the bit of R65. -/
theorem pixelMask_pixelAt (ha : a < g.bufSize) (hb : b ≤ 7) : pixelMask (g.pixelAt a b).1 = 1#8 <<< b := by
  obtain ⟨_, _, hbit, _⟩ := pixelAt_place ha hb
  rw [pixelMask, Int.toNat_natCast, hbit, maskOf_eq _ (by omega), Nat.sub_sub_self hb]

end

/-- Settles O8: `pixelAt` and `pixelByte` with `maskOf` undo each other. -/
theorem pixelAddressIsBijection : Obligations.PixelAddressIsBijection := by
  intro cfg g ⟨_, _, hT, _⟩
  refine ⟨fun x y h => ⟨pixelByte_lt_bufSize hT h, ?_⟩, fun a b ha hb => ?_⟩
  · obtain ⟨i, j, rfl, rfl, hi, hj⟩ := exists_nat_of_inDisplay h
    exact ⟨7 - i % 8, Nat.sub_le _ _, maskOf_eq _ (Nat.mod_lt i (by decide)), pixelAt_pixelByte hT hi hj⟩
  · exact ⟨inDisplay_natCast.2 (pixelAt_inDisplay hT ha), pixelByte_pixelAt ha hb, pixelMask_pixelAt ha hb⟩

end Sys2Proof.Proofs
end

section
/-! PROOFS. Packets against the port (20_memory.md R82) and CHANGEDMD against a scan (R85). -/

namespace Sys2Proof.Proofs

open Sys2Proof.Machine Sys2Proof.Laws

theorem fetchPacket_of_decode {s : State} {i : Instr} {rest : List Word}
    (hdec : decodePacket s.env.port = .packet i rest) : fetchPacket s = .packet i (s.withPort rest) := by
  simp only [fetchPacket, hdec]

/-- Settles O6: a ready block takes the last branch of `step`. -/
theorem stepRunsDecodedCommand : Obligations.StepRunsDecodedCommand := by
  intro s i rest ⟨hsched, hreset, hdraw, hport⟩ hdec
  simp [step, hsched, hreset, hdraw, hport, fetchPacket_of_decode hdec]

theorem reconfiguring_of_cmd {s : State} {d : DrawProgress} {i : Instr} (hd : s.draw = some d)
    (hcmd : d.cmd = some i) (hi : isReconfig i = true) : s.reconfiguring = true := by
  obtain ⟨cmd, rest⟩ := d
  simp_all [State.reconfiguring]

/-- Settles O15: the fault comes after the FAULT condition and before everything else. -/
theorem reconfigurationAgainstScanFaults : Obligations.ReconfigurationAgainstScanFaults := by
  refine ⟨fun s w h hf hs => ⟨?_, ?_⟩, fun s d hf hreset _ hs hd ⟨i, hcmd, hi⟩ => ?_⟩
  · simp [exec, execChangeDmd, hf, hs]
  · simp [startCommand, isReconfig, hf, hs]
  · simp [applyInput, scanRequest, hf, hreset, hs, reconfiguring_of_cmd hd hcmd hi]

end Sys2Proof.Proofs
end

section
/-! PROOFS. Every command completes: each address its operations use lies in the buffer (20_memory.md R69). -/

namespace Sys2Proof.Proofs

open Sys2Proof.Machine Sys2Proof.Laws

/-! ### Operations of the draw engine -/

/-- The address the operation was given lies in the buffer, and a pixel it reads in the display; a `WritePixel`
clips itself (R121). -/
def Fits (g : Geometry) : Micro → Prop
  | .merge a _ _ _ _ | .store a _ | .forget a => a < g.bufSize
  | .copyLeft x y => g.inDisplay (x + 1) y
  | .pixel _ _ _ _ | .reg _ => True

theorem writePixel_completes {s : State} (hs : s.geomOk) (x y : Int) (mode : Mode) (v : Bool) :
    ∃ t, s.writePixel x y mode v = .ok t := by
  obtain ⟨_, _, hT, _⟩ := hs
  by_cases hd : s.geom.inDisplay x y
  · exact ⟨_, writePixel_on mode v hd (pixelByte_lt_bufSize hT hd)⟩
  · exact ⟨_, writePixel_off mode v hd⟩

theorem runMicro_completes {m : Micro} {s : State} (hs : s.geomOk) (hm : Fits s.geom m) :
    ∃ t, runMicro m s = .ok t := by
  cases m with
  | pixel x y mode v => exact writePixel_completes hs x y mode v
  | copyLeft x y =>
    obtain ⟨_, _, hT, _⟩ := id hs
    simp only [runMicro, load_inRange (pixelByte_lt_bufSize hT hm)]
    exact writePixel_completes hs x y .normal _
  | merge a mask mode v old => exact ⟨_, store_inRange _ hm⟩
  | store a v => exact ⟨_, store_inRange v hm⟩
  | forget a => exact ⟨_, forget_ok.2 ⟨hm, rfl⟩⟩
  | reg w => exact ⟨_, rfl⟩

/-- Operations that fit a legal geometry, and do not write it, complete. -/
theorem runMicros_completes {ms : List Micro} {s : State} (hs : s.geomOk) (hfit : ∀ m ∈ ms, Fits s.geom m)
    (hkeep : ∀ m ∈ ms, .geometry ∉ microTargets m) : ∃ t, runMicros ms s = .ok t := by
  induction ms generalizing s with
  | nil => exact ⟨s, rfl⟩
  | cons m ms ih =>
    rw [List.forall_mem_cons] at hfit hkeep
    obtain ⟨u, hu⟩ := runMicro_completes hs hfit.1
    have hgeom : u.geom = s.geom := (runMicro_sameAt hu hkeep.1).1
    have henv : u.env = s.env := (runMicro_frame hu).1
    obtain ⟨t, ht⟩ := ih (s := u) (by rw [State.geomOk, hgeom, henv]; exact hs) (hgeom ▸ hfit.2) hkeep.2
    exact ⟨t, runMicros_cons_ok.2 ⟨u, hu, ht⟩⟩

/-! ### The commands' operations -/

theorem plotAll_fits (g : Geometry) (mode : Mode) (ps : List Point) : ∀ m ∈ plotAll mode ps, Fits g m :=
  List.forall_mem_map.2 fun _ _ => trivial

theorem fillAll_fits (g : Geometry) (v : Byte) : ∀ m ∈ fillAll g v, Fits g m := by
  simp [fillAll, Fits]

theorem mem_intRange {lo hi v : Int} : v ∈ intRange lo hi ↔ lo ≤ v ∧ v ≤ hi := by
  have hmem : v ∈ intRange lo hi ↔ ∃ n : Nat, n < (hi + 1 - lo).toNat ∧ lo + (n : Int) = v := by simp [intRange]
  rw [hmem]
  constructor
  · rintro ⟨n, hn, rfl⟩
    omega
  · intro h
    exact ⟨(v - lo).toNat, by omega, by omega⟩

/-- A row of the clipped band reads the pixel to the right of one that is not in the last column (R208). -/
theorem shiftRow_fits {g : Geometry} {c y : Int} (hc : 0 ≤ c) (hy : 0 ≤ y) (hlast : y < g.dh) :
    ∀ m ∈ shiftRow g c y, Fits g m := by
  rw [shiftRow, List.forall_mem_append]
  refine ⟨List.forall_mem_map.2 fun x hx => ?_, by simp [Fits]⟩
  obtain ⟨hcx, hxl⟩ := mem_intRange.1 hx
  exact ⟨by omega, hy, by omega, hlast⟩

theorem needFont_fits {g : Geometry} {ms : List Micro} (s : State) (h : ∀ m ∈ ms, Fits g m) :
    ∀ m ∈ needFont s ms, Fits g m := by
  unfold needFont
  split
  · exact h
  · simp [Fits]

theorem stepMarqueeProgram_fits (dx dy : Int) (s : State) : ∀ m ∈ stepMarqueeProgram dx dy s, Fits s.geom m := by
  unfold stepMarqueeProgram
  split
  · simp only [List.forall_mem_cons]
    refine ⟨trivial, trivial, ?_⟩
    split
    · simp only [List.forall_mem_append]
      exact ⟨fillAll_fits _ _, plotAll_fits _ _ _, by simp [Fits]⟩
    · simp [Fits]
  · simp [Fits]

theorem stepSplitMarquee3Program_fits (topRow bottomRow startColumn : Int) (s : State) :
    ∀ m ∈ stepSplitMarquee3Program topRow bottomRow startColumn s, Fits s.geom m := by
  intro m hm
  unfold stepSplitMarquee3Program splitBand at hm
  simp only at hm
  split at hm
  · rcases List.mem_cons.1 hm with rfl | hm
    · trivial
    · rcases List.mem_append.1 hm with hm | hm
      · obtain ⟨y, hy, hm⟩ := List.mem_flatMap.1 hm
        obtain ⟨htop, hbottom⟩ := mem_intRange.1 hy
        exact shiftRow_fits (le_max_right _ _) (by omega) (by omega) m hm
      · exact plotAll_fits _ _ _ m hm
  · cases hm

/-- Every command but CHANGEDMD keeps to the buffer it starts with (R69). -/
theorem drawProgram_fits {i : Instr} (s : State) (hi : isReconfig i = false) :
    ∀ m ∈ drawProgram i s, Fits s.geom m := by
  cases i with
  | changeDmd => cases hi
  | clearScreen => exact fillAll_fits _ _
  | drawLine | drawCircle | drawBox | drawFilledBox => exact plotAll_fits _ _ _
  | drawTestPattern =>
    intro m hm
    obtain ⟨y, _, hm⟩ := List.mem_flatMap.1 hm
    exact List.forall_mem_map.2 (fun _ _ => trivial) m hm
  | drawChar =>
    exact needFont_fits s (List.forall_mem_append.2 ⟨plotAll_fits _ _ _, by simp [Fits]⟩)
  | drawString => exact needFont_fits s (plotAll_fits _ _ _)
  | charWidth => exact needFont_fits s (by simp [Fits])
  | drawMarquee =>
    refine needFont_fits s ?_
    simp only [List.forall_mem_append]
    refine ⟨?_, by simp [Fits], by simp [Fits], plotAll_fits _ _ _⟩
    split <;> simp [Fits]
  | stepMarquee => exact stepMarqueeProgram_fits _ _ s
  | stepSplitMarquee3 => exact stepSplitMarquee3Program_fits _ _ _ s
  | writePixel | selectFont | setBrightness | scan =>
    simp [drawProgram, writePixelProgram, selectFontProgram, setBrightnessProgram, Fits]

/-- The grid of a CHANGEDMD that fits the RAM is a legal geometry (R23, R125). -/
theorem geometry_ok_of_reconfigFits {cfg : Config} {w h : Byte} (hfits : reconfigFits cfg w h) :
    Geometry.ok cfg { w := w, h := h, t := BitVec.ofNat 8 (w.toNat * h.toNat) } := by
  obtain ⟨hw, hh, hmax⟩ := hfits
  have htotal : (BitVec.ofNat 8 (w.toNat * h.toNat)).toNat = w.toNat * h.toNat := by
    rw [BitVec.toNat_ofNat, Nat.mod_eq_of_lt]
    exact hmax.trans_lt cfg.tMax.isLt
  exact ⟨Nat.pos_of_ne_zero hw, Nat.pos_of_ne_zero hh, htotal, htotal.trans_le hmax⟩

/-- CHANGEDMD writes the new grid before it makes the bytes of the new buffer unspecified (R125). -/
theorem changeDmdProgram_completes (w h : Byte) (s : State) :
    ∃ t, runMicros (changeDmdProgram w h s) s = .ok t := by
  unfold changeDmdProgram
  split
  · next hfits =>
    obtain ⟨u, hu, hgeom, henv⟩ : ∃ u, runMicros [.reg (.width w), .reg (.height h),
        .reg (.total (BitVec.ofNat 8 (w.toNat * h.toNat))), .reg .phaseZero, .reg .cursorZero] s = .ok u ∧
        u.geom = { w := w, h := h, t := BitVec.ofNat 8 (w.toNat * h.toNat) } ∧ u.env = s.env :=
      ⟨_, rfl, rfl, rfl⟩
    obtain ⟨_, _, htotal, _⟩ := geometry_ok_of_reconfigFits hfits
    have hsize : u.geom.bufSize = 64 * (w.toNat * h.toNat) := by
      rw [hgeom]
      exact congrArg (64 * ·) htotal
    obtain ⟨t, ht⟩ := runMicros_completes (ms := (List.range (64 * (w.toNat * h.toNat))).map .forget)
      (s := u) (by rw [State.geomOk, hgeom, henv]; exact geometry_ok_of_reconfigFits hfits)
      (List.forall_mem_map.2 fun a ha => (List.mem_range.1 ha).trans_eq hsize.symm)
      (List.forall_mem_map.2 fun _ _ => by simp [microTargets])
    exact ⟨t, runMicros_append_ok.2 ⟨u, hu, ht⟩⟩
  · exact ⟨_, rfl⟩

theorem drawProgram_completes (i : Instr) {s : State} (hs : s.geomOk) :
    ∃ t, runMicros (drawProgram i s) s = .ok t := by
  cases hr : isReconfig i with
  | false =>
    exact runMicros_completes hs (drawProgram_fits s hr)
      (drawProgram_avoids s (by simp [geometry_mem_commandTargets, hr]))
  | true => cases i with
    | changeDmd w h => exact changeDmdProgram_completes w h s
    | _ => cases hr

/-! ### Executing -/

/-- With no scan in progress a command of the draw engine is executed by its operations (R85, R266). -/
theorem exec_eq_runCommand {i : Instr} {s : State} (hi : i ≠ .scan) (hs : s.scan = []) :
    exec i s = s.runCommand (drawProgram i s) := by
  cases i with
  | scan => exact absurd rfl hi
  | changeDmd w h => simp [exec, execChangeDmd, hs, drawProgram]
  | _ => rfl

theorem runCommand_completes {ms : List Micro} {s : State} (h : ∃ t, runMicros ms s = .ok t) :
    ∃ t, s.runCommand ms = .next t := by
  cases hf : s.sticky.fault with
  | true => exact ⟨s, runCommand_fault ms hf⟩
  | false =>
    obtain ⟨t, ht⟩ := h
    exact ⟨t, by rw [runCommand_live ms hf, ht, toOutcome_ok]⟩

/-- The address the scan engine's operation loads lies in the buffer. -/
def ScanFits (g : Geometry) : ScanMicro → Prop
  | .shift a => a < g.bufSize
  | .skip | .emit _ | .oeGate _ | .selA _ | .selB _ | .phase _ | .cursor _ => True

theorem runScanMicros_completes {ms : List ScanMicro} {s : State} (hfit : ∀ m ∈ ms, ScanFits s.geom m) :
    ∃ t, runScanMicros ms s = .ok t := by
  induction ms generalizing s with
  | nil => exact ⟨s, rfl⟩
  | cons m ms ih =>
    rw [List.forall_mem_cons] at hfit
    obtain ⟨u, hu⟩ : ∃ u, runScanMicro m s = .ok u := by
      cases m with
      | shift a => exact ⟨s.emit (.shift (s.byteAt a)), by simp only [runScanMicro, load_inRange hfit.1]⟩
      | _ => exact ⟨_, rfl⟩
    have hgeom : u.geom = s.geom := by rw [runScanMicro_cases hu]
    obtain ⟨t, ht⟩ := ih (s := u) (hgeom ▸ hfit.2)
    exact ⟨t, runScanMicros_cons_ok.2 ⟨u, hu, ht⟩⟩

/-- A scan loads from the sixteen rows of the buffer (R236). -/
theorem scanColumn_fits {g : Geometry} {p i : Nat} (hp : p < 4) (hi : i < g.rowLen) :
    ∀ m ∈ scanColumn g.rowLen p i, ScanFits g m := by
  have hrow (r : Nat) (hr : r < 16) : r * g.rowLen + i < g.bufSize := by
    rw [bufSize_eq_rowLen]
    calc r * g.rowLen + i < (r + 1) * g.rowLen := by rw [Nat.succ_mul]; omega
      _ ≤ 16 * g.rowLen := Nat.mul_le_mul_right _ hr
  simp only [scanColumn, List.forall_mem_cons, ScanFits]
  exact ⟨trivial, hrow _ (by omega), hrow _ (by omega), hrow _ (by omega), hrow _ (by omega), by simp⟩

theorem scanOps_fits (s : State) : ∀ m ∈ s.scanOps, ScanFits s.geom m := by
  unfold State.scanOps scanProgram
  split
  · simp [ScanFits]
  · simp only [List.forall_mem_append]
    refine ⟨by simp [ScanFits], fun m hm => ?_, by simp [ScanFits]⟩
    obtain ⟨i, hi, hm⟩ := List.mem_flatMap.1 hm
    exact scanColumn_fits s.regs.phase.isLt (List.mem_range.1 hi) m hm

/-- SCAN on an idle scan engine runs a whole scan, or nothing in the FAULT condition (R234, R245). -/
theorem exec_scan_completes {s : State} (hs : s.scan = []) : ∃ t, exec .scan s = .next t := by
  cases hf : s.sticky.fault with
  | true => exact ⟨s, by simp [exec, execScan, hf]⟩
  | false =>
    have hfinish : s.finishScan = .ok { s with scan := [], scanOnPort := false } :=
      finishScan_ok.2 ⟨s, by rw [hs, runScanMicros_nil], rfl⟩
    obtain ⟨t, ht⟩ := runScanMicros_completes (scanOps_fits { s with scan := [], scanOnPort := false })
    exact ⟨t, by rw [exec_scan_live hf hfinish, ht, toOutcome_ok]⟩

/-- Settles O50: no operation of a command or of a scan leaves the buffer. -/
theorem everyCommandCompletes : Obligations.EveryCommandCompletes := by
  intro i s hs hidle
  by_cases hi : i = .scan
  · exact hi ▸ exec_scan_completes hidle
  · rw [exec_eq_runCommand hi hidle]
    exact runCommand_completes (drawProgram_completes i hs)

end Sys2Proof.Proofs
end

section
/-! PROOFS. The draw engine does not see the scan engine (20_memory.md R80, R81): its micro-steps read and write
only the draw side of the state. -/

namespace Sys2Proof.Proofs

open Sys2Proof.Machine Sys2Proof.Laws

/-- The state as the draw engine sees it: the scan engine, its registers and outputs, the PWM counter and the
surroundings are those of the reset state. CHANGEDMD's writes to the scan position write these very values. -/
def drawSide (s : State) : State :=
  { s with env := Env.initial, regs := State.reset.regs, pwmCnt := 0, scan := [], scanOnPort := false, trace := [] }

@[simp] theorem drawSide_geom (s : State) : (drawSide s).geom = s.geom := rfl

/-! ### Micro-steps on the draw side -/

@[simp] theorem load_drawSide (s : State) (a : Nat) : (drawSide s).load a = s.load a := rfl

@[simp] theorem store_drawSide (s : State) (a : Nat) (v : Byte) :
    (drawSide s).store a v = (s.store a v).map drawSide := by
  by_cases ha : a < s.geom.bufSize <;> simp only [State.store, drawSide_geom, ha, if_true, if_false] <;> rfl

@[simp] theorem forget_drawSide (s : State) (a : Nat) : (drawSide s).forget a = (s.forget a).map drawSide := by
  by_cases ha : a < s.geom.bufSize <;> simp only [State.forget, drawSide_geom, ha, if_true, if_false] <;> rfl

@[simp] theorem applyReg_drawSide (w : RegWrite) (s : State) : applyReg w (drawSide s) = drawSide (applyReg w s) := by
  cases w <;> rfl

/-- A micro-step acts on the draw side alone. -/
theorem stepMicro_drawSide (m : Micro) (s : State) :
    stepMicro m (drawSide s) = (stepMicro m s).map (Prod.map id drawSide) := by
  cases m with
  | pixel x y mode v =>
    by_cases hxy : s.geom.inDisplay x y
    · have hxy' : (drawSide s).geom.inDisplay x y := hxy
      simp only [stepMicro]
      rw [if_pos hxy, if_pos hxy', drawSide_geom, load_drawSide]
      cases s.load (s.geom.pixelByte x y) <;> rfl
    · have hxy' : ¬ (drawSide s).geom.inDisplay x y := hxy
      simp only [stepMicro]
      rw [if_neg hxy, if_neg hxy']
      rfl
  | merge a mask mode v old =>
    simp only [stepMicro, store_drawSide]
    cases s.store a (withBit old mask (combine mode (bitOf old mask) v)) <;> rfl
  | copyLeft x y =>
    simp only [stepMicro, drawSide_geom, load_drawSide]
    cases s.load (s.geom.pixelByte (x + 1) y) <;> rfl
  | store a v =>
    simp only [stepMicro, store_drawSide]
    cases s.store a v <;> rfl
  | forget a =>
    simp only [stepMicro, forget_drawSide]
    cases s.forget a <;> rfl
  | reg w =>
    simp only [stepMicro, applyReg_drawSide]
    rfl

theorem drawAdvance_drawSide (s : State) : drawAdvance (drawSide s) = (drawAdvance s).map drawSide := by
  have hdraw : (drawSide s).draw = s.draw := rfl
  unfold drawAdvance
  rw [hdraw]
  rcases s.draw with _ | ⟨cmd, _ | ⟨m, rest⟩⟩
  · rfl
  · rfl
  · simp only [stepMicro_drawSide]
    rcases stepMicro m s with _ | ⟨_ | m', u⟩ <;> rfl

/-- The draw engine takes states with one draw side to states with one draw side. -/
theorem drawAdvance_congr {s t v : State} (hv : drawSide v = drawSide s) (h : drawAdvance s = .ok t) :
    ∃ u, drawAdvance v = .ok u ∧ drawSide u = drawSide t := by
  have hmap : (drawAdvance v).map drawSide = .ok (drawSide t) := by
    rw [← drawAdvance_drawSide, hv, drawAdvance_drawSide, h]
    rfl
  cases hu : drawAdvance v with
  | error e => rw [hu] at hmap; cases hmap
  | ok u => exact ⟨u, rfl, by rw [hu] at hmap; exact Except.ok.inj hmap⟩

/-! ### Inputs during a command -/

/-- The second state has the draw side and the reset line of the first. -/
def SameDrawSide (s t : State) : Prop := drawSide t = drawSide s ∧ t.env.resetHeld = s.env.resetHeld

/-- An input during a command that is no turn of the draw engine leaves the draw side. -/
theorem applyInput_sameDrawSide {e : Input} {s t : State} (he : e.duringCommand = true) (hne : e ≠ .drawStep)
    (h : applyInput e s = .ok t) : SameDrawSide s t := by
  cases e with
  | send w => cases he
  | reset level => cases he
  | accept => cases he
  | drawStep => exact absurd rfl hne
  | busBusy level => cases h; exact ⟨rfl, rfl⟩
  | pwmTick =>
    simp only [applyInput] at h
    split at h <;> cases h <;> exact ⟨rfl, rfl⟩
  | scanRequest =>
    refine unless_resetHeld (P := SameDrawSide s) h ⟨rfl, rfl⟩ fun hr => ?_
    rcases scanRequest_cases hr with rfl | ⟨_, _, _, rfl⟩ <;> exact ⟨rfl, rfl⟩
  | scanStep =>
    refine unless_resetHeld (P := SameDrawSide s) h ⟨rfl, rfl⟩ fun hr => ?_
    rw [scanAdvance_frame hr]
    exact ⟨rfl, rfl⟩

theorem applyInput_drawStep {s : State} (h : s.env.resetHeld = false) : applyInput .drawStep s = drawAdvance s := by
  simp [applyInput, h]

theorem applyInputs_cons_ok {e : Input} {es : List Input} {s t : State} :
    applyInputs (e :: es) s = .ok t ↔ ∃ u, applyInput e s = .ok u ∧ applyInputs es u = .ok t := by
  simp only [applyInputs]
  split <;> simp_all

/-- Inputs during a command lead to the draw side that the turns of the draw engine among them lead to, from any
state with the same draw side. -/
theorem applyInputs_drawSide {es : List Input} {s t v : State} (hes : ∀ e ∈ es, e.duringCommand = true)
    (hs : s.env.resetHeld = false) (hv : v.env.resetHeld = false) (hside : drawSide v = drawSide s)
    (h : applyInputs es s = .ok t) :
    ∃ u, applyInputs (es.filter (fun e => decide (e = .drawStep))) v = .ok u ∧ drawSide u = drawSide t := by
  induction es generalizing s v with
  | nil =>
    cases h
    exact ⟨v, rfl, hside⟩
  | cons e es ih =>
    rw [List.forall_mem_cons] at hes
    obtain ⟨s', he, hrest⟩ := applyInputs_cons_ok.1 h
    by_cases hdraw : e = .drawStep
    · subst hdraw
      rw [applyInput_drawStep hs] at he
      obtain ⟨v', hv', hside'⟩ := drawAdvance_congr hside he
      obtain ⟨u, hu, hut⟩ := ih hes.2 (by rwa [drawAdvance_env he]) (by rwa [drawAdvance_env hv']) hside' hrest
      rw [List.filter_cons_of_pos (by simp)]
      exact ⟨u, applyInputs_cons_ok.2 ⟨v', by rwa [applyInput_drawStep hv], hu⟩, hut⟩
    · obtain ⟨hkeep, hreset⟩ := applyInput_sameDrawSide hes.1 hdraw he
      rw [List.filter_cons_of_neg (by simpa using hdraw)]
      exact ih hes.2 (hreset.trans hs) hv (hside.trans hkeep.symm) hrest

/-- Settles O55: the draw side holds everything the statement names. -/
theorem interleavingKeepsDrawing : Obligations.InterleavingKeepsDrawing := by
  intro s t es hs hes h
  obtain ⟨u, hu, hside⟩ := applyInputs_drawSide hes hs hs rfl h
  simp only [drawSide, State.mk.injEq] at hside
  obtain ⟨-, hgeom, hbuf, hbright, -, -, hfont, hmarq, hsticky, hres, hdraw, -⟩ := hside
  exact ⟨u, hu, hbuf.symm, hgeom.symm, hmarq.symm, hfont.symm, hbright.symm, hres.symm, hsticky.symm, hdraw.symm⟩

end Sys2Proof.Proofs
end

section
/-! PROOFS. Words as packets (30_encoding.md R90 to R100): which words the decoder reads as a command, and which
row of the table of R97 they meet. -/

namespace Sys2Proof.Proofs

open Sys2Proof.Machine Sys2Proof.Laws

/-! ### Fields put back together (R91, R93) -/

/-- Word 0 is its four fields (R91). -/
theorem append_fields (w : Word) : opBits w ++ (rsvBits w ++ (modeBits w ++ immBits w)) = w := by
  have hmode : modeBits w ++ immBits w = w.extractLsb' 0 19 :=
    BitVec.extractLsb'_append_extractLsb'_eq_extractLsb' rfl
  have hrsv : rsvBits w ++ w.extractLsb' 0 19 = w.extractLsb' 0 24 :=
    BitVec.extractLsb'_append_extractLsb'_eq_extractLsb' rfl
  rw [hmode, hrsv]
  exact BitVec.extractLsb'_append_extractLsb'

theorem word0_fields {op : Opcode} {w : Word} (hop : opBits w = op.byte) (hrsv : rsvBits w = 0) :
    word0 op (modeBits w) (immBits w) = w := by
  rw [word0, ← hop, show 0#5 = rsvBits w from hrsv.symm, append_fields]

theorem field16_sext16 (v : BitVec 16) : field16 (sext16 v) = v := BitVec.ofInt_toInt

theorem hiHalf_append_loHalf (w : Word) : hiHalf w ++ loHalf w = w := BitVec.extractLsb'_append_extractLsb'

/-- The pair form loses nothing (R93). -/
theorem pairWord_halves (w : Word) : pairWord (sext16 (loHalf w)) (sext16 (hiHalf w)) = w := by
  rw [pairWord, field16_sext16, field16_sext16, hiHalf_append_loHalf]

theorem setWidth_extractLsb'_zero {v : BitVec 16} {n : Nat} (h : v.toNat < 2 ^ n) :
    (v.extractLsb' 0 n).setWidth 16 = v :=
  BitVec.eq_of_toNat_eq (by simp [Nat.mod_eq_of_lt h, Nat.mod_eq_of_lt v.isLt])

theorem immBit_getLsbD_zero {v : BitVec 16} (h : v.toNat < 2 ^ 1) : immBit (v.getLsbD 0) = v := by
  have hbit : v = 0 ∨ v = 1 := by bv_omega
  rcases hbit with rfl | rfl <;> rfl

theorem getLsbD_zero_immBit (b : Bool) : (immBit b).getLsbD 0 = b := by cases b <;> rfl

theorem immBit_lt (b : Bool) : (immBit b).toNat < 2 ^ 1 := by cases b <;> decide

/-! ### The checks of R98 -/

theorem ofByte_eq_some {b : Byte} {op : Opcode} : Opcode.ofByte b = some op ↔ b = op.byte := by
  refine ⟨fun h => ?_, fun h => h ▸ ofByte_byte op⟩
  unfold Opcode.ofByte at h
  split at h <;> cases h <;> exact BitVec.eq_of_toNat_eq ‹_›

theorem ofCode_eq_some {c : BitVec 3} {m : Mode} : Mode.ofCode c = some m ↔ c = m.code := by
  refine ⟨fun h => ?_, fun h => h ▸ ofCode_code m⟩
  unfold Mode.ofCode at h
  split at h <;> cases h <;> exact BitVec.eq_of_toNat_eq ‹_›

section
variable {w0 w1 w2 : Word} {i : Instr}

theorem withMode_ok {k : Mode → Except Illegal Instr} :
    withMode w0 k = .ok i ↔ ∃ m, modeBits w0 = m.code ∧ k m = .ok i := by
  simp only [← ofCode_eq_some, withMode]
  cases Mode.ofCode (modeBits w0) <;> simp

theorem withoutMode_ok {k : Except Illegal Instr} :
    withoutMode w0 k = .ok i ↔ modeBits w0 = 0 ∧ k = .ok i := by
  unfold withoutMode
  split <;> simp_all

theorem immWithin_ok {n : Nat} {k : Except Illegal Instr} :
    immWithin w0 n k = .ok i ↔ (immBits w0).toNat < 2 ^ n ∧ k = .ok i := by
  unfold immWithin
  split <;> simp [*]

theorem toNat_lt_two_pow_zero {v : BitVec 16} : v.toNat < 2 ^ 0 ↔ v = 0 := by
  rw [← BitVec.toNat_inj]
  simp

theorem decodeWords_ok : decodeWords w0 w1 w2 = .ok i ↔
    ∃ op, opBits w0 = op.byte ∧ rsvBits w0 = 0 ∧ decodeOperands op w0 w1 w2 = .ok i := by
  simp only [← ofByte_eq_some, decodeWords]
  cases Opcode.ofByte (opBits w0) with
  | none => simp
  | some op => by_cases hrsv : rsvBits w0 = 0 <;> simp_all

/-! ### The decoder against the encoder -/

theorem packetWords_of_opBits {op : Opcode} (h : opBits w0 = op.byte) : packetWords w0 = op.format.words := by
  rw [packetWords, h, ofByte_byte]

theorem packetWords_bounds (w : Word) : 1 ≤ packetWords w ∧ packetWords w ≤ 3 := by
  unfold packetWords
  cases Opcode.ofByte (opBits w) with
  | none => decide
  | some op => cases op <;> decide

/-- What the decoder reads is in range, and its words are those it was read from (R95, R97). -/
theorem encode_of_decodeOperands {op : Opcode} (hw0 : word0 op (modeBits w0) (immBits w0) = w0)
    (h : decodeOperands op w0 w1 w2 = .ok i) :
    i.wellFormed = true ∧ encode i = [w0, w1, w2].take op.format.words := by
  cases op <;> simp only [decodeOperands, withMode_ok, withoutMode_ok, immWithin_ok, toNat_lt_two_pow_zero,
    Except.ok.injEq] at h
  case writePixel =>
    obtain ⟨m, hm, himm, rfl⟩ := h
    rw [hm] at hw0
    exact ⟨by simp [Instr.wellFormed, inS16_sext16],
      by simp only [encode, immBit_getLsbD_zero himm, hw0, pairWord_halves]; rfl⟩
  case clearScreen =>
    obtain ⟨hm, himm, rfl⟩ := h
    rw [hm] at hw0
    exact ⟨rfl, by simp only [encode, immBit_getLsbD_zero himm, hw0]; rfl⟩
  case changeDmd =>
    obtain ⟨hm, rfl⟩ := h
    rw [hm] at hw0
    exact ⟨rfl, by rw [encode, BitVec.extractLsb'_append_extractLsb' (w := 8), hw0]; rfl⟩
  case drawLine | drawBox | drawFilledBox =>
    obtain ⟨m, hm, himm, rfl⟩ := h
    rw [hm, himm] at hw0
    exact ⟨by simp [Instr.wellFormed, inS16_sext16], by simp only [encode, hw0, pairWord_halves]; rfl⟩
  case drawCircle =>
    obtain ⟨m, hm, himm, h⟩ := h
    rw [hm, himm] at hw0
    split at h
    · next hhi =>
      obtain rfl := Except.ok.inj h
      refine ⟨by simp [Instr.wellFormed, inS16_sext16], ?_⟩
      have hw2 : 0#16 ++ loHalf w2 = w2 := (congrArg (· ++ loHalf w2) hhi).symm.trans (hiHalf_append_loHalf w2)
      rw [encode, field16_sext16, hw0, hw2, pairWord_halves]
      rfl
    · cases h
  case drawTestPattern | charWidth | setBrightness =>
    obtain ⟨hm, himm, rfl⟩ := h
    rw [hm] at hw0
    exact ⟨rfl, by rw [encode, setWidth_extractLsb'_zero himm, hw0]; rfl⟩
  case selectFont | stepMarquee | scan =>
    obtain ⟨hm, himm, rfl⟩ := h
    rw [hm, himm] at hw0
    exact ⟨by simp [Instr.wellFormed, inS16_sext16], by simp only [encode, hw0, pairWord_halves]; rfl⟩
  case drawChar =>
    obtain ⟨m, hm, himm, rfl⟩ := h
    rw [hm] at hw0
    exact ⟨by simp [Instr.wellFormed, inS16_sext16],
      by rw [encode, setWidth_extractLsb'_zero himm, hw0, pairWord_halves]; rfl⟩
  case drawString =>
    obtain ⟨m, hm, rfl⟩ := h
    rw [hm] at hw0
    exact ⟨by simp [Instr.wellFormed, inS16_sext16], by rw [encode, hw0, pairWord_halves]; rfl⟩
  case drawMarquee =>
    obtain ⟨hm, rfl⟩ := h
    rw [hm] at hw0
    exact ⟨by simp [Instr.wellFormed, inS16_sext16], by rw [encode, hw0, pairWord_halves]; rfl⟩
  case stepSplitMarquee3 =>
    obtain ⟨hm, rfl⟩ := h
    rw [hm] at hw0
    exact ⟨by simp [Instr.wellFormed, inS16_sext16], by rw [encode, field16_sext16, hw0, pairWord_halves]; rfl⟩

theorem encode_shape (i : Instr) : EncodeShape.Statement i := by
  cases i <;> exact ⟨_, _, rfl, opBits_word0 _ _ _, by rw [packetWords_word0]; rfl⟩

/-! ### The decoder on the words the encoder writes -/

@[simp] theorem withMode_word0 (op : Opcode) (m : Mode) (imm : BitVec 16) (k : Mode → Except Illegal Instr) :
    withMode (word0 op m.code imm) k = k m := by
  rw [withMode, modeBits_word0, ofCode_code]

@[simp] theorem withoutMode_word0 (op : Opcode) (imm : BitVec 16) (k : Except Illegal Instr) :
    withoutMode (word0 op 0 imm) k = k := by
  rw [withoutMode, modeBits_word0, if_pos rfl]

theorem immWithin_word0 {op : Opcode} {m : BitVec 3} {imm : BitVec 16} {n : Nat} (h : imm.toNat < 2 ^ n)
    (k : Except Illegal Instr) : immWithin (word0 op m imm) n k = k := by
  rw [immWithin, immBits_word0, if_pos h]

theorem toNat_setWidth_lt {n : Nat} (v : BitVec n) : (v.setWidth 16).toNat < 2 ^ n := by
  rw [BitVec.toNat_setWidth]
  exact (Nat.mod_le _ _).trans_lt v.isLt

theorem extractLsb'_zero_setWidth {n : Nat} (v : BitVec n) (hn : n ≤ 16) : (v.setWidth 16).extractLsb' 0 n = v := by
  rw [← BitVec.setWidth_eq_extractLsb' (by omega), BitVec.setWidth_setWidth_of_le _ hn, BitVec.setWidth_eq]

/-- The words of a well-formed command are read as it: each check of R98 passes on the fields the encoder wrote, and
each field reads as the operand it holds (R95, R97). -/
theorem decodeWords_of_encode (hwf : i.wellFormed = true) (hi : encode i = [w0, w1, w2].take i.opcode.format.words) :
    decodeWords w0 w1 w2 = .ok i := by
  cases i <;> cases hi <;> simp only [Instr.wellFormed, Bool.and_eq_true] at hwf <;>
    simp only [decodeWords_word0, decodeOperands, withMode_word0, withoutMode_word0, immWithin_word0, immBits_word0,
    toNat_lt_two_pow_zero, toNat_setWidth_lt, immBit_lt, loHalf_pairWord, hiHalf_pairWord, loHalf_append, hiHalf_append,
    sext16_field16, hwf, getLsbD_zero_immBit, extractLsb'_zero_setWidth, Nat.reduceLeDiff]
  case changeDmd w h => rw [BitVec.extractLsb'_append_eq_left, BitVec.extractLsb'_append_eq_right]
  case drawCircle cx cy r m => rfl

theorem opBits_of_encode_take (hi : encode i = [w0, w1, w2].take (packetWords w0)) : opBits w0 = i.opcode.byte := by
  obtain ⟨v0, vs, hshape, hop, -⟩ := encode_shape i
  obtain ⟨n, hn⟩ := Nat.exists_eq_add_of_le' (packetWords_bounds w0).1
  rw [hshape, hn, List.take_succ_cons] at hi
  obtain ⟨rfl, -⟩ := List.cons.inj hi
  exact hop

/-- The decoder reads a command exactly from the words of that command, if it is well-formed (R95, R97). -/
theorem decodeWords_ok_iff_encode : decodeWords w0 w1 w2 = .ok i ↔
    i.wellFormed = true ∧ encode i = [w0, w1, w2].take (packetWords w0) := by
  constructor
  · intro h
    obtain ⟨op, hop, hrsv, h⟩ := decodeWords_ok.1 h
    rw [packetWords_of_opBits hop]
    exact encode_of_decodeOperands (word0_fields hop hrsv) h
  · rintro ⟨hwf, hi⟩
    rw [packetWords_of_opBits (opBits_of_encode_take hi)] at hi
    exact decodeWords_of_encode hwf hi

/-! ### Packets on the port -/

theorem decodePacket_cons_eq_packet {ws rest : List Word} : decodePacket (w0 :: ws) = .packet i rest ↔
    packetWords w0 ≤ ws.length + 1 ∧ decodeWords w0 (ws.getD 0 0) (ws.getD 1 0) = .ok i ∧
      rest = ws.drop (packetWords w0 - 1) := by
  rw [decodePacket]
  by_cases hshort : ws.length + 1 < packetWords w0
  · simp [if_pos hshort, Nat.not_le.2 hshort]
  · rw [if_neg hshort]
    cases decodeWords w0 (ws.getD 0 0) (ws.getD 1 0) <;> simp [Nat.not_lt.1 hshort, eq_comm]

/-- The words the decoder looks at are the packet's own, when the packet is complete. -/
theorem take_getD_eq_take {ws : List Word} {n : Nat} (h3 : n ≤ 3) (hlen : n ≤ ws.length + 1) :
    [w0, ws.getD 0 0, ws.getD 1 0].take n = (w0 :: ws).take n := by
  match ws with
  | [] =>
    have hn : n ≤ 1 := hlen
    interval_cases n <;> rfl
  | [_] =>
    have hn : n ≤ 2 := hlen
    interval_cases n <;> rfl
  | _ :: _ :: _ => interval_cases n <;> rfl

/-- A legal packet stands at the head of the stream exactly when the words of its command do (R90, R95, R97, R99). -/
theorem decodePacket_eq_packet {ws rest : List Word} :
    decodePacket ws = .packet i rest ↔ i.wellFormed = true ∧ ws = encode i ++ rest := by
  obtain ⟨v0, vs, hshape, -, hlen⟩ := encode_shape i
  cases ws with
  | nil => simp [decodePacket, hshape]
  | cons w0 ws =>
    obtain ⟨hpos, h3⟩ := packetWords_bounds w0
    rw [decodePacket_cons_eq_packet, decodeWords_ok_iff_encode]
    have hdrop : ws.drop (packetWords w0 - 1) = (w0 :: ws).drop (packetWords w0) := by
      rw [List.drop_cons hpos]
    constructor
    · rintro ⟨hfull, ⟨hwf, hi⟩, rfl⟩
      rw [hi, take_getD_eq_take h3 hfull, hdrop, List.take_append_drop]
      exact ⟨hwf, rfl⟩
    · rintro ⟨hwf, hws⟩
      have hw0 : w0 = v0 := by
        rw [hshape] at hws
        exact (List.cons.inj hws).1
      have hcount : packetWords w0 = (encode i).length := by
        rw [hshape, hw0, ← hlen, List.length_cons]
      have hfull : packetWords w0 ≤ ws.length + 1 := by
        rw [← List.length_cons (a := w0), hws, List.length_append, hcount]
        omega
      refine ⟨hfull, ⟨hwf, ?_⟩, ?_⟩
      · rw [take_getD_eq_take h3 hfull, hws, hcount, List.take_left]
      · rw [hdrop, hws, hcount, List.drop_left]

end

/-- Settles O1: the words of the command stand at the head of the stream. -/
theorem decodeReadsEncodedCommand : Obligations.DecodeReadsEncodedCommand :=
  fun _ _ hwf => decodePacket_eq_packet.2 ⟨hwf, rfl⟩

/-- Settles O2: the converse direction of the same characterisation. -/
theorem legalPacketIsAnEncoding : Obligations.LegalPacketIsAnEncoding :=
  fun _ _ _ h => decodePacket_eq_packet.1 h

/-! ### The table of R97 -/

/-- Whether the command takes a mode (R97, R98 (c), (d)). -/
def takesMode : Opcode → Bool
  | .writePixel | .drawLine | .drawCircle | .drawBox | .drawFilledBox | .drawChar | .drawString => true
  | .clearScreen | .changeDmd | .drawTestPattern | .selectFont | .charWidth | .drawMarquee | .stepMarquee
  | .stepSplitMarquee3 | .scan | .setBrightness => false

/-- How many low bits of `IMM` the command uses; the others must be 0 (R97, R98 (e)). -/
def immWidth : Opcode → Nat
  | .drawLine | .drawCircle | .drawBox | .drawFilledBox | .selectFont | .stepMarquee | .scan => 0
  | .writePixel | .clearScreen => 1
  | .drawTestPattern => 2
  | .charWidth | .drawChar | .setBrightness => 8
  | .changeDmd | .drawString | .drawMarquee | .stepSplitMarquee3 => 16

/-- The row of an opcode: its mask keeps every bit of word 0 that the command does not use as an operand. -/
def tableRow (op : Opcode) : OpcodeRow where
  op := op
  mask := BitVec.allOnes 8 ++ (BitVec.allOnes 5 ++
    ((if takesMode op then 0 else BitVec.allOnes 3) ++ BitVec.allOnes 16 <<< immWidth op))
  pattern := word0 op 0 0
  takesMode := takesMode op

theorem opcodeTable_eq_map : opcodeTable = allOpcodes.map tableRow := by decide

theorem mem_allOpcodes (op : Opcode) : op ∈ allOpcodes := by cases op <;> decide

theorem append_inj_iff {m n : Nat} {a c : BitVec m} {b d : BitVec n} : a ++ b = c ++ d ↔ a = c ∧ b = d := by
  refine ⟨fun h => ⟨?_, ?_⟩, fun ⟨ha, hb⟩ => ha ▸ hb ▸ rfl⟩
  · rw [← BitVec.extractLsb'_append_eq_left (a := a) (b := b), h, BitVec.extractLsb'_append_eq_left]
  · rw [← BitVec.extractLsb'_append_eq_right (a := a) (b := b), h, BitVec.extractLsb'_append_eq_right]

theorem append_and_eq_append_iff {m n : Nat} {a p c : BitVec m} {b q d : BitVec n} :
    (a ++ b) &&& (p ++ q) = c ++ d ↔ a &&& p = c ∧ b &&& q = d := by
  rw [BitVec.and_append, append_inj_iff]

/-- A mask of high bits tests that a field is small. -/
theorem and_highBits_eq_zero {v : BitVec 16} {n : Nat} : v &&& BitVec.allOnes 16 <<< n = 0 ↔ v.toNat < 2 ^ n := by
  have hle : v.toNat / 2 ^ n * 2 ^ n < 2 ^ 16 := (Nat.div_mul_le_self _ _).trans_lt v.isLt
  rw [← BitVec.shiftLeft_ushiftRight, ← BitVec.toNat_inj, BitVec.toNat_shiftLeft, BitVec.toNat_ushiftRight,
    Nat.shiftLeft_eq, Nat.shiftRight_eq_div_pow, Nat.mod_eq_of_lt hle]
  simp

/-- What the mask and pattern of a row ask of the fields of word 0 (R91, R97). -/
theorem and_mask_eq_pattern_iff {op : Opcode} {w : Word} : w &&& (tableRow op).mask = (tableRow op).pattern ↔
    opBits w = op.byte ∧ rsvBits w = 0 ∧ (takesMode op = false → modeBits w = 0) ∧
      (immBits w).toNat < 2 ^ immWidth op := by
  have hmode : modeBits w &&& (if takesMode op then 0 else BitVec.allOnes 3) = 0 ↔
      (takesMode op = false → modeBits w = 0) := by
    cases takesMode op with
    | false => simp only [Bool.false_eq_true, if_false, BitVec.and_allOnes, forall_const]
    | true => simp
  have hfields : w &&& (tableRow op).mask = (opBits w ++ (rsvBits w ++ (modeBits w ++ immBits w))) &&&
      (tableRow op).mask := by rw [append_fields]
  rw [hfields, ← and_highBits_eq_zero]
  refine append_and_eq_append_iff.trans (and_congr (by rw [BitVec.and_allOnes]) ?_)
  refine append_and_eq_append_iff.trans (and_congr (by rw [BitVec.and_allOnes]; rfl) ?_)
  exact append_and_eq_append_iff.trans (and_congr hmode Iff.rfl)

section
variable {w0 w1 w2 : Word} {i : Instr}

theorem exists_eq_code_iff {c : BitVec 3} : (∃ m : Mode, c = m.code) ↔ c.toNat ≤ 4 := by
  constructor
  · rintro ⟨m, rfl⟩
    cases m <;> decide
  · intro h
    obtain ⟨n, hn⟩ : ∃ n, c.toNat = n := ⟨_, rfl⟩
    have hc : c = BitVec.ofNat 3 n := BitVec.eq_of_toNat_eq (by simp [← hn])
    rw [hn] at h
    interval_cases n
    exacts [⟨.normal, hc⟩, ⟨.inverse, hc⟩, ⟨.toggle, hc⟩, ⟨.or, hc⟩, ⟨.nor, hc⟩]

/-- With its opcode and `RSV` right, a packet is legal when it passes the checks of R98 (c) to (f). -/
theorem exists_decodeOperands_ok_iff {op : Opcode} : (∃ i, decodeOperands op w0 w1 w2 = .ok i) ↔
    (takesMode op = true → (modeBits w0).toNat ≤ 4) ∧ (takesMode op = false → modeBits w0 = 0) ∧
      (immBits w0).toNat < 2 ^ immWidth op ∧ (op = .drawCircle → hiHalf w2 = 0) := by
  have himm : (immBits w0).toNat < 65536 := (immBits w0).isLt
  rw [← exists_eq_code_iff]
  cases op
  case drawCircle =>
    by_cases hhi : hiHalf w2 = 0#16 <;>
      simp [decodeOperands, withMode_ok, immWithin_ok, takesMode, immWidth, hhi]
  all_goals simp [decodeOperands, withMode_ok, withoutMode_ok, immWithin_ok, takesMode, immWidth, himm]

/-- A packet is legal exactly when a row selects it. -/
theorem exists_decodeWords_ok_iff : (∃ i, decodeWords w0 w1 w2 = .ok i) ↔ ∃ op, (tableRow op).selects w0 w2 := by
  simp only [decodeWords_ok, OpcodeRow.selects, and_mask_eq_pattern_iff]
  rw [exists_comm]
  refine exists_congr fun op => ?_
  rw [exists_and_left, exists_and_left, exists_decodeOperands_ok_iff]
  simp only [tableRow]
  tauto

theorem row_selects_of_decodeWords (h : decodeWords w0 w1 w2 = .ok i) : (tableRow i.opcode).selects w0 w2 := by
  obtain ⟨op, hrow⟩ := exists_decodeWords_ok_iff.1 ⟨i, h⟩
  obtain ⟨hop, -⟩ := and_mask_eq_pattern_iff.1 hrow.1
  have hcmd : opBits w0 = i.opcode.byte := opBits_of_encode_take (decodeWords_ok_iff_encode.1 h).2
  obtain rfl : op = i.opcode := Option.some.inj ((ofByte_eq_some.2 hop).symm.trans (ofByte_eq_some.2 hcmd))
  exact hrow

end

/-- Settles O3: the rows are those of the seventeen opcodes. -/
theorem tableRowsDecideLegality : Obligations.TableRowsDecideLegality := by
  intro w0 w1 w2
  rw [opcodeTable_eq_map]
  constructor
  · intro i h
    exact ⟨_, List.mem_map_of_mem (mem_allOpcodes i.opcode), rfl, row_selects_of_decodeWords h⟩
  · rintro ⟨r, hr, hsel⟩
    obtain ⟨op, -, rfl⟩ := List.mem_map.1 hr
    exact exists_decodeWords_ok_iff.2 ⟨op, hsel⟩

/-- Settles O4, by running the decoder on the seven lists of words. -/
theorem workedEncodingsDecode : Obligations.WorkedEncodingsDecode := by
  unfold Obligations.WorkedEncodingsDecode
  decide

/-! ### Illegal packets (R98, R99) -/

section
variable {s : State}

theorem decodePacket_illegal {w0 : Word} {ws : List Word} (hfull : packetWords w0 ≤ ws.length + 1)
    (hbad : ∀ i, decodeWords w0 (ws.getD 0 0) (ws.getD 1 0) ≠ .ok i) :
    ∃ why, decodePacket (w0 :: ws) = .illegal why (ws.drop (packetWords w0 - 1)) := by
  rw [decodePacket, if_neg (Nat.not_lt.2 hfull)]
  cases hdec : decodeWords w0 (ws.getD 0 0) (ws.getD 1 0) with
  | error why => exact ⟨why, rfl⟩
  | ok i => exact absurd hdec (hbad i)

variable {why : Illegal} {rest : List Word}

theorem step_illegal (hs : s.ready) (hdec : decodePacket s.env.port = .illegal why rest) :
    step s = .next ((s.withPort rest).refuse .ill) := by
  obtain ⟨hsched, hreset, hdraw, hport⟩ := hs
  simp [step, hsched, hreset, hdraw, hport, fetchPacket, hdec]

/-- The state in which the refusal of an illegal packet is left to the draw engine. -/
def refusing (s : State) : State := { s with draw := some { cmd := none, rest := [.reg (.flag .ill)] } }

theorem acceptPacket_illegal (hs : s.ready) (hdec : decodePacket s.env.port = .illegal why rest) :
    acceptPacket s = .ok (refusing (s.withPort rest)) := by
  obtain ⟨-, -, hdraw, hport⟩ := hs
  simp [acceptPacket, State.portHeld, hdraw, hport, hdec, refusing]

theorem drawAdvance_refusing (hdraw : s.draw = none) : drawAdvance (refusing s) = .ok (s.refuse .ill) := by
  simp [drawAdvance, refusing, stepMicro, applyReg, progressOf, State.refuse, ← hdraw]

end

/-- Settles O5: executed whole the packet is refused at once, accepted it leaves one register write. -/
theorem illegalPacketSetsOnlyIll : Obligations.IllegalPacketSetsOnlyIll := by
  intro s w0 ws hs hport hfull hbad
  obtain ⟨why, hdec⟩ := decodePacket_illegal hfull hbad
  rw [← hport] at hdec
  obtain ⟨-, -, hdraw, -⟩ := id hs
  exact ⟨step_illegal hs hdec, _, acceptPacket_illegal hs hdec, rfl, rfl, drawAdvance_refusing hdraw⟩

end Sys2Proof.Proofs
end

section
/-! PROOFS. A scan from the scan port (44_scan.md R231) starts at once; its micro-steps reach what SCAN reaches. -/

namespace Sys2Proof.Proofs

open Sys2Proof.Machine Sys2Proof.Laws

section
variable {s t : State}

/-- The scan engine only adds to the trace (R240). -/
theorem trace_length_le_of_runScanMicro {m : ScanMicro} (h : runScanMicro m s = .ok t) :
    s.trace.length ≤ t.trace.length := by
  cases m with
  | emit e => cases h; simp
  | shift a =>
    simp only [runScanMicro] at h
    split at h
    · cases h; simp
    · cases h
  | _ => cases h; exact le_rfl

theorem trace_length_le_of_runScanMicros {ms : List ScanMicro} (h : runScanMicros ms s = .ok t) :
    s.trace.length ≤ t.trace.length := by
  induction ms generalizing s with
  | nil => cases h; exact le_rfl
  | cons m ms ih =>
    obtain ⟨u, hu, ht⟩ := runScanMicros_cons_ok.1 h
    exact (trace_length_le_of_runScanMicro hu).trans (ih ht)

/-- A scan that finds the bus free emits, first of all the level that disables the output (R234, R235). -/
theorem trace_ne_of_scan (hf : s.sticky.fault = false) (hb : s.env.busBusy = false)
    (h : runScanMicros s.scanOps s = .ok t) : t.trace ≠ s.trace := by
  obtain ⟨ms, hms⟩ : ∃ ms, s.scanOps = .emit (.oe false) :: ms := ⟨_, by rw [State.scanOps, hf, hb]; rfl⟩
  rw [hms, runScanMicros_cons_ok] at h
  obtain ⟨u, hu, ht⟩ := h
  obtain rfl := Except.ok.inj hu
  have hlen := trace_length_le_of_runScanMicros ht
  rw [emit_trace, List.length_append, List.length_singleton] at hlen
  intro heq
  rw [heq] at hlen
  omega

theorem scanOps_ne_nil (s : State) : s.scanOps ≠ [] := by
  unfold State.scanOps scanProgram
  split <;> simp

/-- The operations of a scan on an idle engine are performed by its micro-steps, whichever port started them. -/
theorem scanSteps_of_runScanMicros {ops : List ScanMicro} (p : Bool) (hs : s.scan = []) (hp : s.scanOnPort = false)
    (h : runScanMicros ops s = .ok t) : scanSteps (ops.length + 1) (setScan ops p s) = .ok t := by
  refine scanSteps_of_finishScan (finishScan_ok.2 ⟨_, runScanMicros_setScan ops p h, ?_⟩)
  rw [runScanMicros_cases h]
  simp [setScan, hs, hp]

end

/-- Settles O59: the request starts the operations that SCAN performs whole. -/
theorem scanRequestReachesScanResult : Obligations.ScanRequestReachesScanResult := by
  intro s hf hreset hb hs hp hr
  obtain ⟨t, ht⟩ := exec_scan_completes hs
  have hrun : runScanMicros s.scanOps s = .ok t := toOutcome_next.1 (by rw [← exec_scan_idle hs hp, ht])
  have hstart : applyInput .scanRequest s = .ok (setScan s.scanOps false s) := by
    simp [applyInput, scanRequest, hf, hreset, hs, hr, setScan, hp]
  have hbusy : (setScan s.scanOps false s).sBusy = true := by
    simp [State.sBusy, setScan, scanOps_ne_nil]
  have hidle : t.scan = [] := by rw [runScanMicros_cases hrun, hs]
  have hframe : setScan s.scanOps false s = { s with scan := s.scanOps } := by rw [setScan, ← hp]
  exact ⟨_, t, _, hstart, hframe, hbusy, ht, trace_ne_of_scan hf hb hrun, hidle,
    scanSteps_of_runScanMicros false hs hp hrun⟩

end Sys2Proof.Proofs
end

section
/-! PROOFS. The textual form (30_encoding.md R102): the written operands of a command assemble to it, and its written
line is read back. -/

namespace Sys2Proof.Proofs

open Sys2Proof.Machine Sys2Proof.Laws

/-! ### Operands -/

theorem asmField_toNat {n : Nat} (v : BitVec n) : asmField n v.toNat = some v := by
  have hlt : (v.toNat : Int) < 2 ^ n := mod_cast v.isLt
  rw [asmField, if_pos ⟨Int.natCast_nonneg _, hlt⟩, BitVec.ofInt_natCast, BitVec.ofNat_toNat, BitVec.setWidth_eq]

theorem asmBit_toNat (b : Bool) : asmBit b.toNat = some b := by cases b <;> rfl

theorem asmAddr_toNat (a : Word) : asmAddr a.toNat = some a := by
  rw [asmAddr, if_pos a.isLt, BitVec.ofNat_toNat, BitVec.setWidth_eq]

theorem assembleOperands_asmOperands (i : Instr) : assembleOperands i.opcode (asmOperands i) = some i := by
  cases i <;> simp [asmOperands, Instr.opcode, assembleOperands, asmField_toNat, asmBit_toNat, asmAddr_toNat]

theorem assemble_asmOperands {i : Instr} (h : i.wellFormed = true) : assemble i.opcode (asmOperands i) = some i := by
  rw [assemble, assembleOperands_asmOperands, Option.filter_some, if_pos h]

theorem forall_mem_bind {α β : Type} {o : Option α} {f : α → Option β} {p : β → Prop} :
    (∀ b ∈ o.bind f, p b) ↔ ∀ a ∈ o, ∀ b ∈ f a, p b := by
  cases o <;> simp

theorem opcode_of_mem_assembleOperands (op : Opcode) (ops : List AsmOperand) :
    ∀ i ∈ assembleOperands op ops, i.opcode = op := by
  unfold assembleOperands
  split <;> simp only [Option.forall_mem_map, forall_mem_bind, Option.mem_some, forall_eq', Option.not_mem_none,
    false_imp_iff, Instr.opcode, implies_true]

/-- Settles O7: no operand is lost on the way, and `assemble` keeps only well-formed commands. -/
theorem assembleReadsWrittenOperands : Obligations.AssembleReadsWrittenOperands := by
  refine ⟨fun i h => assemble_asmOperands h, fun op ops i h => ?_⟩
  obtain ⟨hi, hwf⟩ := Option.filter_eq_some_iff.1 h
  exact ⟨hwf, opcode_of_mem_assembleOperands op ops i hi⟩

/-! ### Numbers -/

theorem isDigit_iff {c : Char} : c.isDigit = true ↔ 48 ≤ c.toNat ∧ c.toNat ≤ 57 := by
  simp [Char.isDigit, UInt32.le_iff_toNat_le]

theorem digitValue_of_isDigit {c : Char} (h : c.isDigit = true) : digitValue 10 c = some (c.toNat - 48) := by
  have hc := isDigit_iff.1 h
  rw [digitValue, if_pos hc, if_pos (by omega)]

theorem digitsValue_of_isDigit {cs : List Char} (h : ∀ c ∈ cs, c.isDigit = true) (acc : Nat) :
    digitsValue 10 acc cs = some (Nat.ofDigitChars 10 cs acc) := by
  induction cs generalizing acc with
  | nil => rfl
  | cons c cs ih =>
    rw [List.forall_mem_cons] at h
    simp only [digitsValue, digitValue_of_isDigit h.1, ih h.2]
    rfl

theorem isDigit_of_mem_toDigits {n : Nat} : ∀ c ∈ Nat.toDigits 10 n, c.isDigit = true :=
  fun _ => Nat.isDigit_of_mem_toDigits (by omega) (by omega)

theorem unsignedNumber_toDigits (n : Nat) : unsignedNumber (Nat.toDigits 10 n) = some n := by
  have hdigits := isDigit_of_mem_toDigits (n := n)
  have hvalue := digitsValue_of_isDigit hdigits 0
  rw [Nat.ofDigitChars_ten_toDigits] at hvalue
  unfold unsignedNumber
  split
  · next heq =>
    rw [heq] at hdigits
    exact absurd (hdigits 'x' (by simp)) (by decide)
  · next heq => rw [← heq, hvalue]
  · next heq => exact absurd heq Nat.toDigits_ne_nil

/-! ### Written operands are read back -/

theorem modeText_head (m : Mode) : ∃ c cs, modeText m = c :: cs ∧ 65 ≤ c.toNat := by
  cases m <;> exact ⟨_, _, rfl, by decide⟩

theorem modeName_modeText (m : Mode) : modeName (modeText m) = some m := by
  cases m <;> decide

/-- A text that begins with a character before the capitals is no mode name. -/
theorem modeName_of_head_lt {c : Char} (hc : c.toNat < 65) (cs : List Char) : modeName (c :: cs) = none := by
  refine List.find?_eq_none.2 fun m _ => ?_
  obtain ⟨d, ds, hm, hd⟩ := modeText_head m
  have hne : d ≠ c := by
    rintro rfl
    omega
  simp [hm, hne]

theorem parseOperand_modeText (m : Mode) : parseOperand (modeText m) = some (.mode m) := by
  simp only [parseOperand, modeName_modeText]

theorem parseOperand_addr (a : Nat) : parseOperand ('@' :: Nat.toDigits 10 a) = some (.addr a) := by
  simp [parseOperand, modeName_of_head_lt, unsignedNumber_toDigits]

theorem parseOperand_neg (n : Nat) : parseOperand ('-' :: Nat.toDigits 10 n) = some (.num (-(n : Int))) := by
  simp [parseOperand, modeName_of_head_lt, unsignedNumber_toDigits]

theorem parseOperand_nonneg (n : Nat) : parseOperand (Nat.toDigits 10 n) = some (.num n) := by
  have hdigits := isDigit_of_mem_toDigits (n := n)
  have hmode : modeName (Nat.toDigits 10 n) = none := by
    obtain ⟨c, cs, hcs⟩ := List.exists_cons_of_ne_nil (Nat.toDigits_ne_nil (n := n) (b := 10))
    rw [hcs] at hdigits ⊢
    exact modeName_of_head_lt (by have := isDigit_iff.1 (hdigits c (by simp)); omega) cs
  simp only [parseOperand, hmode]
  split
  · next heq =>
    rw [heq] at hdigits
    exact absurd (hdigits '@' (by simp)) (by decide)
  · next heq =>
    rw [heq] at hdigits
    exact absurd (hdigits '-' (by simp)) (by decide)
  · next q c r heq =>
    have hq : q ≠ quoteChar := by
      rintro rfl
      rw [heq] at hdigits
      exact absurd (hdigits quoteChar (by simp)) (by decide)
    simp [← heq, unsignedNumber_toDigits, hq]
  · simp [unsignedNumber_toDigits]

theorem parseOperand_writeInt (v : Int) : parseOperand (writeInt v) = some (.num v) := by
  unfold writeInt
  split
  · rw [parseOperand_neg, show -(v.natAbs : Int) = v by omega]
  · rw [parseOperand_nonneg, show (v.toNat : Int) = v by omega]

theorem parseOperand_writeOperand (o : AsmOperand) : parseOperand (writeOperand o) = some o := by
  cases o with
  | num v => exact parseOperand_writeInt v
  | addr a => exact parseOperand_addr a
  | mode m => exact parseOperand_modeText m

theorem mapM_parseOperand_writeOperand (ops : List AsmOperand) :
    (ops.map writeOperand).mapM parseOperand = some ops := by
  induction ops with
  | nil => rfl
  | cons o ops ih => simp [parseOperand_writeOperand, ih]

/-! ### Blanks around a text -/

/-- A text that neither begins nor ends with a blank. -/
def Trimmed (cs : List Char) : Prop :=
  ∃ h : cs ≠ [], isBlank (cs.head h) = false ∧ isBlank (cs.getLast h) = false

theorem dropWhile_isBlank_append {bs cs : List Char} (hbs : ∀ c ∈ bs, isBlank c = true) (hcs : cs ≠ [])
    (hhead : isBlank (cs.head hcs) = false) : (bs ++ cs).dropWhile isBlank = cs := by
  obtain ⟨c, cs, rfl⟩ := List.exists_cons_of_ne_nil hcs
  rw [List.dropWhile_append_of_pos hbs]
  exact List.dropWhile_cons_of_neg (by simpa using hhead)

theorem trimBlanks_append {bs cs ds : List Char} (hbs : ∀ c ∈ bs, isBlank c = true)
    (hds : ∀ c ∈ ds, isBlank c = true) (h : Trimmed cs) : trimBlanks (bs ++ cs ++ ds) = cs := by
  obtain ⟨hne, hhead, hlast⟩ := h
  have hfront : (bs ++ (cs ++ ds)).dropWhile isBlank = cs ++ ds :=
    dropWhile_isBlank_append hbs (by simp [hne]) (by rwa [List.head_append_of_ne_nil])
  have hback : (ds.reverse ++ cs.reverse).dropWhile isBlank = cs.reverse :=
    dropWhile_isBlank_append (by simpa using hds) (by simpa using hne) (by rwa [List.head_reverse])
  rw [trimBlanks, List.append_assoc, hfront, List.reverse_append, hback, List.reverse_reverse]

theorem forall_mem_blank : ∀ c ∈ [' '], isBlank c = true := List.forall_mem_singleton.2 rfl

section
variable {cs : List Char}

theorem Trimmed.trimBlanks (h : Trimmed cs) : trimBlanks cs = cs := by
  simpa using trimBlanks_append (List.forall_mem_nil _) (List.forall_mem_nil _) h

theorem Trimmed.trimBlanks_blank_cons (h : Trimmed cs) : Machine.trimBlanks (' ' :: cs) = cs := by
  simpa using trimBlanks_append forall_mem_blank (List.forall_mem_nil _) h

theorem Trimmed.trimBlanks_append_blank (h : Trimmed cs) : Machine.trimBlanks (cs ++ [' ']) = cs := by
  simpa using trimBlanks_append (List.forall_mem_nil _) forall_mem_blank h

end

theorem Trimmed.append {cs ds : List Char} (hcs : Trimmed cs) (hds : Trimmed ds) (bs : List Char) :
    Trimmed (cs ++ bs ++ ds) := by
  obtain ⟨hne, hhead, -⟩ := hcs
  obtain ⟨hne', -, hlast⟩ := hds
  refine ⟨by simp [hne], ?_, ?_⟩
  · simpa [List.head_append_of_ne_nil, hne] using hhead
  · rwa [List.getLast_append_of_ne_nil]

/-! ### The parts of a line -/

/-- A character that does not end a part of a line (R102). -/
def tokenChar (c : Char) : Bool := !isBlank c && c != ',' && c != ';'

theorem tokenChar_iff {c : Char} : tokenChar c = true ↔ isBlank c = false ∧ c ≠ ',' ∧ c ≠ ';' := by
  simp [tokenChar, and_assoc]

/-- A text that can stand between the separators of a line (R102). -/
def Token (cs : List Char) : Prop := cs ≠ [] ∧ cs.all tokenChar = true

theorem Token.of_mem {cs : List Char} (h : Token cs) {c : Char} (hc : c ∈ cs) :
    isBlank c = false ∧ c ≠ ',' ∧ c ≠ ';' :=
  tokenChar_iff.1 (List.all_eq_true.1 h.2 c hc)

theorem Token.trimmed {cs : List Char} (h : Token cs) : Trimmed cs :=
  ⟨h.1, (h.of_mem (List.head_mem h.1)).1, (h.of_mem (List.getLast_mem h.1)).1⟩

theorem Token.cons {c : Char} {cs : List Char} (hc : tokenChar c = true) (h : Token cs) : Token (c :: cs) :=
  ⟨List.cons_ne_nil _ _, by rw [List.all_cons, hc, h.2, Bool.and_self]⟩

theorem token_mnemonic (op : Opcode) : Token (mnemonicOf op).toList := by
  cases op <;> exact ⟨by decide, by decide⟩

theorem token_modeText (m : Mode) : Token (modeText m) := by
  cases m <;> exact ⟨by decide, by decide⟩

theorem tokenChar_of_isDigit {c : Char} (h : c.isDigit = true) : tokenChar c = true := by
  have hc := isDigit_iff.1 h
  refine tokenChar_iff.2 ⟨?_, ?_, ?_⟩
  · simp only [isBlank, Bool.or_eq_false_iff, beq_eq_false_iff_ne]
    omega
  · rintro rfl
    exact absurd h (by decide)
  · rintro rfl
    exact absurd h (by decide)

theorem token_toDigits (n : Nat) : Token (Nat.toDigits 10 n) :=
  ⟨Nat.toDigits_ne_nil, List.all_eq_true.2 fun c hc => tokenChar_of_isDigit (isDigit_of_mem_toDigits c hc)⟩

theorem token_writeInt (v : Int) : Token (writeInt v) := by
  unfold writeInt
  split
  · exact (token_toDigits _).cons (by decide)
  · exact token_toDigits _

theorem token_writeOperand (o : AsmOperand) : Token (writeOperand o) := by
  cases o with
  | num v => exact token_writeInt v
  | addr a => exact (token_toDigits a).cons (by decide)
  | mode m => exact token_modeText m

/-- A text without a comment and without blanks around it: what is left of a line (R102). -/
def IsCode (cs : List Char) : Prop := Trimmed cs ∧ ';' ∉ cs

theorem Token.isCode {cs : List Char} (h : Token cs) : IsCode cs := ⟨h.trimmed, fun hmem => (h.of_mem hmem).2.2 rfl⟩

theorem IsCode.append {cs bs ds : List Char} (hcs : IsCode cs) (hbs : ';' ∉ bs) (hds : IsCode ds) :
    IsCode (cs ++ bs ++ ds) :=
  ⟨hcs.1.append hds.1 bs, by simp [hcs.2, hbs, hds.2]⟩

theorem takeWhile_comment {cs : List Char} (h : ';' ∉ cs) (comment : List Char) :
    (cs ++ [' ', ';'] ++ comment).takeWhile (fun c => c != ';') = cs ++ [' '] := by
  have hcs : ∀ c ∈ cs ++ [' '], (c != ';') = true := by
    intro c hc
    rw [bne_iff_ne]
    rintro rfl
    simp [h] at hc
  rw [show cs ++ [' ', ';'] ++ comment = cs ++ [' '] ++ ';' :: comment by simp, List.takeWhile_append_of_pos hcs]
  simp

/-- A comment and the blank before it are dropped. -/
theorem IsCode.trimBlanks_comment {cs : List Char} (h : IsCode cs) (comment : List Char) :
    trimBlanks ((cs ++ [' ', ';'] ++ comment).takeWhile fun c => c != ';') = cs := by
  rw [takeWhile_comment h.2, h.1.trimBlanks_append_blank]

theorem IsCode.trimBlanks_self {cs : List Char} (h : IsCode cs) :
    trimBlanks (cs.takeWhile fun c => c != ';') = cs := by
  have hall : ∀ c ∈ cs, (c != ';') = true := by
    intro c hc
    rw [bne_iff_ne]
    rintro rfl
    exact h.2 hc
  rw [List.takeWhile_eq_self_iff.2 hall, h.1.trimBlanks]

/-! ### Operands separated by commas -/

/-- A comma followed by a blank separates like a comma, with the blank before the next operand. -/
theorem intercalate_comma_blank (t : List Char) (ts : List (List Char)) :
    [',', ' '].intercalate (t :: ts) = [','].intercalate (t :: ts.map (' ' :: ·)) := by
  induction ts generalizing t with
  | nil => simp
  | cons u us ih =>
    rw [List.map_cons, List.intercalate_cons_of_ne_nil (List.cons_ne_nil _ _), ih,
      List.intercalate_cons_of_ne_nil (List.cons_ne_nil _ _), List.intercalate_cons_cons_left]
    simp

theorem isCode_intercalate {t : List Char} {ts : List (List Char)} (ht : Token t) (hts : ∀ u ∈ ts, Token u) :
    IsCode ([',', ' '].intercalate (t :: ts)) := by
  induction ts generalizing t with
  | nil => simpa using ht.isCode
  | cons u us ih =>
    rw [List.forall_mem_cons] at hts
    rw [List.intercalate_cons_of_ne_nil (List.cons_ne_nil _ _)]
    exact ht.isCode.append (by decide) (ih hts.1 hts.2)

theorem map_trimBlanks_splitOn {t : List Char} {ts : List (List Char)} (ht : Token t) (hts : ∀ u ∈ ts, Token u) :
    (([',', ' '].intercalate (t :: ts)).splitOn ',').map trimBlanks = t :: ts := by
  have hcomma {u : List Char} (hu : Token u) : ',' ∉ u := fun hmem => (hu.of_mem hmem).2.1 rfl
  have hpart : ∀ l ∈ t :: ts.map (' ' :: ·), ',' ∉ l := by
    rw [List.forall_mem_cons, List.forall_mem_map]
    exact ⟨hcomma ht, fun u hu => by simp [hcomma (hts u hu)]⟩
  have hblank : ∀ u ∈ ts, (trimBlanks ∘ (' ' :: ·)) u = id u :=
    fun u hu => (hts u hu).trimmed.trimBlanks_blank_cons
  rw [intercalate_comma_blank, List.splitOn_intercalate _ hpart (List.cons_ne_nil _ _), List.map_cons,
    ht.trimmed.trimBlanks, List.map_map, List.map_congr_left hblank, List.map_id]

/-! ### The line -/

theorem find_mnemonic (op : Opcode) :
    allOpcodes.find? (fun p => (mnemonicOf p).toList = (mnemonicOf op).toList) = some op := by
  cases op <;> decide

theorem mnemonic_ne_pseudo (op : Opcode) :
    (mnemonicOf op).toList ≠ "CLS".toList ∧ (mnemonicOf op).toList ≠ "SCANCYCLE".toList := by
  cases op <;> decide

/-- A line is read in three parts: the comment off, the mnemonic, the operands (R102). -/
theorem assembleLine_of_code {line code : List Char} {i : Instr} {ops : List AsmOperand} {tail : List Char}
    (hcode : trimBlanks (line.takeWhile fun c => c != ';') = code)
    (hname : code.takeWhile (fun c => !isBlank c) = (mnemonicOf i.opcode).toList)
    (htail : trimBlanks (code.dropWhile fun c => !isBlank c) = tail)
    (hops : (if tail.isEmpty then [] else (tail.splitOn ',').map trimBlanks) = ops.map writeOperand)
    (h : assemble i.opcode ops = some i) : assembleLine line = some [i] := by
  have hne : code.isEmpty = false := by
    obtain ⟨hmn, -⟩ := token_mnemonic i.opcode
    cases code with
    | nil => exact absurd hname.symm hmn
    | cons c cs => rfl
  obtain ⟨hcls, hcycle⟩ := mnemonic_ne_pseudo i.opcode
  simp only [assembleLine, hcode, hname, htail, hne, hcls, hcycle, hops, find_mnemonic,
    mapM_parseOperand_writeOperand, Bool.false_eq_true, false_and, if_false, Option.bind_eq_bind, Option.bind_some, h,
    Option.pure_def]

theorem writeLine_of_nil {i : Instr} (h : asmOperands i = []) : writeLine i = (mnemonicOf i.opcode).toList := by
  simp [writeLine, h]

theorem writeLine_of_cons {i : Instr} {o : AsmOperand} {os : List AsmOperand} (h : asmOperands i = o :: os) :
    writeLine i = (mnemonicOf i.opcode).toList ++ [' '] ++
      [',', ' '].intercalate (writeOperand o :: os.map writeOperand) := by
  simp [writeLine, h]

theorem token_of_mem_map_writeOperand (os : List AsmOperand) : ∀ u ∈ os.map writeOperand, Token u :=
  List.forall_mem_map.2 fun o _ => token_writeOperand o

theorem isCode_writeLine (i : Instr) : IsCode (writeLine i) := by
  cases h : asmOperands i with
  | nil => exact writeLine_of_nil h ▸ (token_mnemonic _).isCode
  | cons o os =>
    rw [writeLine_of_cons h]
    exact (token_mnemonic _).isCode.append (by decide)
      (isCode_intercalate (token_writeOperand o) (token_of_mem_map_writeOperand os))

/-- A mnemonic holds no blank. -/
theorem forall_mem_mnemonic (op : Opcode) : ∀ c ∈ (mnemonicOf op).toList, (!isBlank c) = true := fun c hc => by
  rw [((token_mnemonic op).of_mem hc).1, Bool.not_false]

theorem takeWhile_mnemonic (op : Opcode) (args : List Char) :
    ((mnemonicOf op).toList ++ [' '] ++ args).takeWhile (fun c => !isBlank c) = (mnemonicOf op).toList := by
  rw [List.append_assoc, List.takeWhile_append_of_pos (forall_mem_mnemonic op)]
  exact List.append_nil _

theorem dropWhile_mnemonic (op : Opcode) (args : List Char) :
    ((mnemonicOf op).toList ++ [' '] ++ args).dropWhile (fun c => !isBlank c) = ' ' :: args := by
  rw [List.append_assoc, List.dropWhile_append_of_pos (forall_mem_mnemonic op)]
  rfl

/-- A line whose code is the written line of a well-formed command is read as the command. -/
theorem assembleLine_of_writeLine {i : Instr} {line : List Char} (hwf : i.wellFormed = true)
    (hcode : trimBlanks (line.takeWhile fun c => c != ';') = writeLine i) : assembleLine line = some [i] := by
  have hops := assemble_asmOperands hwf
  cases h : asmOperands i with
  | nil =>
    rw [writeLine_of_nil h] at hcode
    rw [h] at hops
    exact assembleLine_of_code hcode (List.takeWhile_eq_self_iff.2 (forall_mem_mnemonic _))
      (congrArg trimBlanks (List.dropWhile_eq_nil_iff.2 (forall_mem_mnemonic _))) rfl hops
  | cons o os =>
    rw [writeLine_of_cons h] at hcode
    rw [h] at hops
    obtain ⟨hargs, -⟩ := isCode_intercalate (token_writeOperand o) (token_of_mem_map_writeOperand os)
    have htail := (congrArg trimBlanks (dropWhile_mnemonic i.opcode _)).trans hargs.trimBlanks_blank_cons
    refine assembleLine_of_code hcode (takeWhile_mnemonic _ _) htail ?_ hops
    obtain ⟨hne, -⟩ := hargs
    rw [if_neg (by simpa using hne)]
    exact map_trimBlanks_splitOn (token_writeOperand o) (token_of_mem_map_writeOperand os)

/-- Settles O56: with or without a comment the code of the line is the written line. -/
theorem writtenLineAssembles : Obligations.WrittenLineAssembles := fun i comment hwf =>
  ⟨assembleLine_of_writeLine hwf (isCode_writeLine i).trimBlanks_self,
    assembleLine_of_writeLine hwf ((isCode_writeLine i).trimBlanks_comment comment)⟩

end Sys2Proof.Proofs
end

section
/-! PROOFS. The graphics modes (40_pixelbuffer.md R122), and WRITEPIXEL (R120, R121, R123): what the pixels and the
bytes of the buffer hold after one `WritePixel`. -/

namespace Sys2Proof.Proofs

open Sys2Proof.Machine Sys2Proof.Laws

/-- Settles O9: every row of the table of R122 is a branch of `combine`. -/
theorem modeTable : Obligations.ModeTable :=
  ⟨rfl, fun e _ => ⟨rfl, rfl, (Bool.xor_true e).symm, rfl, rfl⟩⟩

/-! ### A bit of a byte -/

/-- The column of a pixel within its byte (R63). -/
theorem column_lt (x : Int) : x.toNat % 8 < 8 := Nat.mod_lt _ (by decide)

/-- The byte with the pixel's bit written has that bit (R120). -/
theorem bitOf_withBit_pixelMask_same (b : Byte) (x : Int) (n : Bool) :
    bitOf (withBit b (pixelMask x) n) (pixelMask x) = n :=
  bitOf_withBit_same b _ n (column_lt x)

/-- It has the bits of the pixels in the other columns as before (R120). -/
theorem bitOf_withBit_pixelMask_other (b : Byte) {x x' : Int} (n : Bool) (h : x.toNat % 8 ≠ x'.toNat % 8) :
    bitOf (withBit b (pixelMask x) n) (pixelMask x') = bitOf b (pixelMask x') :=
  bitOf_withBit_other b _ _ n (column_lt x) (column_lt x') h

/-! ### A pixel of the buffer -/

/-- The state with the bit of one pixel replaced: the store of `WritePixel` (R120). -/
def putPixel (s : State) (x y : Int) (n : Bool) : State :=
  s.putByte (s.geom.pixelByte x y) (withBit (s.byteAt (s.geom.pixelByte x y)) (pixelMask x) n)

section
variable (s : State) {x y x' y' : Int} (n : Bool)

@[simp] theorem putPixel_geom : (putPixel s x y n).geom = s.geom := rfl

/-- Replacing a pixel touches one byte (R120). -/
theorem byteAt_putPixel_other {a : Nat} (h : s.geom.pixelByte x y ≠ a) : (putPixel s x y n).byteAt a = s.byteAt a :=
  byteAt_putByte_other s _ a _ h

theorem getPixel_putPixel_same : (putPixel s x y n).getPixel x y = n := by
  rw [State.getPixel, putPixel_geom, putPixel, byteAt_putByte_same, bitOf_withBit_pixelMask_same]

/-- Two pixels of the display in the same column of the same byte are the same pixel (R62 to R65). -/
theorem eq_of_pixelByte_eq {g : Geometry} (hT : g.t.toNat = g.w.toNat * g.h.toNat) (h : g.inDisplay x y)
    (h' : g.inDisplay x' y') (hbyte : g.pixelByte x y = g.pixelByte x' y')
    (hcol : x.toNat % 8 = x'.toNat % 8) : (x, y) = (x', y') := by
  obtain ⟨i, j, rfl, rfl, hi, hj⟩ := exists_nat_of_inDisplay h
  obtain ⟨i', j', rfl, rfl, hi', hj'⟩ := exists_nat_of_inDisplay h'
  rw [Int.toNat_natCast, Int.toNat_natCast] at hcol
  have hpixel : (i, j) = (i', j') := by
    rw [← pixelAt_pixelByte hT hi hj, ← pixelAt_pixelByte hT hi' hj', hbyte, hcol]
  obtain ⟨rfl, rfl⟩ := Prod.mk.inj hpixel
  rfl

/-- Another pixel lies in another byte or in another column of the same byte. -/
theorem getPixel_putPixel_other (hT : s.geom.t.toNat = s.geom.w.toNat * s.geom.h.toNat) (h : s.geom.inDisplay x y)
    (h' : s.geom.inDisplay x' y') (hne : (x', y') ≠ (x, y)) :
    (putPixel s x y n).getPixel x' y' = s.getPixel x' y' := by
  simp only [State.getPixel, putPixel_geom]
  by_cases hbyte : s.geom.pixelByte x y = s.geom.pixelByte x' y'
  · have hcol : x.toNat % 8 ≠ x'.toNat % 8 := fun hcol => hne (eq_of_pixelByte_eq hT h h' hbyte hcol).symm
    rw [putPixel, ← hbyte, byteAt_putByte_same, bitOf_withBit_pixelMask_other _ n hcol]
  · rw [byteAt_putPixel_other s n hbyte]

end

/-! ### The command -/

/-- Outside the FAULT condition a command of the draw engine answers what its operations answer; CHANGEDMD when no
scan is in progress (R85, R266). -/
theorem exec_of_runMicros {i : Instr} {s t : State} (hi : i ≠ .scan) (hf : s.sticky.fault = false)
    (hidle : isReconfig i = true → s.scan = []) (h : runMicros (drawProgram i s) s = .ok t) :
    exec i s = .next t := by
  have hexec : exec i s = s.runCommand (drawProgram i s) := by
    cases i with
    | scan => exact absurd rfl hi
    | changeDmd w h => exact exec_eq_runCommand hi (hidle rfl)
    | _ => rfl
  rw [hexec, runCommand_live _ hf, h, toOutcome_ok]

/-- WRITEPIXEL is one `WritePixel` (R123). -/
theorem exec_writePixel_of_writePixel {s t : State} {x y : Int} {m : Mode} {v : Bool} (hf : s.sticky.fault = false)
    (h : s.writePixel x y m v = .ok t) : exec (.writePixel x y m v) s = .next t :=
  exec_of_runMicros (by simp) hf (by simp [isReconfig]) (runMicros_cons_ok.2 ⟨t, h, rfl⟩)

/-- Settles O10: the command is one `putPixel` with the combined bit. -/
theorem writePixelOnDisplay : Obligations.WritePixelOnDisplay := by
  intro s x y m v ⟨hf, _, _, hT, _⟩ hd
  have hwrite : s.writePixel x y m v = .ok (putPixel s x y (combine m (s.getPixel x y) v)) :=
    writePixel_on m v hd (pixelByte_lt_bufSize hT hd)
  exact ⟨_, exec_writePixel_of_writePixel hf hwrite, rfl, rfl, getPixel_putPixel_same s _,
    fun _ _ hd' hne => getPixel_putPixel_other s _ hT hd hd' hne,
    fun _ ha => byteAt_putPixel_other s _ ha.symm⟩

/-- Settles O11: `WritePixel` clips itself. -/
theorem writePixelOffDisplay : Obligations.WritePixelOffDisplay :=
  fun _ _ _ m v hf hd => exec_writePixel_of_writePixel hf (writePixel_off m v hd)

end Sys2Proof.Proofs
end

section
/-! PROOFS. CLEARSCREEN and CHANGEDMD (40_pixelbuffer.md R124 to R126): commands that rewrite every byte of the
buffer, one operation for each. -/

namespace Sys2Proof.Proofs

open Sys2Proof.Machine Sys2Proof.Laws

/-! ### Rewriting bytes one by one -/

/-- `t` is `s` with the bytes at the addresses of `as` rewritten as `b` says. -/
structure Rewritten (as : List Nat) (b : Nat → Byte) (s t : State) : Prop where
  frame : ∃ cells, t = { s with buf := { s.buf with cells := cells } }
  inside : ∀ a ∈ as, t.byteAt a = b a
  outside : ∀ a, a ∉ as → t.byteAt a = s.byteAt a

section
variable {as : List Nat} {b : Nat → Byte} {s t u : State}

theorem Rewritten.geom (h : Rewritten as b s t) : t.geom = s.geom := by
  obtain ⟨cells, rfl⟩ := h.frame
  rfl

theorem Rewritten.epoch (h : Rewritten as b s t) : t.buf.epoch = s.buf.epoch := by
  obtain ⟨cells, rfl⟩ := h.frame
  rfl

theorem rewritten_nil : Rewritten [] b s s where
  frame := ⟨s.buf.cells, rfl⟩
  inside _ ha := absurd ha List.not_mem_nil
  outside _ _ := rfl

theorem rewritten_cons {a : Nat} (h₁ : Rewritten [a] b s t) (h₂ : Rewritten as b t u) :
    Rewritten (a :: as) b s u where
  frame := by
    obtain ⟨_, rfl⟩ := h₁.frame
    obtain ⟨cells, rfl⟩ := h₂.frame
    exact ⟨cells, rfl⟩
  inside c hc := by
    by_cases hcs : c ∈ as
    · exact h₂.inside c hcs
    · rw [h₂.outside c hcs]
      exact h₁.inside c (by simpa [hcs] using hc)
  outside c hc := by
    rw [List.mem_cons, not_or] at hc
    obtain ⟨hca, hcs⟩ := hc
    rw [h₂.outside c hcs, h₁.outside c (by simpa using hca)]

theorem putByte_rewrites (s : State) (a : Nat) {b : Nat → Byte} : Rewritten [a] b s (s.putByte a (b a)) where
  frame := ⟨_, rfl⟩
  inside c hc := by rw [List.mem_singleton.1 hc, byteAt_putByte_same]
  outside c hc := byteAt_putByte_other s a c _ (Ne.symm (by simpa using hc))

theorem dropByte_rewrites (s : State) (a : Nat) : Rewritten [a] (unwrittenByte s.buf.epoch) s (s.dropByte a) where
  frame := ⟨_, rfl⟩
  inside c hc := by rw [List.mem_singleton.1 hc, byteAt_dropByte_same]
  outside c hc := byteAt_dropByte_other s a c (Ne.symm (by simpa using hc))

/-- Operations that rewrite one byte each, performed for a list of addresses, rewrite these bytes. -/
theorem runMicros_map_rewrites {f : Nat → Micro}
    (hstep : ∀ a ∈ as, ∀ u : State, u.geom = s.geom → u.buf.epoch = s.buf.epoch →
      ∃ w, runMicro (f a) u = .ok w ∧ Rewritten [a] b u w) :
    ∃ t, runMicros (as.map f) s = .ok t ∧ Rewritten as b s t := by
  induction as generalizing s with
  | nil => exact ⟨s, rfl, rewritten_nil⟩
  | cons a as ih =>
    rw [List.forall_mem_cons] at hstep
    obtain ⟨u, hu, hsu⟩ := hstep.1 s rfl rfl
    obtain ⟨t, ht, hut⟩ := ih (s := u) fun c hc w hgeom hepoch =>
      hstep.2 c hc w (hgeom.trans hsu.geom) (hepoch.trans hsu.epoch)
    exact ⟨t, runMicros_cons_ok.2 ⟨u, hu, ht⟩, rewritten_cons hsu hut⟩

end

/-- Filling the buffer completes on any geometry: every address it stores to lies below `BUFSIZE` (R124). -/
theorem runMicros_fillAll (s : State) (v : Byte) :
    ∃ t, runMicros (fillAll s.geom v) s = .ok t ∧ Rewritten (List.range s.geom.bufSize) (fun _ => v) s t :=
  runMicros_map_rewrites fun a ha u hgeom _ =>
    ⟨u.putByte a v, store_inRange v (by rw [hgeom]; exact List.mem_range.1 ha), putByte_rewrites u a⟩

/-- Making the whole buffer unspecified completes on any geometry (R125). -/
theorem runMicros_forgetAll (s : State) :
    ∃ t, runMicros ((List.range s.geom.bufSize).map .forget) s = .ok t ∧
      Rewritten (List.range s.geom.bufSize) (unwrittenByte s.buf.epoch) s t :=
  runMicros_map_rewrites fun a ha u hgeom hepoch =>
    ⟨u.dropByte a, forget_ok.2 ⟨by rw [hgeom]; exact List.mem_range.1 ha, rfl⟩,
      hepoch ▸ dropByte_rewrites u a⟩

/-! ### CLEARSCREEN -/

/-- Settles O12: the command is one store for each address of the buffer. -/
theorem clearScreenFillsBuffer : Obligations.ClearScreenFillsBuffer := by
  intro s normal hf
  obtain ⟨t, ht, hrew⟩ := runMicros_fillAll s (clearByte normal)
  refine ⟨t, exec_of_runMicros (by simp) hf (by simp [isReconfig]) ht, ?_, hrew.epoch,
    fun a ha => hrew.inside a (List.mem_range.2 ha), fun a ha => hrew.outside a (by simpa using ha)⟩
  obtain ⟨cells, rfl⟩ := hrew.frame
  rfl

/-! ### CHANGEDMD -/

theorem memFind_memBelow_of_le (m : Memory) {n a : Nat} (h : n ≤ a) : memFind (memBelow m n) a = none := by
  induction m with
  | nil => rfl
  | cons c m ih =>
    by_cases hc : c.1 < n
    · have hne : c.1 ≠ a := by omega
      simpa [memBelow, hc, memFind, hne] using ih
    · simpa [memBelow, hc] using ih

/-- A byte above the new `BUFSIZE` is listed no more (R24, R125). -/
theorem byteAt_withTotal_of_le (s : State) {v : Byte} {a : Nat} (h : 64 * v.toNat ≤ a) :
    (s.withTotal v).byteAt a = unwrittenByte (s.buf.epoch + 1) a := by
  simp [State.byteAt, memFind_memBelow_of_le _ h]

/-- The state after CHANGEDMD's register writes, with the bytes of the new buffer still to be made unspecified
(R125). -/
def resized (w h : Byte) (s : State) : State :=
  { s.withTotal (BitVec.ofNat 8 (w.toNat * h.toNat)) with
    geom := { w := w, h := h, t := BitVec.ofNat 8 (w.toNat * h.toNat) }
    regs := { s.regs with phase := 0, cursor := 0 } }

section
variable {w h : Byte} {s : State}

/-- `T` holds the number of panels of a grid that fits (R126). -/
theorem resized_total (hfits : reconfigFits s.env.cfg w h) : (resized w h s).geom.t.toNat = w.toNat * h.toNat := by
  obtain ⟨_, _, htotal, _⟩ := geometry_ok_of_reconfigFits hfits
  exact htotal

theorem resized_bufSize (hfits : reconfigFits s.env.cfg w h) :
    (resized w h s).geom.bufSize = 64 * (w.toNat * h.toNat) :=
  congrArg (64 * ·) (resized_total hfits)

/-- The operations of CHANGEDMD with a grid that fits are the register writes and the forgetting of the whole new
buffer (R125). -/
theorem runMicros_changeDmdProgram (hfits : reconfigFits s.env.cfg w h) :
    ∃ t, runMicros (changeDmdProgram w h s) s = .ok t ∧
      Rewritten (List.range (resized w h s).geom.bufSize) (unwrittenByte (s.buf.epoch + 1)) (resized w h s) t := by
  obtain ⟨t, ht, hrew⟩ := runMicros_forgetAll (resized w h s)
  rw [changeDmdProgram, if_pos hfits, ← resized_bufSize hfits]
  exact ⟨t, runMicros_append_ok.2 ⟨_, rfl, ht⟩, hrew⟩

/-- No byte of the old buffer is listed after CHANGEDMD, above the new `BUFSIZE` either. -/
theorem byteAt_of_rewritten_resized {t : State} (hrew : Rewritten (List.range (resized w h s).geom.bufSize)
    (unwrittenByte (s.buf.epoch + 1)) (resized w h s) t) (a : Nat) :
    t.byteAt a = unwrittenByte (s.buf.epoch + 1) a := by
  by_cases ha : a < (resized w h s).geom.bufSize
  · exact hrew.inside a (List.mem_range.2 ha)
  · rw [hrew.outside a (by simpa using ha)]
    exact byteAt_withTotal_of_le s (Nat.not_lt.1 ha)

end

theorem reconfigFits_iff {cfg : Config} {w h : Byte} :
    reconfigFits cfg w h ↔ ¬ (w.toNat = 0 ∨ h.toNat = 0 ∨ cfg.tMax.toNat < w.toNat * h.toNat) := by
  simp [reconfigFits]

/-- Settles O13: the register writes give the new geometry and scan position, the rest forgets the buffer. -/
theorem changeDmdResizes : Obligations.ChangeDmdResizes := by
  intro s w h hf hidle hw hh hmax
  have hfits : reconfigFits s.env.cfg w h := ⟨by omega, by omega, hmax⟩
  obtain ⟨t, ht, hrew⟩ := runMicros_changeDmdProgram hfits
  have hexec := exec_of_runMicros (i := .changeDmd w h) (by simp) hf (fun _ => hidle) ht
  have hbytes := byteAt_of_rewritten_resized hrew
  obtain ⟨cells, rfl⟩ := hrew.frame
  exact ⟨_, hexec, rfl, rfl, resized_total hfits, rfl, hbytes, rfl⟩

/-- Settles O14: a grid that does not fit leaves one operation, the write of `STATUS.FAULT`. -/
theorem changeDmdFailureSetsOnlyFault : Obligations.ChangeDmdFailureSetsOnlyFault := by
  intro s w h hf hidle
  refine ⟨fun hbad => ?_, fun hgood => ?_⟩
  · have hprogram : changeDmdProgram w h s = [.reg (.flag .fault)] :=
      if_neg fun hfits => reconfigFits_iff.1 hfits hbad
    exact exec_of_runMicros (by simp) hf (fun _ => hidle) (by rw [drawProgram, hprogram]; rfl)
  · obtain ⟨t, ht, hrew⟩ := runMicros_changeDmdProgram (reconfigFits_iff.2 hgood)
    refine ⟨t, exec_of_runMicros (by simp) hf (fun _ => hidle) ht, ?_⟩
    obtain ⟨cells, rfl⟩ := hrew.frame
    exact hf

end Sys2Proof.Proofs
end

section
/-! PROOFS. Painting a list of points (41_shapes.md R140, R150): what each pixel and each byte holds after one
`WritePixel` for each point of a list. -/

namespace Sys2Proof.Proofs

open Sys2Proof.Machine Sys2Proof.Laws

/-- `WritePixel(p, mode, v p)` for each point in order (R120). -/
def drawAll (mode : Mode) (v : Point → Bool) (ps : List Point) : List Micro :=
  ps.map fun p => .pixel p.1 p.2 mode (v p)

/-- `Painted` for a requested bit that depends on the point. -/
structure Drawn (mode : Mode) (v : Point → Bool) (ps : List Point) (s t : State) : Prop where
  frame : t = { s with buf := t.buf }
  epoch : t.buf.epoch = s.buf.epoch
  pixels : ∀ x y, s.geom.inDisplay x y →
    t.getPixel x y = (fun b => combine mode b (v (x, y)))^[ps.count (x, y)] (s.getPixel x y)
  bytes : ∀ a, (∀ p ∈ ps, s.geom.inDisplay p.1 p.2 → s.geom.pixelByte p.1 p.2 ≠ a) →
    t.byteAt a = s.byteAt a

section
variable {mode : Mode} {v : Point → Bool} {ps : List Point} {s t u : State}

theorem Drawn.geom (h : Drawn mode v ps s t) : t.geom = s.geom := by
  rw [h.frame]

theorem Drawn.geomOk (h : Drawn mode v ps s t) (hs : s.geomOk) : t.geomOk := by
  rw [h.frame]
  exact hs

theorem Drawn.painted (h : Drawn mode (fun _ => true) ps s t) : Painted mode ps s t :=
  ⟨h.frame, h.epoch, h.pixels, h.bytes⟩

theorem drawn_nil : Drawn mode v [] s s :=
  ⟨rfl, rfl, fun _ _ _ => rfl, fun _ _ => rfl⟩

/-- A point off the display is dropped (R121). -/
theorem drawn_singleton_off {p : Point} (h : ¬ s.geom.inDisplay p.1 p.2) : Drawn mode v [p] s s where
  frame := rfl
  epoch := rfl
  pixels x y hd := by
    have hne : p ≠ (x, y) := by
      rintro rfl
      exact h hd
    rw [List.count_singleton, if_neg (by simpa using hne), Function.iterate_zero_apply]
  bytes _ _ := rfl

/-- A point of the display is combined into its pixel and leaves every other one (R120). -/
theorem drawn_singleton_on {p : Point} (hs : s.geomOk) (h : s.geom.inDisplay p.1 p.2) :
    Drawn mode v [p] s (putPixel s p.1 p.2 (combine mode (s.getPixel p.1 p.2) (v p))) where
  frame := rfl
  epoch := rfl
  pixels x y hd := by
    obtain ⟨_, _, hT, _⟩ := hs
    by_cases hp : (x, y) = p
    · subst hp
      rw [getPixel_putPixel_same, List.count_singleton_self, Function.iterate_one]
    · rw [getPixel_putPixel_other s _ hT h hd hp, List.count_singleton, if_neg (by simpa using Ne.symm hp),
        Function.iterate_zero_apply]
  bytes a ha := byteAt_putPixel_other s _ (ha p List.mem_cons_self h)

theorem runMicro_pixel_drawn (hs : s.geomOk) (p : Point) :
    ∃ t, runMicro (.pixel p.1 p.2 mode (v p)) s = .ok t ∧ Drawn mode v [p] s t := by
  obtain ⟨_, _, hT, _⟩ := id hs
  by_cases h : s.geom.inDisplay p.1 p.2
  · exact ⟨_, writePixel_on mode (v p) h (pixelByte_lt_bufSize hT h), drawn_singleton_on hs h⟩
  · exact ⟨s, writePixel_off mode (v p) h, drawn_singleton_off h⟩

/-- The counts of two lists drawn one after the other add up. -/
theorem Drawn.cons {p : Point} (h₁ : Drawn mode v [p] s t) (h₂ : Drawn mode v ps t u) :
    Drawn mode v (p :: ps) s u where
  frame := by
    rw [h₂.frame, h₁.frame]
  epoch := h₂.epoch.trans h₁.epoch
  pixels x y hd := by
    rw [h₂.pixels x y (h₁.geom ▸ hd), h₁.pixels x y hd, ← Function.iterate_add_apply, Nat.add_comm,
      ← List.count_append, List.singleton_append]
  bytes a ha := by
    rw [List.forall_mem_cons] at ha
    rw [h₂.bytes a (h₁.geom ▸ ha.2), h₁.bytes a (by simpa using ha.1)]

/-- On a legal geometry a list of points is drawn to its end. -/
theorem runMicros_drawAll (hs : s.geomOk) (mode : Mode) (v : Point → Bool) (ps : List Point) :
    ∃ t, runMicros (drawAll mode v ps) s = .ok t ∧ Drawn mode v ps s t := by
  induction ps generalizing s with
  | nil => exact ⟨s, rfl, drawn_nil⟩
  | cons p ps ih =>
    obtain ⟨u, hu, hsu⟩ := runMicro_pixel_drawn (mode := mode) (v := v) hs p
    obtain ⟨t, ht, hut⟩ := ih (hsu.geomOk hs)
    exact ⟨t, runMicros_cons_ok.2 ⟨u, hu, ht⟩, hsu.cons hut⟩

/-- No pixel of the display lies above the buffer (R69). -/
theorem pixelByte_ne_of_bufSize_le (hs : s.geomOk) {x y : Int} (hd : s.geom.inDisplay x y) {a : Nat}
    (ha : s.geom.bufSize ≤ a) : s.geom.pixelByte x y ≠ a := by
  obtain ⟨_, _, hT, _⟩ := hs
  exact ((pixelByte_lt_bufSize hT hd).trans_le ha).ne

/-- A shape command paints its points (R140). -/
theorem exec_plotAll_paints {i : Instr} (hi : i ≠ .scan) (hr : isReconfig i = false) (hs : s.live)
    (hprogram : drawProgram i s = plotAll mode ps) : ∃ t, exec i s = .next t ∧ Painted mode ps s t := by
  obtain ⟨hf, hok⟩ := hs
  obtain ⟨t, ht, hdrawn⟩ := runMicros_drawAll hok mode (fun _ => true) ps
  exact ⟨t, exec_of_runMicros hi hf (by simp [hr]) (hprogram ▸ ht), hdrawn.painted⟩

end

/-! ### How often a pixel is written -/

/-- In NORMAL mode one write decides the pixel, and further ones repeat it (R122, R152). -/
theorem iterate_combine_normal (v e : Bool) (n : Nat) :
    (fun b => combine .normal b v)^[n] e = if n = 0 then e else v := by
  cases n with
  | zero => rfl
  | succ n =>
    rw [Function.iterate_succ_apply']
    rfl

/-- In TOGGLE mode an even number of writes changes nothing (R152). -/
theorem paintBit_toggle_of_even {n : Nat} (h : Even n) (e : Bool) : paintBit .toggle n e = e := by
  have hnot : (fun b => combine .toggle b true) = not := rfl
  rw [paintBit, hnot, Bool.involutive_not.iterate_even h, id_eq]

/-- Settles O16: each program is `plotAll` of the shape's points. -/
theorem shapesPaintTheirPoints : Obligations.ShapesPaintTheirPoints := by
  intro s m hs
  exact ⟨fun _ _ _ _ => exec_plotAll_paints (by simp) rfl hs rfl,
    fun _ _ _ => exec_plotAll_paints (by simp) rfl hs rfl,
    fun _ _ _ _ => exec_plotAll_paints (by simp) rfl hs rfl,
    fun _ _ _ _ => exec_plotAll_paints (by simp) rfl hs rfl⟩

/-! ### Test patterns (R150) -/

/-- The points of the display, row by row. -/
def displayPoints (g : Geometry) : List Point :=
  (List.range g.dh).flatMap fun (y : Nat) => (List.range g.dw).map fun (x : Nat) => ((x : Int), (y : Int))

theorem mem_displayPoints {g : Geometry} {x y : Nat} (h : g.inDisplay (x : Int) (y : Int)) :
    ((x : Int), (y : Int)) ∈ displayPoints g := by
  obtain ⟨hx, hy⟩ := inDisplay_natCast.1 h
  exact List.mem_flatMap.2 ⟨y, List.mem_range.2 hy, List.mem_map.2 ⟨x, List.mem_range.2 hx, rfl⟩⟩

/-- DRAWTESTPATTERN draws every point of the display. -/
theorem drawTestPatternProgram_eq (pattern : BitVec 2) (s : State) :
    drawTestPatternProgram pattern s =
      drawAll .normal (fun p => patternBit pattern p.1.toNat p.2.toNat) (displayPoints s.geom) := by
  simp [drawTestPatternProgram, drawAll, displayPoints, List.map_flatMap, Function.comp_def]

/-- The table of R150. -/
theorem patternBit_eq (p : BitVec 2) (x y : Nat) : patternBit p x y =
    if p = 0 then decide ((x + y) % 2 = 1) else if p = 1 then decide ((x + y) % 2 = 0)
    else if p = 2 then decide (x % 2 = 1) else decide (x % 2 = 0) := by
  have hp : p = 0 ∨ p = 1 ∨ p = 2 ∨ p = 3 := by
    revert p
    decide
  rcases hp with rfl | rfl | rfl | rfl <;> rfl

/-- Settles O21: every pixel of the display is drawn at least once, in NORMAL mode. -/
theorem testPatternPicture : Obligations.TestPatternPicture := by
  intro s p ⟨hf, hok⟩
  obtain ⟨t, ht, hdrawn⟩ := runMicros_drawAll hok .normal (fun q => patternBit p q.1.toNat q.2.toNat)
    (displayPoints s.geom)
  rw [← drawTestPatternProgram_eq] at ht
  refine ⟨t, exec_of_runMicros (by simp) hf (by simp [isReconfig]) ht, hdrawn.frame, fun x y hd => ?_,
    fun a ha => hdrawn.bytes a fun _ _ hd => pixelByte_ne_of_bufSize_le hok hd ha⟩
  have hcount : (displayPoints s.geom).count ((x : Int), (y : Int)) ≠ 0 :=
    (List.count_pos_iff.2 (mem_displayPoints hd)).ne'
  rw [hdrawn.pixels _ _ hd, iterate_combine_normal, if_neg hcount, Int.toNat_natCast, Int.toNat_natCast,
    patternBit_eq]

end Sys2Proof.Proofs
end

section
/-! PROOFS. Lines (41_shapes.md R142, R143): the loops of the integer-error form walk the closed form. -/

namespace Sys2Proof.Proofs

open Sys2Proof.Machine Sys2Proof.Laws

/-! ### The steps across -/

/-- How far a line has gone across after `k` steps along its longer side `D`, with `d` the shorter one: the nearest
integer to `d * k / D`, on a tie the greater (R142). -/
def stepsAcross (D d k : Int) : Int := (2 * d * k + D) / (2 * D)

/-- The error term `f` of R142 after `k` steps. -/
def lineError (D d k : Int) : Int := 2 * d * (k + 1) - D - 2 * D * stepsAcross D d k

section
variable {D d k : Int}

theorem stepsAcross_eq_iff (hD : 0 < D) {o : Int} :
    stepsAcross D d k = o ↔ o * (2 * D) ≤ 2 * d * k + D ∧ 2 * d * k + D < o * (2 * D) + 2 * D :=
  Int.ediv_eq_iff_of_pos (by omega)

theorem stepsAcross_zero (hD : 0 < D) : stepsAcross D d 0 = 0 :=
  (stepsAcross_eq_iff hD).2 (by constructor <;> linarith)

/-- A line ends at its end point (R143 (b)). -/
theorem stepsAcross_end (hD : 0 < D) : stepsAcross D d D = d :=
  (stepsAcross_eq_iff hD).2 (by constructor <;> linarith)

/-- A line parallel to an axis does not step across (R143 (d)). -/
theorem stepsAcross_straight (hD : 0 ≤ D) : stepsAcross D 0 k = 0 := by
  rcases hD.eq_or_lt with rfl | hD
  · simp [stepsAcross]
  · exact (stepsAcross_eq_iff hD).2 (by constructor <;> linarith)

theorem lineError_zero (hD : 0 < D) : lineError D d 0 = 2 * d - D := by
  rw [lineError, stepsAcross_zero hD]
  ring

/-- The line steps across exactly where the error term is not negative (R142). -/
theorem stepsAcross_succ (hD : 0 < D) (hd : 0 ≤ d) (hdD : d ≤ D) :
    stepsAcross D d (k + 1) = if 0 ≤ lineError D d k then stepsAcross D d k + 1 else stepsAcross D d k := by
  obtain ⟨hlo, hhi⟩ := (stepsAcross_eq_iff (d := d) (k := k) hD).1 rfl
  refine (stepsAcross_eq_iff hD).2 ?_
  unfold lineError
  split_ifs with hf
  · constructor <;> linarith
  · constructor <;> linarith

/-- How the loop of R142 goes on with its error term. -/
theorem lineError_succ (hD : 0 < D) (hd : 0 ≤ d) (hdD : d ≤ D) :
    lineError D d (k + 1) = (if 0 ≤ lineError D d k then lineError D d k - 2 * D else lineError D d k) + 2 * d := by
  rw [lineError, stepsAcross_succ hD hd hdD]
  split_ifs
  · unfold lineError
    ring
  · unfold lineError
    ring

end

/-! ### The loops -/

section
variable {D d : Int} (hD : 0 < D) (hd : 0 ≤ d) (hdD : d ≤ D) (x y sy : Int)
include hD hd hdD

/-- The x loop from its `k`-th iteration on. -/
theorem lineAlongX_eq (n k : Nat) :
    lineAlongX D d sy n (x + k) (y + sy * stepsAcross D d k) (lineError D d k) =
      (List.range' (k + 1) n).map fun j : Nat => (x + (j : Int), y + sy * stepsAcross D d j) := by
  induction n generalizing k with
  | zero => rfl
  | succ n ih =>
    have hy : (if 0 ≤ lineError D d k then y + sy * stepsAcross D d k + sy else y + sy * stepsAcross D d k) =
        y + sy * stepsAcross D d (k + 1 : Nat) := by
      rw [Nat.cast_succ, stepsAcross_succ hD hd hdD]
      split_ifs <;> ring
    have hx : x + (k : Int) + 1 = x + (k + 1 : Nat) := by omega
    rw [lineAlongX, hy, ← lineError_succ hD hd hdD, hx, ← Nat.cast_succ, ih (k + 1)]
    rfl

/-- The y loop from its `k`-th iteration on. -/
theorem lineAlongY_eq (n k : Nat) :
    lineAlongY d D sy n (x + stepsAcross D d k) (y + sy * k) (lineError D d k) =
      (List.range' (k + 1) n).map fun j : Nat => (x + stepsAcross D d j, y + sy * (j : Int)) := by
  induction n generalizing k with
  | zero => rfl
  | succ n ih =>
    have hx : (if 0 ≤ lineError D d k then x + stepsAcross D d k + 1 else x + stepsAcross D d k) =
        x + stepsAcross D d (k + 1 : Nat) := by
      rw [Nat.cast_succ, stepsAcross_succ hD hd hdD]
      split_ifs <;> ring
    have hy : y + sy * (k : Int) + sy = y + sy * (k + 1 : Nat) := by
      rw [Nat.cast_succ]
      ring
    rw [lineAlongY, hx, ← lineError_succ hD hd hdD, hy, ← Nat.cast_succ, ih (k + 1)]
    rfl

end

/-! ### The points of a line -/

/-- The direction of a line down or up the rows (R142). -/
def rowStep (y1 y2 : Int) : Int := if y2 < y1 then -1 else 1

/-- The `k`-th point of a line whose end points stand in canonical order. -/
def linePoint (x1 y1 x2 y2 : Int) (k : Nat) : Point :=
  if |y2 - y1| < x2 - x1 then (x1 + k, y1 + rowStep y1 y2 * stepsAcross (x2 - x1) |y2 - y1| k)
  else (x1 + stepsAcross |y2 - y1| (x2 - x1) k, y1 + rowStep y1 y2 * k)

/-- The number of steps along the longer side of a line (R143 (a)). -/
def lineSteps (x1 y1 x2 y2 : Int) : Nat := max (x2 - x1).natAbs (y2 - y1).natAbs

theorem rowStep_mul_abs (y1 y2 : Int) : rowStep y1 y2 * |y2 - y1| = y2 - y1 := by
  unfold rowStep
  split_ifs with h
  · rw [abs_of_neg (by omega)]
    ring
  · rw [abs_of_nonneg (by omega), one_mul]

section
variable {x1 y1 x2 y2 : Int}

theorem lineSteps_cast (hx : x1 ≤ x2) : (lineSteps x1 y1 x2 y2 : Int) = max (x2 - x1) |y2 - y1| := by
  rw [lineSteps, Nat.cast_max, Int.natCast_natAbs, Int.natCast_natAbs, abs_of_nonneg (by omega)]

theorem linePoint_zero : linePoint x1 y1 x2 y2 0 = (x1, y1) := by
  unfold linePoint
  split_ifs with h
  · rw [Nat.cast_zero, stepsAcross_zero ((abs_nonneg _).trans_lt h), mul_zero, add_zero, add_zero]
  · rcases (abs_nonneg (y2 - y1)).eq_or_lt with h0 | h0
    · simp [← h0, stepsAcross]
    · rw [Nat.cast_zero, stepsAcross_zero h0, mul_zero, add_zero, add_zero]

/-- The last point of a line is its end point (R143 (b)). -/
theorem linePoint_last (hx : x1 ≤ x2) : linePoint x1 y1 x2 y2 (lineSteps x1 y1 x2 y2) = (x2, y2) := by
  unfold linePoint
  split_ifs with h
  · rw [lineSteps_cast hx, max_eq_left h.le, stepsAcross_end ((abs_nonneg _).trans_lt h), rowStep_mul_abs]
    simp
  · rw [lineSteps_cast hx, max_eq_right (not_lt.1 h), rowStep_mul_abs]
    rcases (abs_nonneg (y2 - y1)).eq_or_lt with h0 | h0
    · have hx2 : x2 = x1 := by omega
      simp [← h0, stepsAcross, hx2]
    · rw [stepsAcross_end h0]
      simp

/-- Each step goes on along the longer side, so no point comes twice (R143 (a)). -/
theorem linePoint_injective : Function.Injective (linePoint x1 y1 x2 y2) := by
  intro j k hjk
  have hstep : rowStep y1 y2 ≠ 0 := by
    unfold rowStep
    split_ifs <;> decide
  unfold linePoint at hjk
  split_ifs at hjk
  · simpa using (Prod.mk.inj hjk).1
  · simpa [hstep] using (Prod.mk.inj hjk).2

/-- The integer-error form walks the closed form (R142). -/
theorem lineOrdered_eq (hx : x1 ≤ x2) : lineOrdered x1 y1 x2 y2 =
    (List.range (lineSteps x1 y1 x2 y2 + 1)).map (linePoint x1 y1 x2 y2) := by
  have hcast := lineSteps_cast (y1 := y1) (y2 := y2) hx
  have hrow : (if y2 - y1 < 0 then -1 else 1 : Int) = rowStep y1 y2 := by
    simp [rowStep]
  rw [List.range_eq_range', List.range'_succ, List.map_cons, linePoint_zero, lineOrdered, hrow]
  unfold linePoint
  split_ifs with h
  · have hsteps : (x2 - x1).toNat = lineSteps x1 y1 x2 y2 := by omega
    have hD := (abs_nonneg _).trans_lt h
    have hloop := lineAlongX_eq hD (abs_nonneg (y2 - y1)) h.le x1 y1 (rowStep y1 y2) (x2 - x1).toNat 0
    simpa [stepsAcross_zero hD, lineError_zero hD, hsteps] using hloop
  · have hsteps : |y2 - y1|.toNat = lineSteps x1 y1 x2 y2 := by omega
    rcases (abs_nonneg (y2 - y1)).eq_or_lt with h0 | hD
    · simp [← hsteps, ← h0, lineAlongY]
    · have hloop := lineAlongY_eq hD (show 0 ≤ x2 - x1 by omega) (not_lt.1 h) x1 y1 (rowStep y1 y2)
        |y2 - y1|.toNat 0
      simpa [stepsAcross_zero hD, lineError_zero hD, hsteps] using hloop

theorem lineSteps_comm : lineSteps x2 y2 x1 y1 = lineSteps x1 y1 x2 y2 := by
  unfold lineSteps
  omega

/-- Both orders of the end points give the same sequence (R143 (c)). -/
theorem linePoints_comm : linePoints x2 y2 x1 y1 = linePoints x1 y1 x2 y2 := by
  unfold linePoints
  split_ifs with h h'
  · omega
  · rfl
  · rfl
  · have hx : x1 = x2 := by omega
    have hy : y1 = y2 := by omega
    subst hx hy
    rfl

/-- A line from its canonical start point (R142). -/
theorem linePoints_eq (h : x1 < x2 ∨ (x1 = x2 ∧ y1 ≤ y2)) : linePoints x1 y1 x2 y2 =
    (List.range (lineSteps x1 y1 x2 y2 + 1)).map (linePoint x1 y1 x2 y2) := by
  rw [linePoints, if_neg (by omega), lineOrdered_eq (by omega)]

/-- One of the two end points is the canonical start point. -/
theorem canonical_or_canonical (x1 y1 x2 y2 : Int) :
    (x1 < x2 ∨ (x1 = x2 ∧ y1 ≤ y2)) ∨ (x2 < x1 ∨ (x2 = x1 ∧ y2 ≤ y1)) := by
  omega

theorem length_linePoints : (linePoints x1 y1 x2 y2).length = lineSteps x1 y1 x2 y2 + 1 := by
  rcases canonical_or_canonical x1 y1 x2 y2 with h | h
  · simp [linePoints_eq h]
  · rw [← linePoints_comm, linePoints_eq h, List.length_map, List.length_range, lineSteps_comm]

theorem nodup_linePoints : (linePoints x1 y1 x2 y2).Nodup := by
  rcases canonical_or_canonical x1 y1 x2 y2 with h | h
  · rw [linePoints_eq h]
    exact List.nodup_range.map linePoint_injective
  · rw [← linePoints_comm, linePoints_eq h]
    exact List.nodup_range.map linePoint_injective

end

/-- Settles O17: a line is its closed form at 0, 1, up to the length of its longer side. -/
theorem linePointSequence : Obligations.LinePointSequence := by
  intro x1 y1 x2 y2
  refine ⟨length_linePoints, nodup_linePoints, linePoints_comm, fun h => ?_⟩
  rw [linePoints_eq h]
  refine ⟨?_, ?_, fun k hk => ?_⟩
  · rw [List.range_succ_eq_map, List.map_cons, List.head?_cons, linePoint_zero]
  · rw [List.range_succ, List.map_append, List.map_singleton, List.getLast?_concat, linePoint_last (by omega)]
  · rw [List.getElem?_map, List.getElem?_range (show k < lineSteps x1 y1 x2 y2 + 1 from Nat.lt_succ_of_le hk)]
    rfl

end Sys2Proof.Proofs
end

section
/-! PROOFS. Boxes (41_shapes.md R148, R152, R153): how often each point of an outline and of a filled box is
written, from the four edges that are lines along a row or a column. -/

namespace Sys2Proof.Proofs

open Sys2Proof.Machine Sys2Proof.Laws

/-! ### Straight lines -/

/-- The integers from `lo` on are `lo` plus the naturals (R15). -/
theorem intRange_eq_map (lo hi : Int) :
    intRange lo hi = (List.range (hi + 1 - lo).toNat).map fun n : Nat => lo + (n : Int) := by
  simp [intRange, ← List.map_eq_flatMap, Function.comp_def]

theorem nodup_intRange (lo hi : Int) : (intRange lo hi).Nodup := by
  rw [intRange_eq_map]
  exact List.nodup_range.map fun _ _ h => by simpa using h

/-- The points of a row, left to right (R143 (d)). -/
theorem linePoints_row {xa xb : Int} (h : xa ≤ xb) (y : Int) :
    linePoints xa y xb y = (intRange xa xb).map fun x => (x, y) := by
  have hsteps : lineSteps xa y xb y + 1 = (xb + 1 - xa).toNat := by
    have hcast := lineSteps_cast (y1 := y) (y2 := y) h
    rw [sub_self, abs_zero] at hcast
    omega
  rw [linePoints_eq (by omega), hsteps, intRange_eq_map, List.map_map]
  refine List.map_congr_left fun k hk => ?_
  have hk := List.mem_range.1 hk
  simp only [linePoint, sub_self, abs_zero, Function.comp_apply]
  split_ifs with hlt
  · rw [stepsAcross_straight hlt.le, mul_zero, add_zero]
  · obtain rfl : k = 0 := by omega
    simp [stepsAcross]

/-- The points of a column, top to bottom (R143 (d)). -/
theorem linePoints_column {ya yb : Int} (h : ya ≤ yb) (x : Int) :
    linePoints x ya x yb = (intRange ya yb).map fun y => (x, y) := by
  have habs : |yb - ya| = yb - ya := abs_of_nonneg (by omega)
  have hsteps : lineSteps x ya x yb + 1 = (yb + 1 - ya).toNat := by
    have hcast := lineSteps_cast (y1 := ya) (y2 := yb) (le_refl x)
    omega
  rw [linePoints_eq (by omega), hsteps, intRange_eq_map, List.map_map]
  refine List.map_congr_left fun k _ => ?_
  rw [linePoint, sub_self, if_neg (not_lt.2 (abs_nonneg _)), stepsAcross_straight (abs_nonneg _), rowStep,
    if_neg (not_lt.2 h)]
  simp

theorem count_row {xa xb : Int} (h : xa ≤ xb) (y0 x y : Int) :
    (linePoints xa y0 xb y0).count (x, y) = if (xa ≤ x ∧ x ≤ xb) ∧ y = y0 then 1 else 0 := by
  have hmem : (x, y) ∈ linePoints xa y0 xb y0 ↔ (xa ≤ x ∧ x ≤ xb) ∧ y = y0 := by
    simp [linePoints_row h, mem_intRange, eq_comm]
  simp only [nodup_linePoints.count, hmem]

theorem count_column {ya yb : Int} (h : ya ≤ yb) (x0 x y : Int) :
    (linePoints x0 ya x0 yb).count (x, y) = if (ya ≤ y ∧ y ≤ yb) ∧ x = x0 then 1 else 0 := by
  have hmem : (x, y) ∈ linePoints x0 ya x0 yb ↔ (ya ≤ y ∧ y ≤ yb) ∧ x = x0 := by
    simp [linePoints_column h, mem_intRange, eq_comm]
  simp only [nodup_linePoints.count, hmem]

/-! ### The outline -/

/-- The point lies in the rectangle with these corners, its edges included (R152). -/
abbrev InRectangle (x1 y1 x2 y2 x y : Int) : Prop :=
  min x1 x2 ≤ x ∧ x ≤ max x1 x2 ∧ min y1 y2 ≤ y ∧ y ≤ max y1 y2

/-- The point lies in the rectangle with these corners and on none of its edges (R153). -/
abbrev InInterior (x1 y1 x2 y2 x y : Int) : Prop :=
  min x1 x2 < x ∧ x < max x1 x2 ∧ min y1 y2 < y ∧ y < max y1 y2

/-- The box is one row or one column of more than one point (R152 (c)). -/
abbrev IsSegment (x1 y1 x2 y2 : Int) : Prop := (x1 = x2 ∧ y1 ≠ y2) ∨ (x1 ≠ x2 ∧ y1 = y2)

section
variable (x1 y1 x2 y2 x y : Int)

/-- A box writes a point once for each of its four edges that the point lies on (R148). -/
theorem count_boxPoints : (boxPoints x1 y1 x2 y2).count (x, y) =
    if InRectangle x1 y1 x2 y2 x y then
      (if x = x1 then 1 else 0) + (if x = x2 then 1 else 0) +
        ((if y = y1 then 1 else 0) + (if y = y2 then 1 else 0))
    else 0 := by
  have hx : min x1 x2 ≤ max x1 x2 := min_le_max
  have hy : min y1 y2 ≤ max y1 y2 := min_le_max
  simp only [boxPoints, List.count_append]
  rw [linePoints_comm (x1 := min x1 x2) (x2 := max x1 x2) (y1 := max y1 y2),
    linePoints_comm (x1 := min x1 x2) (y1 := min y1 y2) (y2 := max y1 y2), count_row hx, count_row hx,
    count_column hy, count_column hy]
  grind

theorem count_segmentEnds (again : Bool) : (segmentEnds again x1 y1 x2 y2).count (x, y) =
    if again = true ∧ IsSegment x1 y1 x2 y2 ∧ ((x, y) = (x1, y1) ∨ (x, y) = (x2, y2)) then 1 else 0 := by
  grind [segmentEnds]

theorem inRectangle_of_mem_segmentEnds {again : Bool} {x1 y1 x2 y2 x y : Int}
    (h : (x, y) ∈ segmentEnds again x1 y1 x2 y2) : InRectangle x1 y1 x2 y2 x y := by
  rw [← List.count_pos_iff, count_segmentEnds] at h
  grind

/-- A box's points are the outline of its rectangle (R152 (a)). -/
theorem mem_boxPoints : (x, y) ∈ boxPoints x1 y1 x2 y2 ↔
    InRectangle x1 y1 x2 y2 x y ∧ (x = x1 ∨ x = x2 ∨ y = y1 ∨ y = y2) := by
  rw [← List.count_pos_iff, count_boxPoints]
  grind

end

/-- Settles O19: the edges a point lies on are counted by `count_boxPoints`. -/
theorem boxPointsAreTheOutline : Obligations.BoxPointsAreTheOutline := by
  intro x1 y1 x2 y2
  have hcount : ∀ p ∈ boxPoints x1 y1 x2 y2, (boxPoints x1 y1 x2 y2).count p =
      if x1 ≠ x2 ∧ y1 ≠ y2 then (if (p.1 = x1 ∨ p.1 = x2) ∧ (p.2 = y1 ∨ p.2 = y2) then 2 else 1)
      else if x1 = x2 ∧ y1 = y2 then 4
      else if p = (x1, y1) ∨ p = (x2, y2) then 3 else 2 := by
    rintro ⟨x, y⟩ hp
    have hmem := (mem_boxPoints ..).1 hp
    rw [count_boxPoints, if_pos hmem.1]
    grind
  refine ⟨mem_boxPoints x1 y1 x2 y2, hcount, ?_, ?_, fun again ⟨x, y⟩ => ?_⟩
  · simp only [boxPoints, min_comm, max_comm]
  · simp only [boxPoints, min_comm y2, max_comm y2]
  · rw [drawBoxPoints, List.count_append, count_segmentEnds]
    split_ifs with h
    · obtain ⟨_, hseg, hend⟩ := h
      have hp : (x, y) ∈ boxPoints x1 y1 x2 y2 := (mem_boxPoints ..).2 (by grind)
      rw [hcount _ hp, if_neg (by grind), if_neg (by grind), if_pos hend]
    · rfl

/-! ### The interior -/

theorem nodup_interiorPoints (g : Geometry) (x1 y1 x2 y2 : Int) : (interiorPoints g x1 y1 x2 y2).Nodup := by
  refine List.nodup_flatMap.2 ⟨fun x _ => (nodup_intRange _ _).map fun _ _ h => (Prod.mk.inj h).2, ?_⟩
  refine (nodup_intRange _ _).pairwise_of_forall_ne fun x _ x' _ hne p hp hp' => hne ?_
  obtain ⟨_, _, rfl⟩ := List.mem_map.1 hp
  obtain ⟨_, _, h⟩ := List.mem_map.1 hp'
  exact (Prod.mk.inj h).1.symm

section
variable {g : Geometry} {x y : Int} (x1 y1 x2 y2 : Int)

/-- Cutting the interior to the display loses no pixel of the display (R153). -/
theorem mem_interiorPoints (hd : g.inDisplay x y) :
    (x, y) ∈ interiorPoints g x1 y1 x2 y2 ↔ InInterior x1 y1 x2 y2 x y := by
  simp only [interiorPoints, List.mem_flatMap, List.mem_map, mem_intRange, Prod.mk.injEq]
  constructor
  · rintro ⟨_, hx, _, hy, rfl, rfl⟩
    omega
  · exact fun h => ⟨x, by omega, y, by omega, rfl, rfl⟩

theorem count_interiorPoints (hd : g.inDisplay x y) : (interiorPoints g x1 y1 x2 y2).count (x, y) =
    if InInterior x1 y1 x2 y2 x y then 1 else 0 := by
  simp only [(nodup_interiorPoints ..).count, mem_interiorPoints _ _ _ _ hd]

/-- A filled box writes the pixels of the display in its rectangle and no other (R149). -/
theorem mem_drawFilledBoxPoints (hd : g.inDisplay x y) (again : Bool) :
    (x, y) ∈ drawFilledBoxPoints again g x1 y1 x2 y2 ↔ InRectangle x1 y1 x2 y2 x y := by
  simp only [drawFilledBoxPoints, filledBoxPoints, List.mem_append, mem_boxPoints, mem_interiorPoints _ _ _ _ hd]
  constructor
  · rintro ((h | h) | h)
    · exact h.1
    · omega
    · exact inRectangle_of_mem_segmentEnds h
  · omega

/-- A filled box of two dimensions writes its corners twice and the rest of its rectangle once (R152 (b), R153). -/
theorem count_drawFilledBoxPoints (hd : g.inDisplay x y) (again : Bool) (hx : x1 ≠ x2) (hy : y1 ≠ y2) :
    (drawFilledBoxPoints again g x1 y1 x2 y2).count (x, y) =
      if InRectangle x1 y1 x2 y2 x y then
        if (x = x1 ∨ x = x2) ∧ (y = y1 ∨ y = y2) then 2 else 1
      else 0 := by
  rw [drawFilledBoxPoints, filledBoxPoints, List.count_append, List.count_append,
    count_boxPoints, count_interiorPoints _ _ _ _ hd, count_segmentEnds]
  grind

/-- A degenerate filled box has no interior, so it is its outline (R149). -/
theorem interiorPoints_degenerate (h : x1 = x2 ∨ y1 = y2) : interiorPoints g x1 y1 x2 y2 = [] := by
  refine List.eq_nil_iff_forall_not_mem.2 fun p hp => ?_
  simp only [interiorPoints, List.mem_flatMap, List.mem_map, mem_intRange] at hp
  obtain ⟨_, hx, _, hy, _⟩ := hp
  omega

theorem drawFilledBoxPoints_degenerate (h : x1 = x2 ∨ y1 = y2) (again : Bool) :
    drawFilledBoxPoints again g x1 y1 x2 y2 = drawBoxPoints again x1 y1 x2 y2 := by
  rw [drawFilledBoxPoints, filledBoxPoints, interiorPoints_degenerate _ _ _ _ h, List.append_nil, drawBoxPoints]

end

/-- A degenerate box writes each of its points an even number of times: a single point, and with the reading
R152 (c) a segment. -/
theorem even_count_drawBoxPoints {again : Bool} {x1 y1 x2 y2 : Int} (hdeg : x1 = x2 ∨ y1 = y2)
    (hagain : again = true ∨ (x1 = x2 ∧ y1 = y2)) (x y : Int) :
    Even ((drawBoxPoints again x1 y1 x2 y2).count (x, y)) := by
  rw [drawBoxPoints, List.count_append, count_boxPoints, count_segmentEnds, Nat.even_iff]
  grind

/-! ### The commands -/

/-- Settles O20: the pixels of the rectangle are those the command writes, with the corners twice. -/
theorem filledBoxFillsRectangle : Obligations.FilledBoxFillsRectangle := by
  intro s x1 y1 x2 y2 hs
  obtain ⟨_, hok⟩ := id hs
  have hexec (m : Mode) : ∃ t, exec (.drawFilledBox x1 y1 x2 y2 m) s = .next t ∧
      Painted m (drawFilledBoxPoints s.env.cfg.segmentEndsAgain s.geom x1 y1 x2 y2) s t :=
    exec_plotAll_paints (by simp) rfl hs rfl
  refine ⟨?_, fun hx hy m => ?_⟩
  · obtain ⟨t, ht, hp⟩ := hexec .normal
    refine ⟨t, ht, hp.frame, fun x y hd => ?_,
      fun a ha => hp.bytes a fun _ _ hd => pixelByte_ne_of_bufSize_le hok hd ha⟩
    have hmem := mem_drawFilledBoxPoints x1 y1 x2 y2 hd s.env.cfg.segmentEndsAgain
    rw [hp.pixels x y hd, paintBit, iterate_combine_normal]
    by_cases hin : InRectangle x1 y1 x2 y2 x y
    · rw [if_neg (List.count_pos_iff.2 (hmem.2 hin)).ne', decide_eq_true hin, Bool.true_or]
    · rw [if_pos (List.count_eq_zero.2 (mt hmem.1 hin)), decide_eq_false hin, Bool.false_or]
  · obtain ⟨t, ht, hp⟩ := hexec m
    refine ⟨t, ht, hp.frame, fun x y hd => ?_,
      fun a ha => hp.bytes a fun _ _ hd => pixelByte_ne_of_bufSize_le hok hd ha⟩
    rw [hp.pixels x y hd, count_drawFilledBoxPoints x1 y1 x2 y2 hd _ hx hy]
    split_ifs <;> rfl

/-- In TOGGLE mode points written an even number of times leave the picture (R152 (c)). -/
theorem samePicture_of_toggled_evenly {ps : List Point} {s t : State} (h : Painted .toggle ps s t)
    (heven : ∀ x y, Even (ps.count (x, y))) : samePicture s t :=
  ⟨by rw [h.frame], fun x y hd => by rw [h.pixels x y hd, paintBit_toggle_of_even (heven x y)]⟩

/-- Settles O58: both commands write the points of the degenerate outline, each an even number of times. -/
theorem degenerateBoxTogglesNothing : Obligations.DegenerateBoxTogglesNothing := by
  refine ⟨rfl, fun s x1 y1 x2 y2 hs hdeg hagain => ?_⟩
  have hexec {i : Instr} (hi : i ≠ .scan) (hr : isReconfig i = false)
      (hprogram : drawProgram i s = plotAll .toggle (drawBoxPoints s.env.cfg.segmentEndsAgain x1 y1 x2 y2)) :
      ∃ t, exec i s = .next t ∧ t = { s with buf := t.buf } ∧ samePicture s t := by
    obtain ⟨t, ht, hp⟩ := exec_plotAll_paints hi hr hs hprogram
    exact ⟨t, ht, hp.frame, samePicture_of_toggled_evenly hp (even_count_drawBoxPoints hdeg hagain)⟩
  refine ⟨hexec (by simp) rfl rfl, hexec (by simp) rfl ?_⟩
  rw [← drawFilledBoxPoints_degenerate (g := s.geom) x1 y1 x2 y2 hdeg]
  rfl

end Sys2Proof.Proofs
end

section
/-! PROOFS. Circles (41_shapes.md R145, R146): the midpoint loop visits, in each column of one octant, the row
nearest the radius; a circle is what `Plot8` makes of these points. -/

namespace Sys2Proof.Proofs

open Sys2Proof.Machine Sys2Proof.Laws

/-! ### The points of one octant -/

/-- In column `u` the row `v` is nearest the radius: the circle passes between the midpoints above and below it. -/
def OnArc (r u v : Int) : Prop := u ^ 2 + v ^ 2 - v < r ^ 2 ∧ r ^ 2 ≤ u ^ 2 + v ^ 2 + v

/-- The midpoints themselves are no integer points, so both forms of the distance agree. -/
theorem onArc_iff (r u v : Int) : OnArc r u v ↔
    4 * u ^ 2 + (2 * v - 1) ^ 2 ≤ 4 * r ^ 2 ∧ 4 * r ^ 2 < 4 * u ^ 2 + (2 * v + 1) ^ 2 := by
  have hlow : (2 * v - 1) ^ 2 = 4 * v ^ 2 - 4 * v + 1 := by ring
  have hhigh : (2 * v + 1) ^ 2 = 4 * v ^ 2 + 4 * v + 1 := by ring
  rw [OnArc, hlow, hhigh]
  omega

/-- The decision value `p` of R145 at `(x, y)`. -/
def midpointError (r x y : Int) : Int := (x + 1) ^ 2 + y ^ 2 - y - r ^ 2

/-- The row of the next column (R145). -/
def nextRow (r x y : Int) : Int := if midpointError r x y < 0 then y else y - 1

/-- The points `(x, y)` the loop of R145 passes to `Plot8` in `n` turns, from `(x, y)` on. -/
def arcFrom (r : Int) : Nat → Int → Int → List Point
  | 0, _, _ => []
  | n + 1, x, y => if x < y then (x + 1, nextRow r x y) :: arcFrom r n (x + 1) (nextRow r x y) else []

/-- All points a circle passes to `Plot8`. -/
def arc (r : Int) : List Point := (0, r) :: arcFrom r r.toNat 0 r

/-- How the loop of R145 goes on with its decision value. -/
theorem midpointError_next (r x y : Int) : midpointError r (x + 1) (nextRow r x y) =
    if midpointError r x y < 0 then midpointError r x y + 2 * (x + 1) + 1
    else midpointError r x y + 2 * (x + 1 - (y - 1)) + 1 := by
  unfold nextRow
  split_ifs
  · unfold midpointError
    ring
  · unfold midpointError
    ring

/-- One turn of the loop of R145. -/
theorem circleLoop_succ (cx cy r : Int) (n : Nat) {x y : Int} (hxy : x < y) :
    circleLoop cx cy (n + 1) x y (midpointError r x y) = plot8 cx cy (x + 1) (nextRow r x y) ++
      circleLoop cx cy n (x + 1) (nextRow r x y) (midpointError r (x + 1) (nextRow r x y)) := by
  rw [circleLoop, if_pos hxy, midpointError_next]
  unfold nextRow
  split_ifs
  · rfl
  · rfl

theorem circleLoop_eq (cx cy r : Int) (n : Nat) (x y : Int) : circleLoop cx cy n x y (midpointError r x y) =
    (arcFrom r n x y).flatMap fun q => plot8 cx cy q.1 q.2 := by
  induction n generalizing x y with
  | zero => rfl
  | succ n ih =>
    by_cases hxy : x < y
    · rw [circleLoop_succ cx cy r n hxy, ih, arcFrom, if_pos hxy, List.flatMap_cons]
    · rw [circleLoop, arcFrom, if_neg hxy, if_neg hxy, List.flatMap_nil]

/-- A circle is what `Plot8` makes of its arc (R145). -/
theorem circlePoints_eq {r : Int} (hr : 0 ≤ r) (cx cy : Int) :
    circlePoints cx cy r = (arc r).flatMap fun q => plot8 cx cy q.1 q.2 := by
  have hstart : 1 - r = midpointError r 0 r := by
    unfold midpointError
    ring
  rw [circlePoints, if_neg (not_lt.2 hr), hstart, circleLoop_eq, arc, List.flatMap_cons]

/-! ### What the loop visits -/

/-- What holds at every point the loop reaches: the circle does not pass above the row, and up to the diagonal it
does not pass below it. -/
def Reached (r x y : Int) : Prop :=
  0 ≤ x ∧ 0 ≤ y ∧ r ^ 2 ≤ x ^ 2 + y ^ 2 + y ∧ (x ≤ y → x ^ 2 + y ^ 2 - y < r ^ 2)

section
variable {r x y : Int}

theorem reached_start (hr : 0 < r) : Reached r 0 r :=
  ⟨le_refl 0, hr.le, by nlinarith, fun _ => by nlinarith⟩

theorem Reached.onArc (h : Reached r x y) (hxy : x ≤ y) : OnArc r x y := by
  obtain ⟨_, _, hhigh, hlow⟩ := h
  exact ⟨hlow hxy, hhigh⟩

theorem Reached.next (h : Reached r x y) (hxy : x < y) : Reached r (x + 1) (nextRow r x y) := by
  obtain ⟨hx, hy, hhigh, hlow⟩ := h
  have hlow := hlow hxy.le
  unfold nextRow
  split_ifs with hp
  · unfold midpointError at hp
    exact ⟨by omega, hy, by nlinarith, fun _ => by linarith⟩
  · unfold midpointError at hp
    exact ⟨by omega, by omega, by nlinarith, fun _ => by nlinarith⟩

/-- In one column the circle is nearest one row. -/
theorem OnArc.row_unique {v v' : Int} (h : OnArc r x v) (h' : OnArc r x v') (hv : 0 ≤ v) (hv' : 0 ≤ v') :
    v = v' := by
  obtain ⟨hlow, hhigh⟩ := h
  obtain ⟨hlow', hhigh'⟩ := h'
  rcases lt_trichotomy v v' with hlt | heq | hlt
  · nlinarith
  · exact heq
  · nlinarith

/-- From the diagonal on, the octant has no further point of the arc. -/
theorem Reached.not_onArc_beyond (h : Reached r x y) (hyx : y ≤ x) {u v : Int} (hu : x < u) (huv : u ≤ v) :
    ¬ OnArc r u v := by
  obtain ⟨hx, hy, hhigh, _⟩ := h
  rintro ⟨hlow, _⟩
  nlinarith

/-- Where the loop has passed the diagonal, its point is none of the arc either. -/
theorem Reached.not_onArc_of_lt (h : Reached r x y) (hyx : y < x) {v : Int} (hv : x ≤ v) : ¬ OnArc r x v := by
  obtain ⟨hx, hy, hhigh, _⟩ := h
  rintro ⟨hlow, _⟩
  nlinarith

/-- The current point of the loop is the arc's point in its column, or the octant has none there. -/
theorem Reached.onArc_column_iff (h : Reached r x y) {v : Int} (hv : x ≤ v) : OnArc r x v ↔ v = y ∧ x ≤ y := by
  obtain ⟨hx, hy, _⟩ := id h
  constructor
  · intro harc
    by_cases hxy : x ≤ y
    · exact ⟨harc.row_unique (h.onArc hxy) (hx.trans hv) hy, hxy⟩
    · exact absurd harc (h.not_onArc_of_lt (not_le.1 hxy) hv)
  · rintro ⟨rfl, hxy⟩
    exact h.onArc hxy

/-- With enough turns the loop visits exactly the points of the arc in its octant. -/
theorem mem_arcFrom {n : Nat} (h : Reached r x y) (hn : y ≤ x + n) {u v : Int} (huv : u ≤ v) :
    (u, v) ∈ arcFrom r n x y ↔ x < u ∧ OnArc r u v := by
  induction n generalizing x y with
  | zero =>
    have hend := h.not_onArc_beyond (u := u) (v := v) (by simpa using hn)
    simp only [arcFrom, List.not_mem_nil, false_iff, not_and]
    exact fun hu => hend hu huv
  | succ n ih =>
    rw [arcFrom]
    split_ifs with hxy
    · have hrow : nextRow r x y ≤ y := by
        unfold nextRow
        split_ifs <;> omega
      have hnext := h.next hxy
      rw [List.mem_cons, ih hnext (by push_cast at hn; omega), Prod.mk.injEq]
      by_cases hu : u = x + 1
      · subst hu
        rw [hnext.onArc_column_iff huv]
        omega
      · have hlt : x < u ↔ x + 1 < u := by omega
        simp [hu, hlt]
    · simp only [List.not_mem_nil, false_iff, not_and]
      exact fun hu => h.not_onArc_beyond (not_lt.1 hxy) hu huv

/-- The arc is the part of the midpoint circle in the octant between an axis and a diagonal (R145). -/
theorem mem_arc (hr : 0 < r) {u v : Int} (hu : 0 ≤ u) (huv : u ≤ v) : (u, v) ∈ arc r ↔ OnArc r u v := by
  have hstart := reached_start hr
  rw [arc, List.mem_cons, mem_arcFrom hstart (by omega) huv, Prod.mk.injEq]
  by_cases hu0 : u = 0
  · subst hu0
    rw [hstart.onArc_column_iff huv]
    omega
  · have hpos : 0 < u := by omega
    simp [hu0, hpos]

/-- Each turn of the loop goes one column on. -/
theorem lt_of_mem_arcFrom {n : Nat} {q : Point} (hq : q ∈ arcFrom r n x y) : x < q.1 := by
  induction n generalizing x y with
  | zero => cases hq
  | succ n ih =>
    rw [arcFrom] at hq
    split_ifs at hq
    · rcases List.mem_cons.1 hq with rfl | hq
      · exact Int.lt_succ x
      · exact (Int.lt_succ x).trans (ih hq)
    · cases hq

theorem arcFrom_pairwise (n : Nat) (x y : Int) : (arcFrom r n x y).Pairwise fun q q' => q.1 < q'.1 := by
  induction n generalizing x y with
  | zero => exact .nil
  | succ n ih =>
    rw [arcFrom]
    split_ifs
    · exact List.pairwise_cons.2 ⟨fun _ => lt_of_mem_arcFrom, ih _ _⟩
    · exact .nil

/-- The columns of the arc rise. -/
theorem arc_pairwise : (arc r).Pairwise fun q q' => q.1 < q'.1 :=
  List.pairwise_cons.2 ⟨fun _ => lt_of_mem_arcFrom, arcFrom_pairwise _ _ _⟩

theorem nonneg_of_mem_arc {q : Point} (hq : q ∈ arc r) : 0 ≤ q.1 := by
  rcases List.mem_cons.1 hq with rfl | hq
  · exact le_refl 0
  · exact (lt_of_mem_arcFrom hq).le

end

/-! ### The eight images -/

section
variable {x y : Int} (hx : 0 ≤ x) (cx cy : Int)
include hx

/-- `Plot8` gives the images of `(x, y)` under the reflections in the axes and the diagonals: the points whose
distances from the axes are `x` and `y` (R145). -/
theorem mem_plot8_of_le (hxy : x ≤ y) (u v : Int) :
    (cx + u, cy + v) ∈ plot8 cx cy x y ↔ (|u| = x ∧ |v| = y) ∨ (|u| = y ∧ |v| = x) := by
  rw [abs_eq hx, abs_eq hx, abs_eq (hx.trans hxy), abs_eq (hx.trans hxy), plot8, if_neg (not_lt.2 hxy)]
  split_ifs
  all_goals
    simp only [List.mem_cons, List.not_mem_nil, or_false, Prod.mk.injEq]
    omega

/-- Past the diagonal it gives none, so of each of its points `(x, y)` is the image in the octant. -/
theorem mem_plot8 (u v : Int) :
    (cx + u, cy + v) ∈ plot8 cx cy x y ↔ min |u| |v| = x ∧ max |u| |v| = y := by
  by_cases hxy : x ≤ y
  · rw [mem_plot8_of_le hx cx cy hxy]
    omega
  · rw [plot8, if_pos (not_le.1 hxy)]
    simp only [List.not_mem_nil, false_iff]
    omega

/-- `Plot8` lists distinct images (R146 (a)). -/
theorem nodup_plot8 : (plot8 cx cy x y).Nodup := by
  unfold plot8
  split_ifs
  · exact List.nodup_nil
  · exact List.nodup_singleton _
  all_goals
    simp only [List.nodup_cons, List.mem_cons, List.not_mem_nil, or_false, Prod.mk.injEq, List.nodup_nil,
      not_false_eq_true, and_true]
    omega

end

/-! ### The circle -/

section
variable {r : Int} (hr : 0 ≤ r) (cx cy : Int)
include hr

/-- A point lies on the circle when its image in the octant lies on the arc (R146 (b)). -/
theorem mem_circlePoints (u v : Int) :
    (cx + u, cy + v) ∈ circlePoints cx cy r ↔ (min |u| |v|, max |u| |v|) ∈ arc r := by
  rw [circlePoints_eq hr, List.mem_flatMap]
  constructor
  · rintro ⟨q, hq, hp⟩
    obtain ⟨hmin, hmax⟩ := (mem_plot8 (nonneg_of_mem_arc hq) cx cy u v).1 hp
    rwa [hmin, hmax]
  · exact fun hq => ⟨_, hq, (mem_plot8 (nonneg_of_mem_arc hq) cx cy u v).2 ⟨rfl, rfl⟩⟩

/-- Images of different points of the arc differ, for their columns in the octant do (R146 (a)). -/
theorem nodup_circlePoints : (circlePoints cx cy r).Nodup := by
  rw [circlePoints_eq hr, List.nodup_flatMap]
  refine ⟨fun q hq => nodup_plot8 (nonneg_of_mem_arc hq) cx cy, ?_⟩
  refine arc_pairwise.imp_of_mem fun {q q'} hq hq' hlt p hp hp' => hlt.ne ?_
  obtain ⟨u, v, rfl⟩ : ∃ u v, p = (cx + u, cy + v) := ⟨p.1 - cx, p.2 - cy, by simp⟩
  exact ((mem_plot8 (nonneg_of_mem_arc hq) cx cy u v).1 hp).1.symm.trans
    ((mem_plot8 (nonneg_of_mem_arc hq') cx cy u v).1 hp').1

/-- The circle meets the axes at the radius. -/
theorem axis_mem_circlePoints {u v : Int} (hmin : min |u| |v| = 0) (hmax : max |u| |v| = r) :
    (cx + u, cy + v) ∈ circlePoints cx cy r := by
  rw [mem_circlePoints hr, hmin, hmax]
  exact List.mem_cons_self

end

theorem circlePoints_of_neg {r : Int} (hr : r < 0) (cx cy : Int) : circlePoints cx cy r = [] := if_pos hr

/-- Settles O18: a circle is the set of images of its arc, and the arc is the midpoint circle of its octant. -/
theorem circlePointSymmetry : Obligations.CirclePointSymmetry := by
  intro cx cy r
  refine ⟨?_, fun hr => circlePoints_of_neg hr cx cy, ?_, fun u v huv => ?_, fun hr => ?_, fun hr u v hu huv => ?_⟩
  · rcases lt_or_ge r 0 with hr | hr
    · rw [circlePoints_of_neg hr]
      exact List.nodup_nil
    · exact nodup_circlePoints hr cx cy
  · rintro rfl
    rfl
  · rcases lt_or_ge r 0 with hr | hr
    · rw [circlePoints_of_neg hr] at huv
      cases huv
    · rw [mem_circlePoints hr] at huv
      refine ⟨?_, ?_, ?_⟩
      · rwa [sub_eq_add_neg, mem_circlePoints hr, abs_neg, min_comm, max_comm]
      · rwa [sub_eq_add_neg, mem_circlePoints hr, abs_neg]
      · rwa [sub_eq_add_neg, mem_circlePoints hr, abs_neg]
  · have haxis (u v : Int) := axis_mem_circlePoints hr cx cy (u := u) (v := v)
    have habs : |r| = r := abs_of_nonneg hr
    refine ⟨?_, ?_, ?_, ?_⟩
    · simpa [habs, hr] using haxis 0 r
    · simpa [habs, hr, sub_eq_add_neg] using haxis 0 (-r)
    · simpa [habs, hr] using haxis r 0
    · simpa [habs, hr, sub_eq_add_neg] using haxis (-r) 0
  · rw [mem_circlePoints hr.le, abs_of_nonneg hu, abs_of_nonneg (hu.trans huv), min_eq_left huv, max_eq_right huv,
      mem_arc hr hu huv, onArc_iff]

end Sys2Proof.Proofs
end

section
/-! PROOFS. Glyphs and text (42_glyph.md R172 to R183): the width, the data and the points of a glyph from the bytes
of its font, the pen of a text, and the four commands with and without a selected font. -/

namespace Sys2Proof.Proofs

open Sys2Proof.Machine Sys2Proof.Laws

/-! ### The bytes of a font -/

theorem fontFixed_iff {F : Nat → Nat} : fontFixed F = true ↔ F 0 = 0 ∧ F 1 = 0 := decide_eq_true_iff

/-- The width from the bytes of the font (R172, R173). -/
theorem charWidth_eq (F : Nat → Nat) (c : Nat) : charWidth F c =
    if c < F 4 ∨ F 4 + F 5 ≤ c then 0 else if F 0 = 0 ∧ F 1 = 0 then F 2 else F (6 + (c - F 4)) := by
  simp only [charWidth, fontFixed_iff]

/-- A character of a fixed-width font that has columns has as many as the font says (R173). -/
theorem charWidth_of_fixed {F : Nat → Nat} {c : Nat} (hfixed : F 0 = 0 ∧ F 1 = 0) (hw : 0 < charWidth F c) :
    charWidth F c = F 2 := by
  rw [charWidth_eq] at hw ⊢
  split at hw
  case isTrue => exact absurd hw (lt_irrefl 0)
  case isFalse hrange => rw [if_neg hrange, if_pos hfixed]

/-- The offset of the data of a character that has columns, by its own width in a fixed-width font (R174). -/
theorem glyphBase_eq {F : Nat → Nat} {c : Nat} (hw : 0 < charWidth F c) : glyphBase F (c - F 4) =
    if F 0 = 0 ∧ F 1 = 0 then 6 + (c - F 4) * glyphPages F * charWidth F c
    else 6 + F 5 + glyphPages F * ((List.range (c - F 4)).map fun j => F (6 + j)).sum := by
  simp only [glyphBase, fontFixed_iff]
  split
  case isTrue hfixed => rw [charWidth_of_fixed hfixed hw]
  case isFalse => rfl

/-! ### The points of a glyph -/

section
variable {F : Nat → Nat} {x y : Int}

/-- The points `DrawChar` writes in one column of a glyph (R179). -/
def glyphColumn (F : Nat → Nat) (x y : Int) (base w col : Nat) : List Point :=
  (List.range (F 3)).filterMap fun row =>
    if glyphBit F base w col row then some (x + (col : Int), y + (row : Int)) else none

theorem charPoints_eq (F : Nat → Nat) (x y : Int) (c : Nat) : charPoints F x y c =
    (List.range (charWidth F c)).flatMap (glyphColumn F x y (glyphBase F (c - F 4)) (charWidth F c)) := rfl

theorem mem_glyphColumn {base w col : Nat} {p : Point} : p ∈ glyphColumn F x y base w col ↔
    ∃ row, row < F 3 ∧ glyphBit F base w col row = true ∧ p = (x + (col : Int), y + (row : Int)) := by
  simp only [glyphColumn, List.mem_filterMap, List.mem_range, Option.ite_none_right_eq_some, Option.some.injEq,
    eq_comm (b := p)]

theorem mem_charPoints {c : Nat} {p : Point} : p ∈ charPoints F x y c ↔
    ∃ col, col < charWidth F c ∧ ∃ row, row < F 3 ∧
      glyphBit F (glyphBase F (c - F 4)) (charWidth F c) col row = true ∧
        p = (x + (col : Int), y + (row : Int)) := by
  simp only [charPoints_eq, List.mem_flatMap, List.mem_range, mem_glyphColumn]

/-- The points of one column lie in different rows. -/
theorem nodup_glyphColumn (base w col : Nat) : (glyphColumn F x y base w col).Nodup := by
  refine List.nodup_range.filterMap fun row row' p hp hp' => ?_
  rw [Option.mem_def, Option.ite_none_right_eq_some, Option.some.injEq] at hp hp'
  obtain ⟨_, rfl⟩ := hp
  obtain ⟨_, hrow⟩ := Prod.mk.inj hp'.2
  omega

/-- Two columns have no point in common. -/
theorem nodup_charPoints (c : Nat) : (charPoints F x y c).Nodup := by
  rw [charPoints_eq]
  refine List.nodup_flatMap.2 ⟨fun col _ => nodup_glyphColumn _ _ col, ?_⟩
  refine List.nodup_range.pairwise_of_forall_ne fun col _ col' _ hne p hp hp' => hne ?_
  obtain ⟨_, _, _, rfl⟩ := mem_glyphColumn.1 hp
  obtain ⟨_, _, _, heq⟩ := mem_glyphColumn.1 hp'
  obtain ⟨hcol, _⟩ := Prod.mk.inj heq
  omega

end

/-- Settles O26: the points are the columns and rows of set bits. In a fixed-width font the base by the font's width
and the one by the character's width agree wherever the character has a column. -/
theorem glyphPointsAreItsSetBits : Obligations.GlyphPointsAreItsSetBits := by
  intro F x y c h nb g fixed w base
  have hw : charWidth F c = w := charWidth_eq F c
  have hbase {col : Nat} (hcol : col < w) : glyphBase F g = base := by
    rw [glyphBase_eq (hw ▸ Nat.zero_lt_of_lt hcol), hw]
    rfl
  refine ⟨nodup_charPoints c, fun px py => ?_⟩
  rw [mem_charPoints, hw]
  constructor
  · rintro ⟨col, hcol, row, hrow, hbit, hp⟩
    obtain ⟨hpx, hpy⟩ := Prod.mk.inj hp
    rw [hbase hcol] at hbit
    exact ⟨col, row, hcol, hrow, hpx, hpy, hbit⟩
  · rintro ⟨col, row, hcol, hrow, rfl, rfl, hbit⟩
    refine ⟨col, hcol, row, hrow, ?_, rfl⟩
    rw [hbase hcol]
    exact hbit

/-! ### The pen of a text -/

theorem textWidth_cons (gap : Nat) (F : Nat → Nat) (c : Nat) (cs : List Nat) :
    textWidth gap F (c :: cs) = advance gap F c + textWidth gap F cs := List.sum_cons

/-- After the first part of a text the pen has moved by its width (R175, R181). -/
theorem stringPoints_append (gap : Nat) (F : Nat → Nat) (y pen : Int) (cs ds : List Nat) :
    stringPoints gap F y pen (cs ++ ds) =
      stringPoints gap F y pen cs ++ stringPoints gap F y (pen + textWidth gap F cs) ds := by
  induction cs generalizing pen with
  | nil => simp [stringPoints, textWidth]
  | cons c cs ih =>
    rw [List.cons_append, stringPoints, stringPoints, ih, textWidth_cons, Nat.cast_add, add_assoc, List.append_assoc]

/-- Settles O27: the pen's moves add up. -/
theorem stringPenAccumulatesAdvances : Obligations.StringPenAccumulatesAdvances := by
  intro gap F y pen width
  refine ⟨rfl, fun c => List.append_nil _, fun c => ?_, fun _ => rfl, stringPoints_append gap F y pen⟩
  have hwidth : charWidth F c = width c := charWidth_eq F c
  rw [advance, hwidth]

/-! ### The commands -/

theorem needFont_selected {s : State} (h : s.font.sel = true) (ms : List Micro) : needFont s ms = ms := if_pos h

theorem needFont_unselected {s : State} (h : s.font.sel = false) (ms : List Micro) :
    needFont s ms = [.reg (.flag .noFont)] := if_neg (by simp [h])

/-- Settles O22: the command writes two registers and no byte. -/
theorem selectFontStoresReference : Obligations.SelectFontStoresReference :=
  fun _ _ hf => exec_of_runMicros (by simp) hf (by simp [isReconfig]) rfl

/-- Settles O23: the command writes one register. -/
theorem charWidthPutsWidthInRes : Obligations.CharWidthPutsWidthInRes := by
  intro s c hf hsel width
  have hwidth : charWidth s.fontByte c.toNat = width := charWidth_eq s.fontByte c.toNat
  refine exec_of_runMicros (by simp) hf (by simp [isReconfig]) ?_
  rw [drawProgram, charWidthProgram, needFont_selected hsel, hwidth, ← BitVec.ofInt_natCast]
  rfl

/-- Settles O24: the glyph is painted, then one register is written. -/
theorem drawCharPaintsGlyph : Obligations.DrawCharPaintsGlyph := by
  intro s x y c m ⟨hf, hok⟩ hsel width
  obtain ⟨u, hu, hdrawn⟩ := runMicros_drawAll hok m (fun _ => true) (charPoints s.fontByte x y c.toNat)
  refine ⟨u, hdrawn.painted, exec_of_runMicros (by simp) hf (by simp [isReconfig]) ?_⟩
  rw [drawProgram, drawCharProgram, needFont_selected hsel, ← BitVec.ofInt_natCast]
  exact runMicros_append_ok.2 ⟨u, hu, rfl⟩

/-- Settles O25: the command paints the points of its text. -/
theorem drawStringPaintsText : Obligations.DrawStringPaintsText := by
  intro s x y addr n m hlive hsel
  refine exec_plotAll_paints (by simp) rfl hlive ?_
  rw [drawProgram, drawStringProgram, needFont_selected hsel, State.textAt, List.map_map]
  rfl

/-- A command that needs a font writes only `STATUS.NOFONT` without one (R183). -/
theorem exec_noFont {i : Instr} {s : State} {ms : List Micro} (hf : s.sticky.fault = false)
    (hsel : s.font.sel = false) (hi : i ≠ .scan) (hr : isReconfig i = false)
    (hprogram : drawProgram i s = needFont s ms) : exec i s = .next (s.refuse .noFont) :=
  exec_of_runMicros hi hf (by simp [hr]) (by rw [hprogram, needFont_unselected hsel]; rfl)

/-- Settles O28: the program of each of the four commands is guarded by `needFont`. -/
theorem noFontRefusesGlyphCommands : Obligations.NoFontRefusesGlyphCommands :=
  fun _ hf hsel =>
    ⟨fun _ => exec_noFont hf hsel (by simp) rfl rfl,
      fun _ _ _ _ => exec_noFont hf hsel (by simp) rfl rfl,
      fun _ _ _ _ _ => exec_noFont hf hsel (by simp) rfl rfl,
      fun _ _ _ _ => exec_noFont hf hsel (by simp) rfl rfl⟩

end Sys2Proof.Proofs
end

section
/-! PROOFS. The marquee's rendering (43_marquee.md R204, R207): moving a text moves its points, a text lies within its
extent, and the copies RenderMarquee draws are the periodic repetition of the text's bitmap. -/

namespace Sys2Proof.Proofs

open Sys2Proof.Machine Sys2Proof.Laws

/-! ### The text bitmap -/

section
variable {gap : Nat} {F : Nat → Nat}

theorem mem_charPoints_add (x y u v a b : Int) (c : Nat) :
    (u + a, v + b) ∈ charPoints F (x + a) (y + b) c ↔ (u, v) ∈ charPoints F x y c := by
  simp only [mem_charPoints, Prod.mk.injEq, add_right_comm _ a, add_right_comm _ b, add_left_inj]

/-- A text drawn elsewhere has its points moved by as much (R181). -/
theorem mem_stringPoints_add (y pen u v a b : Int) (text : List Nat) :
    (u + a, v + b) ∈ stringPoints gap F (y + b) (pen + a) text ↔ (u, v) ∈ stringPoints gap F y pen text := by
  induction text generalizing pen with
  | nil => simp [stringPoints]
  | cons c cs ih => simp only [stringPoints, List.mem_append, mem_charPoints_add, add_right_comm _ a, ih]

/-- A text writes a pixel when its bitmap has the bit that far from the place it is drawn at (R207). -/
theorem mem_stringPoints_iff_textBit (x y left top : Int) (text : List Nat) :
    (x, y) ∈ stringPoints gap F top left text ↔ textBit gap F text (x - left) (y - top) = true := by
  rw [textBit, decide_eq_true_iff, ← mem_stringPoints_add 0 0 _ _ left top]
  simp only [sub_add_cancel, zero_add]

/-- The pen moves over every column of the character (R175). -/
theorem charWidth_le_advance (gap : Nat) (F : Nat → Nat) (c : Nat) : charWidth F c ≤ advance gap F c := by
  unfold advance
  split <;> omega

theorem mem_stringPoints_bounds {y pen : Int} {text : List Nat} {p : Point} (h : p ∈ stringPoints gap F y pen text) :
    (pen ≤ p.1 ∧ p.1 < pen + textWidth gap F text) ∧ y ≤ p.2 ∧ p.2 < y + F 3 := by
  induction text generalizing pen with
  | nil => simp [stringPoints] at h
  | cons c cs ih =>
    have hwidth := charWidth_le_advance gap F c
    rw [textWidth_cons]
    rcases List.mem_append.1 h with h | h
    · obtain ⟨col, hcol, row, hrow, _, rfl⟩ := mem_charPoints.1 h
      refine ⟨⟨?_, ?_⟩, ?_, ?_⟩ <;> push_cast <;> omega
    · have := ih h
      omega

/-- The bitmap is blank outside the text's extent (R202, R207). -/
theorem textBit_bounds {text : List Nat} {u v : Int} (h : textBit gap F text u v = true) :
    (0 ≤ u ∧ u < textWidth gap F text) ∧ 0 ≤ v ∧ v < F 3 := by
  simpa only [zero_add] using mem_stringPoints_bounds (of_decide_eq_true h)

end

/-! ### The copies -/

/-- The first copy that reaches the edge of the display at 0 (R204). -/
def firstCopy (o : Int) : Int := if 0 < o then -1 else 0

/-- The last copy that starts on a display of `d` columns or rows (R204). -/
def lastCopy (d : Nat) (o m : Int) : Int := ((d : Int) - 1 - o) / m

/-- A copy that `RenderMarquee` draws writes the point, before it is cut to the window (R204). -/
def OnCopy (gap : Nat) (F : Nat → Nat) (g : Geometry) (v : MarqueeView) (p : Point) : Prop :=
  v.visible = true ∧ ∃ ky ∈ intRange (firstCopy v.oy) (lastCopy g.dh v.oy v.mh),
    ∃ kx ∈ intRange (firstCopy v.ox) (lastCopy g.dw v.ox v.mw),
      p ∈ stringPoints gap F (v.oy + ky * v.mh) (v.ox + kx * v.mw) v.text

theorem visible_iff {v : MarqueeView} : v.visible = true ↔ v.text ≠ [] ∧ 0 < v.mw ∧ 0 < v.mh := decide_eq_true_iff

section
variable {gap : Nat} {F : Nat → Nat} {g : Geometry} {v : MarqueeView}

theorem mem_renderPoints {win : Window} {p : Point} :
    p ∈ renderPoints gap F g v win ↔ win.has p = true ∧ OnCopy gap F g v p := by
  unfold renderPoints OnCopy firstCopy lastCopy
  split
  · next hv => simp only [List.mem_flatMap, List.mem_filter, hv, true_and]; tauto
  · next hv => simp [hv]

theorem window_has_iff {x y : Int} : g.window.has (x, y) = true ↔ g.inDisplay x y := by
  rw [Window.has, decide_eq_true_iff]
  simp only [Geometry.window, Geometry.inDisplay]
  omega

theorem mem_renderPoints_window {x y : Int} (hd : g.inDisplay x y) :
    (x, y) ∈ renderPoints gap F g v g.window ↔ OnCopy gap F g v (x, y) := by
  rw [mem_renderPoints, window_has_iff, and_iff_right hd]

/-- A canonical offset of a positive extent lies within it (R203). -/
theorem canon_bounds {o m : Int} (hm : 0 < m) (ho : o = canon o m) : 0 ≤ o ∧ o < m := by
  rw [canon, if_pos hm] at ho
  exact ⟨ho ▸ Int.emod_nonneg o hm.ne', ho ▸ Int.emod_lt_of_pos o hm⟩

/-- The copy over a column or row of the display is one of those drawn (R204). -/
theorem copy_mem_intRange {x o m : Int} {d : Nat} (hm : 0 < m) (ho : o < m) (hx : 0 ≤ x) (hd : x < d) :
    (x - o) / m ∈ intRange (firstCopy o) (lastCopy d o m) := by
  refine mem_intRange.2 ⟨?_, Int.ediv_le_ediv hm (by omega)⟩
  rw [firstCopy, Int.le_ediv_iff_mul_le hm]
  split <;> omega

/-- The place of a pixel within the copy that starts at `o + k * m`. -/
theorem sub_copy_eq_emod {x o m k : Int} (hlow : 0 ≤ x - (o + k * m)) (hhigh : x - (o + k * m) < m) :
    x - (o + k * m) = (x - o) % m := by
  rw [← Int.emod_eq_of_lt hlow hhigh, ← sub_sub, Int.sub_mul_emod_self_right]

/-- A text that has columns has characters (R202). -/
theorem text_ne_nil_of_width (hmw : v.mw = textWidth gap F v.text) (hw : 0 < v.mw) : v.text ≠ [] := by
  intro hnil
  rw [hmw, hnil] at hw
  exact absurd hw (lt_irrefl 0)

/-- The frame, pixel by pixel (R207). -/
theorem onCopy_iff_textBit (hmw : v.mw = textWidth gap F v.text) (hmh : v.mh = F 3) (hw : 0 < v.mw) (hh : 0 < v.mh)
    (hox : v.ox = canon v.ox v.mw) (hoy : v.oy = canon v.oy v.mh) {x y : Int} (hd : g.inDisplay x y) :
    OnCopy gap F g v (x, y) ↔ textBit gap F v.text ((x - v.ox) % v.mw) ((y - v.oy) % v.mh) = true := by
  constructor
  · rintro ⟨_, ky, _, kx, _, hp⟩
    have hbit := (mem_stringPoints_iff_textBit x y _ _ v.text).1 hp
    obtain ⟨⟨hu, huw⟩, hv, hvh⟩ := textBit_bounds hbit
    rwa [sub_copy_eq_emod hu (hmw ▸ huw), sub_copy_eq_emod hv (hmh ▸ hvh)] at hbit
  · intro hbit
    obtain ⟨hx, hy, hxw, hyh⟩ := hd
    refine ⟨visible_iff.2 ⟨text_ne_nil_of_width hmw hw, hw, hh⟩,
      _, copy_mem_intRange hh (canon_bounds hh hoy).2 hy hyh,
      _, copy_mem_intRange hw (canon_bounds hw hox).2 hx hxw, ?_⟩
    rw [mem_stringPoints_iff_textBit]
    rwa [Int.emod_def, Int.emod_def, sub_sub, sub_sub, mul_comm v.mw, mul_comm v.mh] at hbit

end

/-- Settles O32: exactly one copy covers each pixel of the display. -/
theorem frameRepeatsTextBitmap : Obligations.FrameRepeatsTextBitmap := by
  intro gap F g v hmw hmh hw hh hox hoy x y hd
  rw [mem_renderPoints_window hd, onCopy_iff_textBit hmw hmh hw hh hox hoy hd]

end Sys2Proof.Proofs
end

section
/-! PROOFS. Repainting the picture (20_memory.md R127): operations that write nothing but pixels of the display, and
what they make of the picture. -/

namespace Sys2Proof.Proofs

open Sys2Proof.Machine Sys2Proof.Laws

/-- `t` is `s` with the picture `f`; nothing but bytes of the buffer has changed. -/
structure Repainted (f : Int → Int → Bool) (s t : State) : Prop where
  frame : t = { s with buf := t.buf }
  pixels : ∀ x y, s.geom.inDisplay x y → t.getPixel x y = f x y
  above : ∀ a, s.geom.bufSize ≤ a → t.byteAt a = s.byteAt a

section
variable {f f' : Int → Int → Bool} {s t u : State}

theorem Repainted.geom (h : Repainted f s t) : t.geom = s.geom := by
  rw [h.frame]

theorem Repainted.geomOk (h : Repainted f s t) (hs : s.geomOk) : t.geomOk := by
  rw [h.frame]
  exact hs

theorem Repainted.trans (h₁ : Repainted f s t) (h₂ : Repainted f' t u) : Repainted f' s u where
  frame := by
    rw [h₂.frame, h₁.frame]
  pixels x y hd := h₂.pixels x y (h₁.geom ▸ hd)
  above a ha := (h₂.above a (h₁.geom ▸ ha)).trans (h₁.above a ha)

theorem Repainted.congr (h : Repainted f s t) (hf : ∀ x y, s.geom.inDisplay x y → f x y = f' x y) :
    Repainted f' s t :=
  ⟨h.frame, fun x y hd => (h.pixels x y hd).trans (hf x y hd), h.above⟩

/-- `RES` is no part of the picture. -/
theorem Repainted.withRes (h : Repainted f s t) (r : BitVec 32) :
    Repainted f { s with res := r } { t with res := r } :=
  ⟨congrArg (fun u : State => { u with res := r }) h.frame, h.pixels, h.above⟩

/-! ### Painting in NORMAL mode -/

/-- Points painted in NORMAL mode are added to the picture (R122, R140). -/
theorem repainted_of_painted {ps : List Point} (hs : s.geomOk) (h : Painted .normal ps s t) :
    Repainted (fun x y => decide ((x, y) ∈ ps) || s.getPixel x y) s t where
  frame := h.frame
  pixels x y hd := by
    rw [h.pixels x y hd, paintBit, iterate_combine_normal]
    by_cases hp : (x, y) ∈ ps
    · rw [if_neg (List.count_pos_iff.2 hp).ne', decide_eq_true hp, Bool.true_or]
    · rw [if_pos (List.count_eq_zero.2 hp), decide_eq_false hp, Bool.false_or]
  above a ha := h.bytes a fun _ _ hd => pixelByte_ne_of_bufSize_le hs hd ha

theorem runMicros_plotAll (hs : s.geomOk) (mode : Mode) (ps : List Point) :
    ∃ t, runMicros (plotAll mode ps) s = .ok t ∧ Painted mode ps s t := by
  obtain ⟨t, ht, hdrawn⟩ := runMicros_drawAll hs mode (fun _ => true) ps
  exact ⟨t, ht, hdrawn.painted⟩

/-- A buffer whose every byte is 0 is a blank picture (R124). -/
theorem Rewritten.repainted_blank (hs : s.geomOk) (h : Rewritten (List.range s.geom.bufSize) (fun _ => 0) s t) :
    Repainted (fun _ _ => false) s t where
  frame := by
    obtain ⟨_, rfl⟩ := h.frame
    rfl
  pixels x y hd := by
    obtain ⟨_, _, hT, _⟩ := hs
    rw [State.getPixel, h.geom, h.inside _ (List.mem_range.2 (pixelByte_lt_bufSize hT hd))]
    simp [bitOf]
  above a ha := h.outside a (by simpa using ha)

/-- Points painted over an erased buffer are the whole picture, whatever it was (R205, R206). -/
theorem runMicros_erase_plotAll (hs : s.geomOk) (ps : List Point) :
    ∃ t, runMicros (fillAll s.geom 0 ++ plotAll .normal ps) s = .ok t ∧
      Repainted (fun x y => decide ((x, y) ∈ ps)) s t := by
  obtain ⟨u, hu, hblank⟩ := runMicros_fillAll s 0
  have hsu := hblank.repainted_blank hs
  obtain ⟨t, ht, hpainted⟩ := runMicros_plotAll (hsu.geomOk hs) .normal ps
  refine ⟨t, runMicros_append_ok.2 ⟨u, hu, ht⟩,
    (hsu.trans (repainted_of_painted (hsu.geomOk hs) hpainted)).congr fun x y hd => ?_⟩
  rw [hsu.pixels x y hd, Bool.or_false]

end

end Sys2Proof.Proofs
end

section
/-! PROOFS. DRAWMARQUEE (43_marquee.md R201 to R203, R210): the capped copy, the registers it leaves, the rendering. -/

namespace Sys2Proof.Proofs

open Sys2Proof.Machine Sys2Proof.Laws

/-! ### The text and the extent -/

theorem length_textAt (s : State) (addr : Word) (n : Nat) : (s.textAt addr n).length = n := by
  simp [State.textAt]

/-- A list that agrees with `bs` as far as `bs` goes begins with it. -/
theorem take_eq_of_getElem? {l bs : List Byte} (h : ∀ i, i < bs.length → l[i]? = some (bs.getD i 0)) :
    l.take bs.length = bs := by
  refine List.ext_getElem? fun i => ?_
  rw [List.getElem?_take]
  split
  · next hi => rw [h i hi, List.getD_eq_getElem _ _ hi, List.getElem?_eq_getElem hi]
  · next hi => rw [List.getElem?_eq_none (not_lt.1 hi)]

/-- The writes of the first characters to `MTEXT` leave the others and every other register (R201). -/
theorem runMicros_mtext (c : Nat → Byte) (s : State) {n : Nat} (hn : n ≤ 255) :
    ∃ text : Vector Byte 255, runMicros ((List.range n).map fun i => .reg (.mtext i (c i))) s =
        .ok { s with marq := { s.marq with text := text } } ∧
      ∀ i, text.toList[i]? = if i < n then some (c i) else s.marq.text.toList[i]? := by
  induction n with
  | zero => exact ⟨s.marq.text, rfl, by simp⟩
  | succ n ih =>
    obtain ⟨text, hrun, htext⟩ := ih (by omega)
    refine ⟨text.setIfInBounds n (c n), ?_, fun i => ?_⟩
    · rw [List.range_succ, List.map_append]
      exact runMicros_append_ok.2 ⟨_, hrun, rfl⟩
    · have hset : (text.setIfInBounds n (c n)).toList = text.toList.set n (c n) := by simp
      rw [hset]
      by_cases hi : n = i
      · subst hi
        rw [List.getElem?_set_self (by simpa using hn), if_pos (Nat.lt_succ_self n)]
      · rw [List.getElem?_set_ne hi, htext]
        exact if_congr (by omega) rfl rfl

/-- The registers of a marquee just started with this text buffer and this extent (R201). -/
def startedRegs (len : Nat) (text : Vector Byte 255) (mw mh : Nat) (left top : Int) : MarqueeRegs where
  act := true
  len := BitVec.ofNat 8 len
  text := text
  mw := BitVec.ofNat 32 mw
  mh := BitVec.ofNat 32 mh
  ox := BitVec.ofInt 32 (canon left (BitVec.ofNat 32 mw).toInt)
  oy := BitVec.ofInt 32 (canon top (BitVec.ofNat 32 mh).toInt)

theorem toInt_ofNat_of_lt {n : Nat} (h : n < 2 ^ 31) : (BitVec.ofNat 32 n).toInt = n := by
  rw [← BitVec.ofInt_natCast, BitVec.toInt_ofInt, Int.bmod_eq_of_le] <;> omega

/-- The registers hold the marquee they were started with, as long as its text and extent fit (R31, R202). -/
theorem view_startedRegs {bs : List Byte} {text : Vector Byte 255} {mw mh : Nat} (left top : Int)
    (htake : text.toList.take bs.length = bs) (hlen : bs.length ≤ 255) (hmw : mw < 2 ^ 31) (hmh : mh < 2 ^ 31) :
    (startedRegs bs.length text mw mh left top).view =
      { text := bs.map BitVec.toNat, mw := mw, mh := mh, ox := canon left mw, oy := canon top mh } := by
  have hlen' : (BitVec.ofNat 8 bs.length).toNat = bs.length := by
    rw [BitVec.toNat_ofNat, Nat.mod_eq_of_lt (by omega)]
  simp only [MarqueeRegs.view, startedRegs, hlen', htake, toInt_ofInt_canon]
  rw [toInt_ofNat_of_lt hmw, toInt_ofNat_of_lt hmh]

theorem fontByte_lt (s : State) (k : Nat) : s.fontByte k < 256 := BitVec.isLt _

theorem charWidth_lt (s : State) (c : Nat) : charWidth s.fontByte c < 256 := by
  rw [charWidth_eq]
  split_ifs
  · decide
  · exact fontByte_lt s _
  · exact fontByte_lt s _

/-- The bound of R202 on the extent. -/
theorem textWidth_le (s : State) (text : List Nat) : textWidth s.charGap s.fontByte text ≤ text.length * 256 := by
  refine (List.sum_le_card_nsmul _ 256 fun w hw => ?_).trans_eq (by simp)
  obtain ⟨c, _, rfl⟩ := List.mem_map.1 hw
  have hwidth := charWidth_lt s c
  have hgap : s.charGap < 2 := s.env.cfg.charGap.isLt
  rw [advance]
  split <;> omega

/-! ### The command -/

/-- The register writes of DRAWMARQUEE (R201). -/
def startWrites (addr : Word) (n : BitVec 16) (left top : Int) (s : State) : List Micro :=
  (if marqueeCap < n.toNat then [.reg (.flag .mTrunc)] else []) ++
    ((List.range (marqueeLen n)).map (fun i => .reg (.mtext i ((s.textAt addr (marqueeLen n)).getD i 0))) ++
      [.reg (.mlen (BitVec.ofNat 8 (marqueeLen n))),
        .reg (.mwidth (textWidth s.charGap s.fontByte ((s.textAt addr (marqueeLen n)).map BitVec.toNat))),
        .reg (.mheight (s.fontByte 3)), .reg (.offsetX left), .reg (.offsetY top), .reg .mact])

/-- DRAWMARQUEE writes its registers, then renders (R201). -/
theorem drawMarqueeProgram_selected {s : State} (h : s.font.sel = true) (addr : Word) (n : BitVec 16)
    (left top : Int) : drawMarqueeProgram addr n left top s =
      startWrites addr n left top s ++ s.render (s.newMarquee addr n left top) s.geom.window := by
  simp only [drawMarqueeProgram, needFont_selected h, startWrites, List.append_assoc]

/-- `STATUS.MTRUNC` records a text that is cut (R210). -/
def truncSticky (n : BitVec 16) (b : Sticky) : Sticky := if 255 < n.toNat then b.set .mTrunc else b

theorem runMicros_startedRegs (s : State) (len mw mh : Nat) (left top : Int) :
    runMicros [.reg (.mlen (BitVec.ofNat 8 len)), .reg (.mwidth mw), .reg (.mheight mh), .reg (.offsetX left),
      .reg (.offsetY top), .reg .mact] s =
        .ok { s with marq := startedRegs len s.marq.text mw mh left top } := by
  simp only [runMicros, runMicro, applyReg, MarqueeRegs.withOx, MarqueeRegs.withOy, startedRegs]

/-- What the register writes of DRAWMARQUEE leave (R201, R210). -/
theorem runMicros_startWrites (s : State) (addr : Word) (n : BitVec 16) (left top : Int) :
    ∃ m : MarqueeRegs, runMicros (startWrites addr n left top s) s =
        .ok { s with marq := m, sticky := truncSticky n s.sticky } ∧
      m.act = true ∧ m.len.toNat = min n.toNat 255 ∧ m.view = s.newMarquee addr n left top ∧
      ∀ i, min n.toNat 255 ≤ i → m.text.toList[i]? = s.marq.text.toList[i]? := by
  have hflag : runMicros (if marqueeCap < n.toNat then [.reg (.flag .mTrunc)] else []) s =
      .ok { s with sticky := truncSticky n s.sticky } := by
    unfold truncSticky marqueeCap
    split <;> rfl
  have hlen : marqueeLen n ≤ 255 := min_le_right _ _
  have hbs := length_textAt s addr (marqueeLen n)
  obtain ⟨text, hrun, htext⟩ := runMicros_mtext (fun i => (s.textAt addr (marqueeLen n)).getD i 0)
    { s with sticky := truncSticky n s.sticky } hlen
  refine ⟨startedRegs (marqueeLen n) text _ _ left top,
    runMicros_append_ok.2 ⟨_, hflag, runMicros_append_ok.2 ⟨_, hrun, runMicros_startedRegs _ _ _ _ _ _⟩⟩,
    rfl, ?_, ?_, fun i hi => ?_⟩
  · exact (BitVec.toNat_ofNat ..).trans (Nat.mod_eq_of_lt (by omega))
  · have hwidth := textWidth_le s ((s.textAt addr (marqueeLen n)).map BitVec.toNat)
    have hheight := fontByte_lt s 3
    rw [List.length_map, hbs] at hwidth
    have htake := take_eq_of_getElem? (bs := s.textAt addr (marqueeLen n)) (l := text.toList) fun i hi => by
      rw [htext, if_pos (hbs ▸ hi)]
    have hview := view_startedRegs (mh := s.fontByte 3) left top htake (hbs.trans_le hlen)
      (hwidth.trans_lt (by omega)) (hheight.trans (by decide))
    rwa [hbs] at hview
  · exact (htext i).trans (if_neg (not_lt.2 hi))

/-- Settles O29: the register writes, then the rendering painted over what the buffer holds. -/
theorem drawMarqueeStartsMarquee : Obligations.DrawMarqueeStartsMarquee := by
  intro s addr n left top ⟨hf, hok⟩ hsel
  obtain ⟨m, hwrites, hact, hlen, hview, htail⟩ := runMicros_startWrites s addr n left top
  obtain ⟨t, ht, hpainted⟩ := runMicros_plotAll (s := { s with marq := m, sticky := truncSticky n s.sticky }) hok
    .normal (renderPoints s.charGap s.fontByte s.geom (s.newMarquee addr n left top) s.geom.window)
  have hmarq : t.marq = m := by rw [hpainted.frame]
  have hsticky : t.sticky = truncSticky n s.sticky := by rw [hpainted.frame]
  refine ⟨t, exec_of_runMicros (by simp) hf (by simp [isReconfig]) ?_, ?_⟩
  · rw [drawProgram, drawMarqueeProgram_selected hsel]
    exact runMicros_append_ok.2 ⟨_, hwrites, ht⟩
  · rw [hmarq, hsticky]
    exact ⟨hact, hlen, hview, htail, rfl, hpainted⟩

end Sys2Proof.Proofs
end

section
/-! PROOFS. STEPMARQUEE (43_marquee.md R205, R206): one step in its cases, and steps that add up to the extent. -/

namespace Sys2Proof.Proofs

open Sys2Proof.Machine Sys2Proof.Laws

/-! ### Moving the offsets (R203) -/

theorem canon_canon_add (v d m : Int) : canon (canon v m + d) m = canon (v + d) m := by
  unfold canon
  split
  · exact Int.emod_add_emod v m d
  · rfl

/-- A canonical offset moved by a multiple of the extent is the same offset (R206). -/
theorem canon_add_of_dvd {v d m : Int} (hv : v = canon v m) (hd : m ∣ d) : canon (v + d) m = v := by
  obtain ⟨k, rfl⟩ := hd
  conv_rhs => rw [hv]
  unfold canon
  split
  · exact Int.add_mul_emod_self_left v m k
  · rfl

theorem ok_iff_view {m : MarqueeRegs} :
    m.ok ↔ m.view.ox = canon m.view.ox m.view.mw ∧ m.view.oy = canon m.view.oy m.view.mh := Iff.rfl

theorem moved_moved (v : MarqueeView) (dx dy dx' dy' : Int) :
    (v.moved dx dy).moved dx' dy' = v.moved (dx + dx') (dy + dy') := by
  simp only [MarqueeView.moved, canon_canon_add, add_assoc]

/-- The marquee registers after a step (R205). -/
def movedRegs (m : MarqueeRegs) (dx dy : Int) : MarqueeRegs :=
  (m.withOx (m.view.ox + dx)).withOy (m.view.oy + dy)

theorem view_movedRegs (m : MarqueeRegs) (dx dy : Int) : (movedRegs m dx dy).view = m.view.moved dx dy := by
  simp only [MarqueeRegs.view, MarqueeView.moved, movedRegs, MarqueeRegs.withOx, MarqueeRegs.withOy,
    toInt_ofInt_canon]

theorem view_text_ne_nil_iff {m : MarqueeRegs} : m.view.text ≠ [] ↔ m.len ≠ 0 := by
  have hnil : m.view.text = [] ↔ m.len.toNat = 0 := by
    simp [MarqueeRegs.view, ← List.length_eq_zero_iff]
  rw [ne_eq, hnil]
  exact not_congr (BitVec.toNat_inj (y := (0 : Byte)))

theorem stepChanges_iff {v : MarqueeView} {dx dy : Int} : v.stepChanges dx dy = true ↔
    v.visible = true ∧ ((v.moved dx dy).ox ≠ v.ox ∨ (v.moved dx dy).oy ≠ v.oy) := by
  rw [MarqueeView.stepChanges, Bool.and_eq_true, decide_eq_true_iff]

theorem renderPoints_of_not_visible {v : MarqueeView} (h : ¬ v.visible = true) (gap : Nat) (F : Nat → Nat)
    (g : Geometry) (win : Window) : renderPoints gap F g v win = [] := if_neg h

/-- A step that does not redraw leaves the rendering: there is none, or the offsets stay (R205). -/
theorem renderPoints_moved_of_not_stepChanges {v : MarqueeView} {dx dy : Int} (h : ¬ v.stepChanges dx dy = true)
    (gap : Nat) (F : Nat → Nat) (g : Geometry) (win : Window) :
    renderPoints gap F g (v.moved dx dy) win = renderPoints gap F g v win := by
  by_cases hv : v.visible = true
  · simp only [stepChanges_iff, hv, true_and, not_or, not_not] at h
    obtain ⟨hx, hy⟩ := h
    have hmoved : v.moved dx dy = v := by
      calc v.moved dx dy = { v with ox := (v.moved dx dy).ox, oy := (v.moved dx dy).oy } := rfl
        _ = v := by rw [hx, hy]
    rw [hmoved]
  · rw [renderPoints_of_not_visible hv, renderPoints_of_not_visible (v := v.moved dx dy) hv]

/-! ### One step -/

section
variable {s : State} {dx dy : Int}

/-- In Idle only `RES` is written (R205). -/
theorem exec_stepMarquee_idle (hf : s.sticky.fault = false) (hidle : s.marq.act = false) :
    exec (.stepMarquee dx dy) s = .next { s with res := 0 } := by
  refine exec_of_runMicros (by simp) hf (by simp [isReconfig]) ?_
  rw [drawProgram, stepMarqueeProgram, if_neg (by simp [hidle])]
  rfl

/-- The two register writes an active step starts with (R205). -/
def offsetWrites (m : MarqueeRegs) (dx dy : Int) : List Micro :=
  [.reg (.offsetX (m.view.ox + dx)), .reg (.offsetY (m.view.oy + dy))]

theorem stepMarqueeProgram_still (hact : s.marq.act = true) (hstill : ¬ s.marq.view.stepChanges dx dy = true) :
    stepMarqueeProgram dx dy s = offsetWrites s.marq dx dy ++ [.reg (.res 0)] := by
  simp only [stepMarqueeProgram, if_pos hact, if_neg hstill]
  rfl

theorem stepMarqueeProgram_redraws (hact : s.marq.act = true) (hch : s.marq.view.stepChanges dx dy = true) :
    stepMarqueeProgram dx dy s = offsetWrites s.marq dx dy ++
      ((fillAll s.geom 0 ++ s.render (s.marq.view.moved dx dy) s.geom.window) ++ [.reg (.res 1)]) := by
  simp only [stepMarqueeProgram, if_pos hact, if_pos hch, List.append_assoc]
  rfl

/-- An active step moves the offsets, then does the rest (R205). -/
theorem exec_stepMarquee_active {ms : List Micro} {t : State} (hf : s.sticky.fault = false)
    (hprogram : stepMarqueeProgram dx dy s = offsetWrites s.marq dx dy ++ ms)
    (h : runMicros ms { s with marq := movedRegs s.marq dx dy } = .ok t) :
    exec (.stepMarquee dx dy) s = .next t := by
  refine exec_of_runMicros (by simp) hf (by simp [isReconfig]) ?_
  rw [drawProgram, hprogram]
  exact runMicros_append_ok.2 ⟨_, rfl, h⟩

/-- A step that changes no offset, or that has nothing to draw (R205). -/
theorem exec_stepMarquee_still (hf : s.sticky.fault = false) (hact : s.marq.act = true)
    (hstill : ¬ s.marq.view.stepChanges dx dy = true) :
    exec (.stepMarquee dx dy) s = .next { s with marq := movedRegs s.marq dx dy, res := 0 } :=
  exec_stepMarquee_active hf (stepMarqueeProgram_still hact hstill) rfl

/-- A step that redraws replaces the picture by the rendering at the new offset (R205, R206). -/
theorem exec_stepMarquee_redraws (hs : s.live) (hact : s.marq.act = true)
    (hch : s.marq.view.stepChanges dx dy = true) :
    ∃ t, exec (.stepMarquee dx dy) s = .next t ∧
      Repainted (fun x y => decide ((x, y) ∈
          renderPoints s.charGap s.fontByte s.geom (s.marq.view.moved dx dy) s.geom.window))
        { s with marq := movedRegs s.marq dx dy, res := 1 } t := by
  obtain ⟨hf, hok⟩ := hs
  obtain ⟨t, ht, hpainted⟩ := runMicros_erase_plotAll (s := { s with marq := movedRegs s.marq dx dy }) hok
    (renderPoints s.charGap s.fontByte s.geom (s.marq.view.moved dx dy) s.geom.window)
  exact ⟨{ t with res := 1 },
    exec_stepMarquee_active hf (stepMarqueeProgram_redraws hact hch) (runMicros_append_ok.2 ⟨t, ht, rfl⟩),
    hpainted.withRes 1⟩

/-- A picture that is the rendering of the registers is their frame (R206, R207). -/
theorem Repainted.showsFrame {t : State} (h : Repainted (fun x y => decide ((x, y) ∈
      renderPoints s.charGap s.fontByte s.geom s.marq.view s.geom.window)) s t) : t.showsFrame := by
  intro x y hd
  rw [h.geom] at hd
  rw [h.pixels x y hd, h.frame]
  rfl

theorem Repainted.showsFrame_moved {r : BitVec 32} {t : State} (h : Repainted (fun x y => decide ((x, y) ∈
      renderPoints s.charGap s.fontByte s.geom (s.marq.view.moved dx dy) s.geom.window))
        { s with marq := movedRegs s.marq dx dy, res := r } t) : t.showsFrame := by
  rw [← view_movedRegs] at h
  exact Repainted.showsFrame (s := { s with marq := movedRegs s.marq dx dy, res := r }) h

end

/-- Settles O30: the program of each case. -/
theorem stepMarqueeCases : Obligations.StepMarqueeCases := by
  intro s dx dy hs nx ny moved changed
  have hchanged : changed ↔ s.marq.view.stepChanges dx dy = true := by
    rw [stepChanges_iff, visible_iff, view_text_ne_nil_iff, and_assoc, and_assoc]
    rfl
  refine ⟨exec_stepMarquee_idle hs.1, fun hact hstill => exec_stepMarquee_still hs.1 hact (mt hchanged.2 hstill),
    fun hact hch => ?_⟩
  obtain ⟨t, ht, hpainted⟩ := exec_stepMarquee_redraws hs hact (hchanged.1 hch)
  have hview := view_movedRegs s.marq dx dy
  have hmarq : t.marq = movedRegs s.marq dx dy := by rw [hpainted.frame]
  refine ⟨t, ht, hpainted.frame, ?_, ?_, hpainted.showsFrame_moved, hpainted.above⟩
  · rw [hmarq]
    exact congrArg MarqueeView.ox hview
  · rw [hmarq]
    exact congrArg MarqueeView.oy hview

/-! ### Many steps (R206) -/

/-- `t` is `s` with its marquee moved by `(dx, dy)`: only the marquee, `RES` and the buffer may differ. -/
structure Stepped (dx dy : Int) (s t : State) : Prop where
  frame : t = { s with marq := t.marq, res := t.res, buf := t.buf }
  act : t.marq.act = s.marq.act
  view : t.marq.view = s.marq.view.moved dx dy

theorem Stepped.geom {dx dy : Int} {s t : State} (h : Stepped dx dy s t) : t.geom = s.geom := by
  rw [h.frame]

theorem Stepped.live {dx dy : Int} {s t : State} (h : Stepped dx dy s t) (hs : s.live) : t.live := by
  rw [h.frame]
  exact hs

theorem Stepped.trans {dx dy dx' dy' : Int} {s t u : State} (h₁ : Stepped dx dy s t) (h₂ : Stepped dx' dy' t u) :
    Stepped (dx + dx') (dy + dy') s u where
  frame := by
    rw [h₂.frame, h₁.frame]
  act := h₂.act.trans h₁.act
  view := by rw [h₂.view, h₁.view, moved_moved]

/-- The offsets of a marquee that has moved are canonical (R203). -/
theorem Stepped.ok {dx dy : Int} {s t : State} (h : Stepped dx dy s t) : t.marq.ok :=
  ok_iff_view.2 (h.view ▸ ⟨(canon_canon _ _).symm, (canon_canon _ _).symm⟩)

/-- The marquee is where it was, if its offsets are canonical and it moved by multiples of its extent (R206). -/
theorem moved_of_dvd {m : MarqueeRegs} (hm : m.ok) {dx dy : Int} (hx : m.mw.toInt ∣ dx) (hy : m.mh.toInt ∣ dy) :
    m.view.moved dx dy = m.view := by
  obtain ⟨hox, hoy⟩ := hm
  have hx' : canon (m.view.ox + dx) m.view.mw = m.view.ox := canon_add_of_dvd hox hx
  have hy' : canon (m.view.oy + dy) m.view.mh = m.view.oy := canon_add_of_dvd hoy hy
  rw [MarqueeView.moved, hx', hy']

/-- An active marquee that shows its frame shows the frame of its new offsets after a step. -/
theorem exec_stepMarquee_stepped {s : State} (hs : s.live) (hact : s.marq.act = true) (hshows : s.showsFrame)
    (dx dy : Int) : ∃ t, exec (.stepMarquee dx dy) s = .next t ∧ Stepped dx dy s t ∧ t.showsFrame := by
  have hview := view_movedRegs s.marq dx dy
  by_cases hch : s.marq.view.stepChanges dx dy = true
  · obtain ⟨t, ht, hpainted⟩ := exec_stepMarquee_redraws hs hact hch
    have hmarq : t.marq = movedRegs s.marq dx dy := by rw [hpainted.frame]
    refine ⟨t, ht, ⟨?_, by rw [hmarq]; rfl, by rw [hmarq, hview]⟩, hpainted.showsFrame_moved⟩
    rw [hpainted.frame]
  · refine ⟨_, exec_stepMarquee_still hs.1 hact hch, ⟨rfl, rfl, hview⟩, fun x y hd => (hshows x y hd).trans ?_⟩
    have hsame := renderPoints_moved_of_not_stepChanges hch s.charGap s.fontByte s.geom s.geom.window
    rw [← hview] at hsame
    rw [← hsame]
    rfl

/-- The same of every list of steps; the moves add up. -/
theorem stepMarquees_stepped (ds : List (Int × Int)) {s : State} (hs : s.live) (hact : s.marq.act = true)
    (hok : s.marq.ok) (hshows : s.showsFrame) :
    ∃ t, stepMarquees ds s = .next t ∧ Stepped (ds.map Prod.fst).sum (ds.map Prod.snd).sum s t ∧ t.showsFrame := by
  induction ds generalizing s with
  | nil => exact ⟨s, rfl, ⟨rfl, rfl, (moved_of_dvd hok (dvd_zero _) (dvd_zero _)).symm⟩, hshows⟩
  | cons d ds ih =>
    obtain ⟨u, hu, hsu, hushows⟩ := exec_stepMarquee_stepped hs hact hshows d.1 d.2
    obtain ⟨t, ht, hut, htshows⟩ := ih (hsu.live hs) (hsu.act.trans hact) hsu.ok hushows
    refine ⟨t, ?_, ?_, htshows⟩
    · rw [stepMarquees, hu]
      exact ht
    · rw [List.map_cons, List.map_cons, List.sum_cons, List.sum_cons]
      exact hsu.trans hut

/-- A marquee drawn on a blank picture shows its frame (R201). -/
theorem showsFrame_of_painted_blank {s t : State} (hs : s.geomOk)
    (hblank : ∀ x y, s.geom.inDisplay x y → s.getPixel x y = false)
    (h : Painted .normal (renderPoints s.charGap s.fontByte s.geom s.marq.view s.geom.window) s t) :
    t.showsFrame :=
  Repainted.showsFrame ((repainted_of_painted hs h).congr fun x y hd => by rw [hblank x y hd, Bool.or_false])

/-- Settles O31: a marquee on a blank picture shows its frame, and so it does after every step. -/
theorem marqueeWrapIdempotence : Obligations.MarqueeWrapIdempotence := by
  intro s addr n left top hs hsel hblank
  obtain ⟨u, hu, hact, _, hview, _, hsticky, hpainted⟩ := drawMarqueeStartsMarquee s addr n left top hs hsel
  have hok : u.marq.ok := ok_iff_view.2 (hview ▸ ⟨(canon_canon _ _).symm, (canon_canon _ _).symm⟩)
  have hfault : u.sticky.fault = false := by
    rw [hsticky]
    split <;> exact hs.1
  have hgeom : u.geomOk := by
    rw [hpainted.frame]
    exact hs.2
  have hushows : u.showsFrame := by
    rw [← hview] at hpainted
    exact showsFrame_of_painted_blank (s := { s with marq := u.marq, sticky := u.sticky }) hs.2 hblank hpainted
  refine ⟨u, hu, fun ds hx hy => ?_⟩
  obtain ⟨t, ht, hut, htshows⟩ := stepMarquees_stepped ds ⟨hfault, hgeom⟩ hact hok hushows
  refine ⟨t, ht, hut.geom.symm, fun x y hd => ?_⟩
  have hview : t.marq.view = u.marq.view := hut.view.trans (moved_of_dvd hok hx hy)
  rw [hushows x y hd, htshows x y (hut.geom ▸ hd), hview, hut.frame]
  rfl

end Sys2Proof.Proofs
end

section
/-! PROOFS. STEPSPLITMARQUEE3 (43_marquee.md R208, R209): the band shifted row by row, its last column drawn, and the
frame one column further left. -/

namespace Sys2Proof.Proofs

open Sys2Proof.Machine Sys2Proof.Laws

/-! ### Shifting a row -/

section
variable {s : State}

/-- One pixel replaced in a repainted picture. -/
theorem Repainted.putPixel {f : Int → Int → Bool} {t : State} (h : Repainted f s t) (hs : s.geomOk) {x y : Int}
    (hd : s.geom.inDisplay x y) (n : Bool) :
    Repainted (fun x' y' => if (x', y') = (x, y) then n else f x' y') s (putPixel t x y n) where
  frame := congrArg (fun u : State => { u with buf := (Proofs.putPixel t x y n).buf }) h.frame
  pixels x' y' hd' := by
    obtain ⟨_, _, hT, _⟩ := h.geomOk hs
    split
    · next heq =>
      obtain ⟨rfl, rfl⟩ := Prod.mk.inj heq
      exact getPixel_putPixel_same t n
    · next hne => rw [getPixel_putPixel_other t n hT (h.geom ▸ hd) (h.geom ▸ hd') hne, h.pixels x' y' hd']
  above a ha := by
    rw [byteAt_putPixel_other t n (h.geom ▸ pixelByte_ne_of_bufSize_le hs hd ha), h.above a ha]

theorem runMicro_pixel_normal (hs : s.geomOk) {x y : Int} (hd : s.geom.inDisplay x y) (n : Bool) :
    runMicro (.pixel x y .normal n) s = .ok (putPixel s x y n) := by
  obtain ⟨_, _, hT, _⟩ := hs
  exact writePixel_on .normal n hd (pixelByte_lt_bufSize hT hd)

/-- One column of the shift takes the pixel to its right (R208). -/
theorem runMicro_copyLeft (hs : s.geomOk) {x y : Int} (hd : s.geom.inDisplay x y)
    (hd' : s.geom.inDisplay (x + 1) y) :
    runMicro (.copyLeft x y) s = .ok (putPixel s x y (s.getPixel (x + 1) y)) := by
  obtain ⟨_, _, hT, _⟩ := id hs
  simp only [runMicro, load_inRange (pixelByte_lt_bufSize hT hd')]
  exact runMicro_pixel_normal hs hd _

/-- The picture with the columns `lo` to `hi - 1` of row `y` moved one to the left (R208). -/
def rowMovedLeft (s : State) (y lo hi : Int) (x' y' : Int) : Bool :=
  if y' = y ∧ lo ≤ x' ∧ x' < hi then s.getPixel (x' + 1) y' else s.getPixel x' y'

/-- The first `n` columns of the shift: each reads a pixel that the earlier ones have not written. -/
theorem runMicros_copyLeft (hs : s.geomOk) {c y : Int} (hc : 0 ≤ c) (hy : 0 ≤ y) (hyh : y < s.geom.dh) {n : Nat}
    (hn : c + n < s.geom.dw) :
    ∃ t, runMicros ((List.range n).map fun k : Nat => .copyLeft (c + k) y) s = .ok t ∧
      Repainted (rowMovedLeft s y c (c + n)) s t := by
  induction n with
  | zero =>
    refine ⟨s, rfl, rfl, fun x' y' _ => ?_, fun _ _ => rfl⟩
    rw [rowMovedLeft, if_neg (by omega)]
  | succ n ih =>
    obtain ⟨u, hu, hsu⟩ := ih (by omega)
    have hd : s.geom.inDisplay (c + n) y := ⟨by omega, hy, by omega, hyh⟩
    have hd' : s.geom.inDisplay (c + n + 1) y := ⟨by omega, hy, by omega, hyh⟩
    have hcopy := runMicro_copyLeft (hsu.geomOk hs) (x := c + n) (y := y) (hsu.geom ▸ hd) (hsu.geom ▸ hd')
    refine ⟨_, ?_, (hsu.putPixel hs hd (u.getPixel (c + n + 1) y)).congr fun x' y' hxy => ?_⟩
    · rw [List.range_succ, List.map_append]
      exact runMicros_append_ok.2 ⟨u, hu, runMicros_cons_ok.2 ⟨_, hcopy, rfl⟩⟩
    · rw [hsu.pixels _ _ hd']
      simp only [rowMovedLeft, Prod.mk.injEq]
      grind

/-- The picture with a band shifted: in the rows `ys`, from column `c` on, each pixel takes the one to its right and
the last column is blank (R208). -/
def bandShifted (s : State) (ys : List Int) (c : Int) (x y : Int) : Bool :=
  if y ∈ ys ∧ c ≤ x then decide (x < (s.geom.dw : Int) - 1) && s.getPixel (x + 1) y else s.getPixel x y

theorem runMicros_shiftRow (hs : s.geomOk) {c y : Int} (hc : 0 ≤ c) (hcw : c < s.geom.dw) (hy : 0 ≤ y)
    (hyh : y < s.geom.dh) :
    ∃ t, runMicros (shiftRow s.geom c y) s = .ok t ∧ Repainted (bandShifted s [y] c) s t := by
  obtain ⟨n, hn⟩ := Int.eq_ofNat_of_zero_le (show 0 ≤ (s.geom.dw : Int) - 1 - c by omega)
  have hcount : ((s.geom.dw : Int) - 2 + 1 - c).toNat = n := by omega
  obtain ⟨u, hu, hsu⟩ := runMicros_copyLeft hs hc hy hyh (n := n) (by omega)
  have hd : s.geom.inDisplay ((s.geom.dw : Int) - 1) y := ⟨by omega, hy, by omega, hyh⟩
  have hblank := runMicro_pixel_normal (hsu.geomOk hs) (x := (s.geom.dw : Int) - 1) (y := y) (hsu.geom ▸ hd) false
  refine ⟨_, ?_, (hsu.putPixel hs hd false).congr fun x' y' hxy => ?_⟩
  · rw [shiftRow, intRange_eq_map, List.map_map, hcount]
    exact runMicros_append_ok.2 ⟨u, hu, runMicros_cons_ok.2 ⟨_, hblank, rfl⟩⟩
  · simp only [rowMovedLeft, bandShifted, Prod.mk.injEq, List.mem_singleton]
    obtain ⟨_, _, hxw, _⟩ := hxy
    grind

/-- Rows are shifted one after the other; none reads a pixel of another. -/
theorem runMicros_shiftRows (hs : s.geomOk) {c : Int} (hc : 0 ≤ c) (hcw : c < s.geom.dw) {ys : List Int}
    (hnodup : ys.Nodup) (hys : ∀ y ∈ ys, 0 ≤ y ∧ y < s.geom.dh) :
    ∃ t, runMicros (ys.flatMap (shiftRow s.geom c)) s = .ok t ∧ Repainted (bandShifted s ys c) s t := by
  induction ys generalizing s with
  | nil => exact ⟨s, rfl, rfl, fun x y _ => by simp [bandShifted], fun _ _ => rfl⟩
  | cons y ys ih =>
    rw [List.forall_mem_cons] at hys
    rw [List.nodup_cons] at hnodup
    obtain ⟨u, hu, hsu⟩ := runMicros_shiftRow hs hc hcw hys.1.1 hys.1.2
    obtain ⟨t, ht, hut⟩ := ih (hsu.geomOk hs) (hsu.geom ▸ hcw) hnodup.2 (hsu.geom ▸ hys.2)
    rw [hsu.geom] at ht
    refine ⟨t, ?_, (hsu.trans hut).congr fun x' y' hxy => ?_⟩
    · rw [List.flatMap_cons]
      exact runMicros_append_ok.2 ⟨u, hu, ht⟩
    · have hright (hlt : x' < (s.geom.dw : Int) - 1) := hsu.pixels (x' + 1) y' (by omega)
      simp only [bandShifted, hsu.geom, hsu.pixels x' y' hxy, List.mem_cons] at hright ⊢
      grind

end

/-! ### The last column of the band -/

/-- The window STEPSPLITMARQUEE3 renders in: the last column, rows `t` to `b` (R208). -/
def lastColumn (g : Geometry) (t b : Int) : Window :=
  { x0 := (g.dw : Int) - 1, y0 := t, x1 := (g.dw : Int) - 1, y1 := b }

theorem lastColumn_has_iff {g : Geometry} {t b x y : Int} :
    (lastColumn g t b).has (x, y) = true ↔ x = (g.dw : Int) - 1 ∧ t ≤ y ∧ y ≤ b := by
  rw [Window.has, decide_eq_true_iff]
  simp only [lastColumn]
  omega

/-- A smaller window cuts the frame (R204). -/
theorem mem_renderPoints_lastColumn {gap : Nat} {F : Nat → Nat} {g : Geometry} {v : MarqueeView} {t b x y : Int}
    (hd : g.inDisplay x y) : (x, y) ∈ renderPoints gap F g v (lastColumn g t b) ↔
      (x = (g.dw : Int) - 1 ∧ t ≤ y ∧ y ≤ b) ∧ (x, y) ∈ renderPoints gap F g v g.window := by
  rw [mem_renderPoints, lastColumn_has_iff, mem_renderPoints_window hd]

/-! ### The command -/

theorem stepSplitMarquee3Program_eq (topRow bottomRow startColumn : Int) (s : State) :
    stepSplitMarquee3Program topRow bottomRow startColumn s =
      if s.marq.act = true ∧ s.marq.view.visible = true ∧ max topRow 0 ≤ min bottomRow ((s.geom.dh : Int) - 1) ∧
          max startColumn 0 ≤ (s.geom.dw : Int) - 1 then
        [.reg (.offsetX (s.marq.view.ox - 1))] ++
          ((intRange (max topRow 0) (min bottomRow ((s.geom.dh : Int) - 1))).flatMap
              (shiftRow s.geom (max startColumn 0)) ++
            s.render s.marq.view.oneLeft
              (lastColumn s.geom (max topRow 0) (min bottomRow ((s.geom.dh : Int) - 1))))
      else [] := rfl

/-- The picture after a split step that draws the marquee `w`, in terms of the one before (R208). -/
def bandPicture (s : State) (w : MarqueeView) (t b c x y : Int) : Bool :=
  if t ≤ y ∧ y ≤ b ∧ c ≤ x then
    if x < (s.geom.dw : Int) - 1 then s.getPixel (x + 1) y
    else decide ((x, y) ∈ renderPoints s.charGap s.fontByte s.geom w s.geom.window)
  else s.getPixel x y

/-- The rows of the band are shifted, then the column that has become free is drawn (R208). -/
theorem runMicros_splitBand {s : State} (hs : s.geomOk) (w : MarqueeView) {t b c : Int} (ht : 0 ≤ t)
    (hb : b < s.geom.dh) (hc : 0 ≤ c) (hcw : c < s.geom.dw) :
    ∃ u, runMicros ((intRange t b).flatMap (shiftRow s.geom c) ++ s.render w (lastColumn s.geom t b)) s = .ok u ∧
      Repainted (bandPicture s w t b c) s u := by
  obtain ⟨r, hr, hsr⟩ := runMicros_shiftRows hs hc hcw (nodup_intRange t b) fun y hy => by
    rw [mem_intRange] at hy
    omega
  obtain ⟨u, hu, hpainted⟩ := runMicros_plotAll (hsr.geomOk hs) .normal
    (renderPoints s.charGap s.fontByte s.geom w (lastColumn s.geom t b))
  refine ⟨u, runMicros_append_ok.2 ⟨r, hr, hu⟩,
    (hsr.trans (repainted_of_painted (hsr.geomOk hs) hpainted)).congr fun x y hd => ?_⟩
  simp only [hsr.pixels x y hd, mem_renderPoints_lastColumn hd, bandShifted, bandPicture, mem_intRange]
  obtain ⟨_, _, hxw, _⟩ := hd
  grind

/-- With something to draw and a band that is not empty, the offset moves and the band is redrawn (R208). -/
theorem exec_stepSplitMarquee3_drawn {s : State} {topRow bottomRow startColumn : Int} (hs : s.live)
    (hact : s.marq.act = true) (hv : s.marq.view.visible = true)
    (hrows : max topRow 0 ≤ min bottomRow ((s.geom.dh : Int) - 1))
    (hcols : max startColumn 0 ≤ (s.geom.dw : Int) - 1) :
    ∃ t, exec (.stepSplitMarquee3 topRow bottomRow startColumn) s = .next t ∧
      Repainted (bandPicture s s.marq.view.oneLeft (max topRow 0) (min bottomRow ((s.geom.dh : Int) - 1))
        (max startColumn 0)) { s with marq := s.marq.withOx (s.marq.view.ox - 1) } t := by
  obtain ⟨hf, hok⟩ := hs
  obtain ⟨t, ht, hpainted⟩ := runMicros_splitBand (s := { s with marq := s.marq.withOx (s.marq.view.ox - 1) }) hok
    s.marq.view.oneLeft (t := max topRow 0) (b := min bottomRow ((s.geom.dh : Int) - 1)) (c := max startColumn 0)
    (le_max_right _ _) (show min bottomRow ((s.geom.dh : Int) - 1) < (s.geom.dh : Int) by omega)
    (le_max_right _ _) (show max startColumn 0 < (s.geom.dw : Int) by omega)
  refine ⟨t, exec_of_runMicros (by simp) hf (by simp [isReconfig]) ?_, hpainted⟩
  rw [drawProgram, stepSplitMarquee3Program_eq, if_pos ⟨hact, hv, hrows, hcols⟩]
  exact runMicros_append_ok.2 ⟨_, rfl, ht⟩

/-- Settles O33: the two branches of the program. -/
theorem stepSplitMarqueeMovesBand : Obligations.StepSplitMarqueeMovesBand := by
  intro s topRow bottomRow startColumn hs v t0 b0 c0 last drawn
  have hdrawn : drawn ↔ s.marq.act = true ∧ v.visible = true := by
    rw [visible_iff, view_text_ne_nil_iff]
  refine ⟨fun hnot => exec_of_runMicros (by simp) hs.1 (by simp [isReconfig]) ?_, fun hdr hrows hcols => ?_⟩
  · rw [drawProgram, stepSplitMarquee3Program_eq, if_neg]
    · rfl
    · rwa [hdrawn, and_assoc] at hnot
  · obtain ⟨hact, hv⟩ := hdrawn.1 hdr
    obtain ⟨t, ht, hpainted⟩ := exec_stepSplitMarquee3_drawn hs hact hv hrows hcols
    exact ⟨t, ht, hpainted.frame, hpainted.pixels, hpainted.above⟩

/-! ### The split step against the frame (R209) -/

/-- The frame one column further left has at each pixel what the frame has at the pixel to its right (R206 (c)). -/
theorem onCopy_oneLeft_iff {gap : Nat} {F : Nat → Nat} {g : Geometry} {v : MarqueeView}
    (hmw : v.mw = textWidth gap F v.text) (hmh : v.mh = F 3) (hw : 0 < v.mw) (hh : 0 < v.mh)
    (hox : v.ox = canon v.ox v.mw) (hoy : v.oy = canon v.oy v.mh) {x y : Int} (hd : g.inDisplay x y)
    (hd' : g.inDisplay (x + 1) y) : OnCopy gap F g v.oneLeft (x, y) ↔ OnCopy gap F g v (x + 1, y) := by
  have hcolumn : (x - v.oneLeft.ox) % v.mw = (x + 1 - v.ox) % v.mw := by
    calc (x - canon (v.ox - 1) v.mw) % v.mw = (x - (v.ox - 1)) % v.mw := by
          rw [canon, if_pos hw, Int.sub_emod, Int.emod_emod, ← Int.sub_emod]
      _ = (x + 1 - v.ox) % v.mw := by rw [sub_sub_eq_add_sub]
  rw [onCopy_iff_textBit hmw hmh hw hh hox hoy hd', ← hcolumn]
  exact onCopy_iff_textBit (v := v.oneLeft) hmw hmh hw hh (canon_canon _ _).symm hoy hd

/-- Settles O34: the shifted frame is the frame one column further left, and the last column is drawn as part of it. -/
theorem splitStepEqualsStepOnBand : Obligations.SplitStepEqualsStepOnBand := by
  intro s topRow bottomRow startColumn hs v t0 b0 c0 frame hact hok hw hh hmw hmh hrows hcols hband
  have htext : v.text ≠ [] := text_ne_nil_of_width hmw hw
  obtain ⟨t, ht, hpainted⟩ :=
    exec_stepSplitMarquee3_drawn hs hact (visible_iff.2 ⟨htext, hw, hh⟩) hrows hcols
  refine ⟨t, ht, by rw [hpainted.frame]; rfl, fun x y hd => (hpainted.pixels x y hd).trans ?_⟩
  unfold bandPicture
  split
  · next hin =>
    split
    · next hlt =>
      have hd' : s.geom.inDisplay (x + 1) y := by
        obtain ⟨hx, hy, _, hyh⟩ := hd
        exact ⟨by omega, hy, by omega, hyh⟩
      rw [hband (x + 1) y hd' (by omega)]
      refine decide_eq_decide.2 ?_
      rw [mem_renderPoints_window hd, mem_renderPoints_window hd']
      exact (onCopy_oneLeft_iff hmw hmh hw hh hok.1 hok.2 hd hd').symm
    · rfl
  · rfl

end Sys2Proof.Proofs
end

section
/-! PROOFS. The scan (44_scan.md R230 to R239): what SCAN on an idle scan engine emits and leaves, the order of its
bytes, four scans in a row, and the scans that are not performed (R233, R245, R246). -/

namespace Sys2Proof.Proofs

open Sys2Proof.Machine Sys2Proof.Laws

/-! ### Operations of a scan -/

/-- The event an operation of the scan engine emits (R240). -/
def scanEvent (s : State) : ScanMicro → Option Event
  | .emit e => some e
  | .shift a => some (.shift (s.byteAt a))
  | .skip | .oeGate _ | .selA _ | .selB _ | .phase _ | .cursor _ => none

/-- The events depend on nothing but the buffer. -/
theorem scanEvent_congr {s t : State} (h : t.buf = s.buf) : scanEvent t = scanEvent s := by
  funext m
  cases m with
  | shift a => simp only [scanEvent, State.byteAt, h]
  | _ => rfl

theorem runScanMicro_of_fits {m : ScanMicro} {s : State} (hm : ScanFits s.geom m) :
    runScanMicro m s =
      .ok { s with regs := applyScanReg m s.regs, trace := s.trace ++ (scanEvent s m).toList } := by
  cases m with
  | shift a =>
    simp only [runScanMicro, load_inRange hm]
    rfl
  | emit e => rfl
  | _ => simp [runScanMicro, scanEvent]

/-- Operations that keep to the buffer write their registers and emit their events, in order. -/
theorem runScanMicros_of_fits {ms : List ScanMicro} {s : State} (hfit : ∀ m ∈ ms, ScanFits s.geom m) :
    runScanMicros ms s =
      .ok { s with
        regs := ms.foldl (fun r m => applyScanReg m r) s.regs
        trace := s.trace ++ ms.filterMap (scanEvent s) } := by
  induction ms generalizing s with
  | nil => simp
  | cons m ms ih =>
    rw [List.forall_mem_cons] at hfit
    have hevents : scanEvent { s with
        regs := applyScanReg m s.regs, trace := s.trace ++ (scanEvent s m).toList } = scanEvent s :=
      scanEvent_congr rfl
    refine runScanMicros_cons_ok.2 ⟨_, runScanMicro_of_fits hfit.1, (ih ?_).trans ?_⟩
    · exact hfit.2
    · rw [hevents]
      cases hm : scanEvent s m <;> simp [hm]

/-! ### The registers and the events of one scan -/

/-- The registers a scan in phase `p` leaves (R234). -/
def scanRegsAfter (g : Geometry) (p : BitVec 2) : ScanRegs where
  phase := p + 1
  cursor := BitVec.ofNat 16 ((p + 1).toNat * g.rowLen)
  oeGate := true
  selA := p.getLsbD 0
  selB := p.getLsbD 1

/-- The events of a scan in phase `p` (R234, R236). -/
def scanEvents (s : State) (p : BitVec 2) : List Event :=
  [.oe false, .sel (p.getLsbD 0) (p.getLsbD 1)] ++
    ((scanAddrs s.geom.rowLen p.toNat).map (fun a => .shift (s.byteAt a)) ++ [.latch, .oe true])

/-- Clocking out the columns moves only `CURSOR` (R236). -/
theorem foldl_scanColumns (n p : Nat) (is : List Nat) (r : ScanRegs) :
    ∃ c, (is.flatMap (scanColumn n p)).foldl (fun r m => applyScanReg m r) r = { r with cursor := c } := by
  induction is generalizing r with
  | nil => exact ⟨r.cursor, rfl⟩
  | cons i is ih =>
    obtain ⟨c, hc⟩ := ih { r with cursor := BitVec.ofNat 16 (p * n + i) }
    refine ⟨c, ?_⟩
    rw [List.flatMap_cons, List.foldl_append]
    exact hc

theorem foldl_scanProgram (g : Geometry) (p : BitVec 2) (r : ScanRegs) :
    (scanProgram g p).foldl (fun r m => applyScanReg m r) r = scanRegsAfter g p := by
  rw [scanProgram, List.foldl_append, List.foldl_append]
  obtain ⟨c, hc⟩ := foldl_scanColumns g.rowLen p.toNat (List.range g.rowLen)
    { r with oeGate := false, selA := p.getLsbD 0, selB := p.getLsbD 1 }
  exact congrArg (fun r' : ScanRegs => { r' with
    oeGate := true, phase := p + 1, cursor := BitVec.ofNat 16 ((p + 1).toNat * g.rowLen) }) hc

/-- The columns emit the bytes of the row group, the lowest row of each column first (R236). -/
theorem filterMap_scanColumns (s : State) (n p : Nat) :
    ((List.range n).flatMap (scanColumn n p)).filterMap (scanEvent s) =
      (scanAddrs n p).map fun a => .shift (s.byteAt a) := by
  rw [scanAddrs, List.filterMap_flatMap, List.map_flatMap]
  rfl

theorem filterMap_scanProgram (s : State) (p : BitVec 2) :
    (scanProgram s.geom p).filterMap (scanEvent s) = scanEvents s p := by
  rw [scanProgram, List.filterMap_append, List.filterMap_append, filterMap_scanColumns]
  rfl

/-! ### One scan -/

/-- A SCAN packet is performed, at once and whole: no FAULT condition, no scan in progress, the bus free (R232). -/
structure ScansNow (s : State) : Prop where
  live : s.sticky.fault = false
  idle : s.scan = []
  port : s.scanOnPort = false
  free : s.env.busBusy = false

/-- The state a performed scan leaves: new scan registers, a longer trace, nothing else (R230). -/
def afterScan (s : State) : State :=
  { s with regs := scanRegsAfter s.geom s.regs.phase, trace := s.trace ++ scanEvents s s.regs.phase }

theorem exec_scan_performed {s : State} (h : ScansNow s) : exec .scan s = .next (afterScan s) := by
  have hops : s.scanOps = scanProgram s.geom s.regs.phase := by simp [State.scanOps, h.live, h.free]
  have hrun := runScanMicros_of_fits (scanOps_fits s)
  rw [hops, foldl_scanProgram, filterMap_scanProgram] at hrun
  rw [exec_scan_idle h.idle h.port, hops, hrun]
  rfl

/-- Settles O35: the registers and events of the operations of one scan, added up. -/
theorem scanEmitsOneRowGroup : Obligations.ScanEmitsOneRowGroup :=
  fun _ hf hs hp hb => exec_scan_performed ⟨hf, hs, hp, hb⟩

/-! ### The order of the bytes (R236) -/

/-- The address of the `k`-th load of a scan in phase `p`: four rows in each column, lowest first (R236). -/
def scanAddr (n p k : Nat) : Nat := (p + 4 * (3 - k % 4)) * n + k / 4

theorem scanAddrs_eq_map (n p : Nat) : scanAddrs n p = (List.range (4 * n)).map (scanAddr n p) := by
  have hcolumns (m : Nat) : ((List.range m).flatMap fun i =>
      [(p + 12) * n + i, (p + 8) * n + i, (p + 4) * n + i, p * n + i]) =
        (List.range (4 * m)).map (scanAddr n p) := by
    induction m with
    | zero => rfl
    | succ m ih =>
      have hdiv (j : Nat) (hj : j < 4) : (4 * m + j) / 4 = m := by omega
      have hmod (j : Nat) (hj : j < 4) : (4 * m + j) % 4 = j := by omega
      rw [List.range_succ, List.flatMap_append, ih, Nat.mul_succ, List.range_add, List.map_append, List.map_map]
      simp [List.range_succ, scanAddr, hmod, hdiv]
  exact hcolumns n

theorem length_scanAddrs (n p : Nat) : (scanAddrs n p).length = 4 * n := by
  rw [scanAddrs_eq_map, List.length_map, List.length_range]

theorem filterMap_shifted_scanEvents (s : State) (p : BitVec 2) :
    (scanEvents s p).filterMap Event.shifted = (scanAddrs s.geom.rowLen p.toNat).map s.byteAt := by
  simp [scanEvents, List.filterMap_append, List.filterMap_cons, List.filterMap_map, Function.comp_def, Event.shifted]

theorem filterMap_selected_scanEvents (s : State) (p : BitVec 2) :
    (scanEvents s p).filterMap Event.selected = [(p.getLsbD 0, p.getLsbD 1)] := by
  simp [scanEvents, List.filterMap_append, List.filterMap_cons, List.filterMap_map, Function.comp_def, Event.selected]

/-- Settles O36: the loads of one scan, numbered. -/
theorem scanByteOrder : Obligations.ScanByteOrder := by
  intro s hf hs hp hb
  refine ⟨_, _, exec_scan_performed ⟨hf, hs, hp, hb⟩, rfl, ?_, fun n hn => ?_⟩
  · rw [filterMap_shifted_scanEvents, List.length_map, length_scanAddrs]
  · rw [filterMap_shifted_scanEvents, scanAddrs_eq_map, List.getElem?_map, List.getElem?_map,
      List.getElem?_range hn]
    rfl

/-! ### Four scans (R239) -/

/-- A byte of the buffer is loaded in the phase of its row (R236). -/
theorem mem_scanAddrs {n a : Nat} (ha : a < 16 * n) : a ∈ scanAddrs n (a / n % 4) := by
  have hn : 0 < n := by omega
  have hrow : a / n < 16 := Nat.div_lt_of_lt_mul (Nat.mul_comm 16 n ▸ ha)
  have hsplit : a = a / n * n + a % n := (Nat.div_add_mod' a n).symm
  refine List.mem_flatMap.2 ⟨a % n, List.mem_range.2 (Nat.mod_lt a hn), ?_⟩
  have hgroup : a / n = a / n % 4 + 12 ∨ a / n = a / n % 4 + 8 ∨ a / n = a / n % 4 + 4 ∨ a / n = a / n % 4 := by
    generalize a / n = r at hrow
    omega
  simp only [List.mem_cons, List.not_mem_nil, or_false]
  rcases hgroup with h | h | h | h
  · exact .inl (h ▸ hsplit)
  · exact .inr (.inl (h ▸ hsplit))
  · exact .inr (.inr (.inl (h ▸ hsplit)))
  · exact .inr (.inr (.inr (h ▸ hsplit)))

/-- The four phases load every address, and no more loads than addresses. -/
theorem scanAddrs_cover (n : Nat) : List.Perm ((List.range 4).flatMap (scanAddrs n)) (List.range (16 * n)) := by
  have hsub : List.range (16 * n) ⊆ (List.range 4).flatMap (scanAddrs n) := fun a ha =>
    List.mem_flatMap.2 ⟨a / n % 4, List.mem_range.2 (Nat.mod_lt _ (by decide)), mem_scanAddrs (List.mem_range.1 ha)⟩
  have hlen : ((List.range 4).flatMap (scanAddrs n)).length ≤ (List.range (16 * n)).length := by
    simp [length_scanAddrs, List.range_succ]
    omega
  exact ((List.nodup_range.subperm hsub).perm_of_length_le hlen).symm

/-- Four phases in cyclic order are all the phases (R238). -/
theorem phases_perm (p : BitVec 2) :
    List.Perm ((List.range 4).map fun k => (p + BitVec.ofNat 2 k).toNat) (List.range 4) := by
  revert p
  decide

theorem scanEvents_congr {s t : State} (hg : t.geom = s.geom) (hb : t.buf = s.buf) : scanEvents t = scanEvents s := by
  funext p
  simp only [scanEvents, State.byteAt, hg, hb]

/-- Scans in a row go through the phases in cyclic order and leave the buffer (R230, R238). -/
theorem scans_performed (n : Nat) {s : State} (h : ScansNow s) :
    ∃ t, scans n s = .next t ∧ t.regs.phase = s.regs.phase + BitVec.ofNat 2 n ∧ t.buf = s.buf ∧
      t.trace = s.trace ++ (List.range n).flatMap fun k => scanEvents s (s.regs.phase + BitVec.ofNat 2 k) := by
  induction n generalizing s with
  | zero => exact ⟨s, rfl, by simp, rfl, by simp⟩
  | succ n ih =>
    obtain ⟨t, ht, hphase, hbuf, htrace⟩ := ih (s := afterScan s) ⟨h.live, h.idle, h.port, h.free⟩
    have hnext (k : Nat) : (afterScan s).regs.phase + BitVec.ofNat 2 k = s.regs.phase + BitVec.ofNat 2 (k + 1) := by
      rw [Nat.add_comm k 1, BitVec.ofNat_add, ← BitVec.add_assoc]
      rfl
    refine ⟨t, ?_, hphase.trans (hnext n), hbuf, ?_⟩
    · simp only [scans, exec_scan_performed h, ht]
    · rw [htrace, List.range_succ_eq_map, List.flatMap_cons, List.flatMap_map]
      simp only [hnext, scanEvents_congr (s := s) (t := afterScan s) rfl rfl]
      simp [afterScan]

/-- Settles O37: the phases of four scans are all four, and their row groups make up the buffer. -/
theorem fourScansCoverTheBuffer : Obligations.FourScansCoverTheBuffer := by
  refine ⟨scanAddrs_cover, fun s hf hs hp hb => ?_⟩
  obtain ⟨t, ht, hphase, hbuf, htrace⟩ := scans_performed 4 (s := s) ⟨hf, hs, hp, hb⟩
  refine ⟨t, ht, by simpa using hphase, hbuf, _, htrace, ?_, ?_⟩
  · simp only [List.filterMap_flatMap, filterMap_selected_scanEvents]
    exact List.map_eq_flatMap.symm
  · have hloads : ((List.range 4).flatMap fun k => scanEvents s (s.regs.phase + BitVec.ofNat 2 k)).filterMap
          Event.shifted =
        (((List.range 4).map fun k => (s.regs.phase + BitVec.ofNat 2 k).toNat).flatMap
          (scanAddrs s.geom.rowLen)).map s.byteAt := by
      simp only [List.filterMap_flatMap, filterMap_shifted_scanEvents, List.flatMap_map, List.map_flatMap]
    rw [hloads, bufSize_eq_rowLen]
    exact (((phases_perm _).flatMap_right _).trans (scanAddrs_cover _)).map _

/-! ### Scans that are not performed -/

/-- In the FAULT condition SCAN is refused (R245). -/
theorem exec_scan_fault {s : State} (hf : s.sticky.fault = true) : exec .scan s = .next s := by
  simp [exec, execScan, hf]

/-- A scan that finds the bus busy does nothing (R233). -/
theorem scanOps_busy {s : State} (hb : s.env.busBusy = true) : s.scanOps = [.skip] := by
  simp [State.scanOps, hb]

/-- A scan request with the FAULT condition or a scan in progress does nothing, under reset too (R245, R246, R280). -/
theorem applyInput_scanRequest_dropped {s : State} (h : s.sticky.fault = true ∨ s.scan ≠ []) :
    applyInput .scanRequest s = .ok s := by
  simp only [applyInput, scanRequest]
  split
  · rfl
  · split
    · rfl
    · next hf => rw [if_pos (h.resolve_left hf)]

/-- Settles O38: refused and dropped scans leave no operation to perform, skipped ones only the empty one. -/
theorem skippedScansChangeNothing : Obligations.SkippedScansChangeNothing := by
  refine ⟨fun s hs hp hb => ?_, fun s hf => ⟨exec_scan_fault hf, applyInput_scanRequest_dropped (.inl hf)⟩,
    fun s hs => applyInput_scanRequest_dropped (.inr hs), fun s hf hreset hs hp hr hb => ?_⟩
  · rw [exec_scan_idle hs hp, scanOps_busy hb]
    rfl
  · refine ⟨setScan [.skip] false s, ?_, by rw [setScan, ← hp], rfl, ?_⟩
    · simp [applyInput, scanRequest, hreset, hf, hs, hr, scanOps_busy hb, setScan, hp]
    · have hstep : scanAdvance (setScan [.skip] false s) = .ok (setScan [] false s) := rfl
      rw [setScan_self hs hp] at hstep
      simpa [applyInput, setScan, hreset] using hstep

/-! ### Brightness (R242, R243) -/

/-- Settles O40: the program is one register write. -/
theorem setBrightnessStoresValue : Obligations.SetBrightnessStoresValue :=
  fun _ _ hf => exec_of_runMicros (by simp) hf (by simp [isReconfig]) rfl

/-- The gated output, with the counter and the duty cycle as numbers (R243). -/
theorem oeOut_iff (s : State) : s.oeOut = true ↔ s.regs.oeGate = true ∧ s.pwmCnt.toNat < s.bright.toNat := by
  simp [State.oeOut, BitVec.lt_def]

theorem countP_range_lt (n m : Nat) : (List.range n).countP (fun k => decide (k < m)) = min n m := by
  induction n with
  | zero => simp
  | succ n ih =>
    rw [List.range_succ, List.countP_append, ih, List.countP_singleton]
    by_cases h : n < m <;> simp [h] <;> omega

/-- Settles O41: of the 256 counts those below `BRIGHT` enable the output. -/
theorem brightnessIsDutyCycle : Obligations.BrightnessIsDutyCycle := by
  refine fun s => ⟨fun h => ?_, fun h => by simp [oeOut_iff, h], fun h => ?_⟩
  · simp [State.oeOut, h]
  · have hcount (n : Nat) (hn : n ∈ List.range 256) :
        ({ s with pwmCnt := BitVec.ofNat 8 n } : State).oeOut = true ↔ decide (n < s.bright.toNat) = true := by
      have hn : n % 2 ^ 8 = n := Nat.mod_eq_of_lt (List.mem_range.1 hn)
      simp only [oeOut_iff, h, BitVec.toNat_ofNat, hn, true_and, decide_eq_true_eq]
    rw [List.countP_congr hcount, countP_range_lt]
    exact Nat.min_eq_right s.bright.isLt.le

end Sys2Proof.Proofs
end

section
/-! PROOFS. The FAULT condition (60_exceptions.md R264, R266): commands are refused, `DBUSY` and `SBUSY` pulse for a
refused packet, and a block whose engines only refuse goes on refusing at every step but reset. -/

namespace Sys2Proof.Proofs

open Sys2Proof.Machine Sys2Proof.Laws

/-! ### Refused commands -/

/-- Settles O43: each draw command passes through `runCommand`, SCAN checks the condition itself. -/
theorem faultConditionRefusesCommands : Obligations.FaultConditionRefusesCommands := by
  intro i s hf
  cases i with
  | scan => exact exec_scan_fault hf
  | changeDmd w h =>
    have hrun : exec (.changeDmd w h) s = s.runCommand (changeDmdProgram w h s) := by simp [exec, execChangeDmd, hf]
    rw [hrun, runCommand_fault _ hf]
  | _ => exact runCommand_fault _ hf

section
variable {s t : State}

/-- A refused SCAN holds the port with the one operation that does nothing (R245). -/
theorem startCommand_scan_fault (hf : s.sticky.fault = true) :
    startCommand .scan s = .ok (setScan [.skip] true s) := by
  simp [startCommand, State.scanOps, hf, setScan]

/-- A refused draw command leaves the draw engine nothing to perform. -/
theorem startCommand_draw_fault {i : Instr} (hi : i ≠ .scan) (hf : s.sticky.fault = true) :
    startCommand i s = .ok (setDraw (some ⟨some i, []⟩) s) := by
  simp [startCommand, hi, hf, setDraw]

/-! ### One micro-step of a refusal -/

theorem drawAdvance_nothing {cmd : Option Instr} (hd : s.draw = some ⟨cmd, []⟩) :
    drawAdvance s = .ok (setDraw none s) := by
  simp [drawAdvance, hd, setDraw]

theorem drawAdvance_ill {cmd : Option Instr} (hd : s.draw = some ⟨cmd, [.reg (.flag .ill)]⟩) :
    drawAdvance s = .ok (setDraw none (s.refuse .ill)) := by
  simp [drawAdvance, hd, stepMicro, applyReg, progressOf, setDraw]

theorem scanAdvance_idle (hs : s.scan = []) : scanAdvance s = .ok (setScan [] false s) := by
  simp [scanAdvance, hs, setScan]

theorem scanAdvance_skip (hs : s.scan = [.skip]) : scanAdvance s = .ok (setScan [] false s) := by
  simp [scanAdvance, hs, runScanMicro, applyScanReg, setScan]

end

/-- Settles O57: the refused packet leaves its engine one empty micro-step, after which the engine is idle again. -/
theorem faultConditionPulsesBusy : Obligations.FaultConditionPulsesBusy := by
  intro s i rest hs hf hscan hdec
  obtain ⟨-, -, hdraw, hport⟩ := id hs
  have hacc := acceptPacket_ready hs hdec (fun _ => hscan)
  by_cases hi : i = .scan
  · subst hi
    rw [startCommand_scan_fault (s := s.withPort rest) hf] at hacc
    have hend : setScan [] false (s.withPort rest) = s.withPort rest := setScan_self hscan hport
    exact ⟨_, hacc, fun h => absurd rfl h, fun _ => ⟨rfl, hend ▸ scanAdvance_skip rfl⟩⟩
  · rw [startCommand_draw_fault (s := s.withPort rest) hi hf] at hacc
    have hend : setDraw none (s.withPort rest) = s.withPort rest := setDraw_self hdraw
    exact ⟨_, hacc, fun _ => ⟨rfl, hend ▸ drawAdvance_nothing rfl⟩, fun h => absurd h hi⟩

/-! ### Nothing but refusals -/

/-- The engines of the second state do no more than refuse, and it differs from the first only where a refusal, a
PWM tick, an input or a packet on the port makes it differ (R264). -/
structure StaysRefusing (s t : State) : Prop where
  refusing : t.refusing
  frame : t = { s with
    env := t.env, pwmCnt := t.pwmCnt, sticky := { s.sticky with ill := t.sticky.ill },
    draw := t.draw, scan := t.scan, scanOnPort := t.scanOnPort }

section
variable {s t : State}

theorem staysRefusing_refl (h : s.refusing) : StaysRefusing s s := ⟨h, rfl⟩

theorem staysRefusing_withEnv (h : s.refusing) (env : Env) : StaysRefusing s { s with env := env } := ⟨h, rfl⟩

theorem staysRefusing_withPort (h : s.refusing) (ws : List Word) : StaysRefusing s (s.withPort ws) :=
  staysRefusing_withEnv h _

theorem staysRefusing_refuse (h : s.refusing) : StaysRefusing s (s.refuse .ill) := ⟨h, rfl⟩

/-- The draw engine may be left idle, with nothing to perform or with a refusal. -/
theorem staysRefusing_setDraw {d : Option DrawProgress} (h : s.refusing)
    (hd : (setDraw d s).drawRest = [] ∨ (setDraw d s).drawRest = [.reg (.flag .ill)]) :
    StaysRefusing s (setDraw d s) := by
  obtain ⟨hf, _, hscan⟩ := h
  exact ⟨⟨hf, hd, hscan⟩, rfl⟩

/-- The scan engine may be left idle or with a refused scan. -/
theorem staysRefusing_setScan {ops : List ScanMicro} (p : Bool) (h : s.refusing) (hops : ops = [] ∨ ops = [.skip]) :
    StaysRefusing s (setScan ops p s) := by
  obtain ⟨hf, hdraw, _⟩ := h
  exact ⟨⟨hf, hdraw, hops⟩, rfl⟩

theorem StaysRefusing.trans {u : State} (h₁ : StaysRefusing s t) (h₂ : StaysRefusing t u) : StaysRefusing s u :=
  ⟨h₂.refusing, by rw [h₂.frame, h₁.frame]⟩

/-! ### The engines and the port -/

theorem drawAdvance_staysRefusing (h : s.refusing) : ∃ t, drawAdvance s = .ok t ∧ StaysRefusing s t := by
  obtain ⟨_, hdraw, _⟩ := id h
  rcases hd : s.draw with _ | ⟨cmd, ms⟩
  · exact ⟨s, by simp [drawAdvance, hd], staysRefusing_refl h⟩
  · have hms : ms = [] ∨ ms = [.reg (.flag .ill)] := by simpa [State.drawRest, hd] using hdraw
    rcases hms with rfl | rfl
    · exact ⟨_, drawAdvance_nothing hd, staysRefusing_setDraw h (.inl rfl)⟩
    · have hill := staysRefusing_refuse h
      exact ⟨_, drawAdvance_ill hd, hill.trans (staysRefusing_setDraw hill.refusing (.inl rfl))⟩

theorem scanAdvance_staysRefusing (h : s.refusing) : ∃ t, scanAdvance s = .ok t ∧ StaysRefusing s t := by
  obtain ⟨_, _, hscan⟩ := id h
  refine ⟨_, ?_, staysRefusing_setScan false h (.inl rfl)⟩
  exact hscan.elim scanAdvance_idle scanAdvance_skip

theorem startCommand_staysRefusing (i : Instr) (h : s.refusing) :
    ∃ t, startCommand i s = .ok t ∧ StaysRefusing s t := by
  obtain ⟨hf, _, _⟩ := id h
  by_cases hi : i = .scan
  · subst hi
    exact ⟨_, startCommand_scan_fault hf, staysRefusing_setScan true h (.inr rfl)⟩
  · exact ⟨_, startCommand_draw_fault hi hf, staysRefusing_setDraw h (.inl rfl)⟩

theorem acceptPacket_staysRefusing (h : s.refusing) : ∃ t, acceptPacket s = .ok t ∧ StaysRefusing s t := by
  have hport := staysRefusing_withPort h
  unfold acceptPacket
  split
  · exact ⟨s, rfl, staysRefusing_refl h⟩
  · split
    · exact ⟨s, rfl, staysRefusing_refl h⟩
    · next rest _ => exact ⟨_, rfl, (hport rest).trans (staysRefusing_setDraw (hport rest).refusing (.inr rfl))⟩
    · next i rest _ =>
      split
      · exact ⟨s, rfl, staysRefusing_refl h⟩
      · obtain ⟨t, ht, hstay⟩ := startCommand_staysRefusing i (hport rest).refusing
        exact ⟨t, ht, (hport rest).trans hstay⟩

/-! ### Steps -/

/-- While reset is asserted an input of this kind does nothing, so refusals stay refusals either way (R280). -/
theorem staysRefusing_unless_resetHeld {r : Except Fault State} (h : s.refusing)
    (hr : ∃ t, r = .ok t ∧ StaysRefusing s t) :
    ∃ t, (if s.env.resetHeld then .ok s else r) = .ok t ∧ StaysRefusing s t := by
  split
  · exact ⟨s, rfl, staysRefusing_refl h⟩
  · exact hr

theorem applyInput_staysRefusing {e : Input} (he : e ≠ .reset true) (h : s.refusing) :
    ∃ t, applyInput e s = .ok t ∧ StaysRefusing s t := by
  obtain ⟨hf, _, _⟩ := id h
  cases e with
  | reset level => cases level with
    | true => exact absurd rfl he
    | false => exact ⟨_, rfl, staysRefusing_withEnv h _⟩
  | busBusy level => exact ⟨_, rfl, staysRefusing_withEnv h _⟩
  | send w =>
    refine ⟨_, rfl, ?_⟩
    split
    · exact staysRefusing_refl h
    · exact staysRefusing_withEnv h _
  | pwmTick =>
    refine ⟨_, rfl, ?_⟩
    split
    · exact staysRefusing_refl h
    · exact ⟨h, rfl⟩
  | scanRequest => exact ⟨s, applyInput_scanRequest_dropped (.inl hf), staysRefusing_refl h⟩
  | accept => exact staysRefusing_unless_resetHeld h (acceptPacket_staysRefusing h)
  | drawStep => exact staysRefusing_unless_resetHeld h (drawAdvance_staysRefusing h)
  | scanStep => exact staysRefusing_unless_resetHeld h (scanAdvance_staysRefusing h)

theorem toOutcome_staysRefusing {r : Except Fault State} (h : ∃ t, r = .ok t ∧ StaysRefusing s t) :
    ∃ t, toOutcome r = .next t ∧ StaysRefusing s t := by
  obtain ⟨t, ht, hstay⟩ := h
  exact ⟨t, toOutcome_next.2 ht, hstay⟩

theorem step_staysRefusing (h : s.refusing) (hreset : ∀ rest, s.env.sched ≠ .reset true :: rest) :
    ∃ t, step s = .next t ∧ StaysRefusing s t := by
  obtain ⟨hf, _, _⟩ := id h
  have hport := staysRefusing_withPort h
  unfold step
  split
  · next e rest hsched =>
    have he : e ≠ .reset true := fun he => hreset rest (he ▸ hsched)
    have hstay : StaysRefusing s (s.withSched rest) := staysRefusing_withEnv h _
    obtain ⟨t, ht, hin⟩ := applyInput_staysRefusing he hstay.refusing
    exact toOutcome_staysRefusing ⟨t, ht, hstay.trans hin⟩
  · split
    · exact ⟨s, rfl, staysRefusing_refl h⟩
    · split
      · exact toOutcome_staysRefusing (drawAdvance_staysRefusing h)
      · split
        · exact toOutcome_staysRefusing (scanAdvance_staysRefusing h)
        · unfold fetchPacket
          cases decodePacket s.env.port with
          | incomplete => exact toOutcome_staysRefusing (scanAdvance_staysRefusing h)
          | illegal why rest => exact ⟨_, rfl, (hport rest).trans (staysRefusing_refuse (hport rest).refusing)⟩
          | packet i rest => exact ⟨_, faultConditionRefusesCommands i _ hf, hport rest⟩

end

/-- Settles O44: by the kinds of step. -/
theorem onlyResetLeavesFault : Obligations.OnlyResetLeavesFault := by
  intro s h hreset
  obtain ⟨t, ht, hstay⟩ := step_staysRefusing h hreset
  exact ⟨t, ht, hstay.refusing, hstay.frame⟩

end Sys2Proof.Proofs
end

section
/-! PROOFS. Sticky bits (60_exceptions.md R263): nothing but reset clears one. -/

namespace Sys2Proof.Proofs

open Sys2Proof.Machine Sys2Proof.Laws

/-- Every sticky bit set in the first state is set in the second. -/
def KeepsSticky (s t : State) : Prop := ∀ f, s.sticky.get f = true → t.sticky.get f = true

section
variable {s t : State}

theorem keepsSticky_of_eq (h : t.sticky = s.sticky) : KeepsSticky s t := fun f hf => by rw [h, hf]

theorem KeepsSticky.trans {u : State} (h₁ : KeepsSticky s t) (h₂ : KeepsSticky t u) : KeepsSticky s u :=
  fun f hf => h₂ f (h₁ f hf)

/-! ### The draw engine -/

theorem refuse_keepsSticky (g : Flag) (s : State) : KeepsSticky s (s.refuse g) :=
  fun f hf => by rw [refuse_sticky, sticky_set_get, hf, Bool.true_or]

/-- A write to `STATUS` sets a bit, and no other register write touches one. -/
theorem applyReg_keepsSticky (w : RegWrite) (s : State) : KeepsSticky s (applyReg w s) := by
  cases w with
  | flag g => exact refuse_keepsSticky g s
  | _ => exact keepsSticky_of_eq rfl

theorem runMicro_keepsSticky {m : Micro} (h : runMicro m s = .ok t) : KeepsSticky s t := by
  cases m with
  | reg w => exact Except.ok.inj h ▸ applyReg_keepsSticky w s
  | _ => exact keepsSticky_of_eq (by rw [runMicro_buffer h (by simp)])

theorem runMicros_keepsSticky {ms : List Micro} (h : runMicros ms s = .ok t) : KeepsSticky s t :=
  runMicros_induct (P := KeepsSticky s) (fun _ _ _ _ hu hw => hu.trans (runMicro_keepsSticky hw))
    (keepsSticky_of_eq rfl) h

theorem stepMicro_keepsSticky {m : Micro} {r : Option Micro} (h : stepMicro m s = .ok (r, t)) : KeepsSticky s t := by
  rcases stepMicro_cases h with rfl | ⟨_, a, v, _, rfl⟩ | ⟨_, a, _, _, rfl⟩ | ⟨_, w, _, rfl⟩
  · exact keepsSticky_of_eq rfl
  · exact keepsSticky_of_eq rfl
  · exact keepsSticky_of_eq rfl
  · exact applyReg_keepsSticky w s

theorem drawAdvance_keepsSticky (h : drawAdvance s = .ok t) : KeepsSticky s t := by
  rcases drawAdvance_cases h with ⟨_, rfl⟩ | ⟨_, _, rfl⟩ | ⟨_, _, _, _, u, _, hu, rfl⟩
  · exact keepsSticky_of_eq rfl
  · exact keepsSticky_of_eq rfl
  · exact stepMicro_keepsSticky (t := u) hu

/-! ### The scan engine and the ports -/

theorem scanAdvance_keepsSticky (h : scanAdvance s = .ok t) : KeepsSticky s t :=
  keepsSticky_of_eq (by rw [scanAdvance_frame h])

theorem scanRequest_keepsSticky (h : scanRequest s = .ok t) : KeepsSticky s t := by
  rcases scanRequest_cases h with rfl | ⟨_, _, _, rfl⟩ <;> exact keepsSticky_of_eq rfl

/-- Accepting a packet only starts it. -/
theorem acceptPacket_keepsSticky (h : acceptPacket s = .ok t) : KeepsSticky s t := by
  rcases acceptPacket_cases h with rfl | ⟨_, _, _, _, rfl⟩ | ⟨_, i, rest, _, _, hstart⟩
  · exact keepsSticky_of_eq rfl
  · exact keepsSticky_of_eq rfl
  · rcases startCommand_cases hstart with ⟨_, rfl⟩ | ⟨_, _, rfl⟩ | ⟨_, _, _, rfl⟩ <;> exact keepsSticky_of_eq rfl

theorem applyInput_keepsSticky {e : Input} (he : e ≠ .reset true) (h : applyInput e s = .ok t) : KeepsSticky s t := by
  have hself : KeepsSticky s s := keepsSticky_of_eq rfl
  cases e with
  | reset level => cases level with
    | true => exact absurd rfl he
    | false => cases h; exact keepsSticky_of_eq rfl
  | busBusy level => cases h; exact keepsSticky_of_eq rfl
  | send w =>
    simp only [applyInput] at h
    split at h <;> cases h <;> exact keepsSticky_of_eq rfl
  | pwmTick =>
    simp only [applyInput] at h
    split at h <;> cases h <;> exact keepsSticky_of_eq rfl
  | scanRequest => exact unless_resetHeld h hself scanRequest_keepsSticky
  | accept => exact unless_resetHeld h hself acceptPacket_keepsSticky
  | drawStep => exact unless_resetHeld h hself drawAdvance_keepsSticky
  | scanStep => exact unless_resetHeld h hself scanAdvance_keepsSticky

/-! ### Commands -/

/-- A command executed whole is refused or performs its operations; SCAN's leave `STATUS`. -/
theorem exec_keepsSticky {i : Instr} (h : exec i s = .next t) : KeepsSticky s t := by
  by_cases hi : i = .scan
  · subst hi
    exact keepsSticky_of_eq (by rw [exec_scan_frame h])
  · rcases exec_draw_cases hi h with ⟨_, rfl⟩ | ⟨_, _, hr⟩
    · exact keepsSticky_of_eq rfl
    · exact runMicros_keepsSticky hr

end

/-- Settles O45: by the kinds of step. -/
theorem stickyBitsStaySet : Obligations.StickyBitsStaySet := by
  intro s t f hreset hstep
  suffices hkeeps : KeepsSticky s t from hkeeps f
  rcases step_cases hstep with ⟨e, rest, hsched, hin⟩ | ⟨_, _, rfl⟩ | ⟨_, _, hdraw | hscan | hill | hexec⟩
  · have he : e ≠ .reset true := fun he => hreset rest (he ▸ hsched)
    exact applyInput_keepsSticky (s := s.withSched rest) he hin
  · exact keepsSticky_of_eq rfl
  · exact drawAdvance_keepsSticky hdraw.2
  · exact scanAdvance_keepsSticky hscan.2
  · obtain ⟨_, _, _, rest, _, rfl⟩ := hill
    exact refuse_keepsSticky .ill (s.withPort rest)
  · obtain ⟨_, _, i, rest, _, hexec⟩ := hexec
    exact exec_keepsSticky (s := s.withPort rest) hexec

end Sys2Proof.Proofs
end
